-- ==== Sys2Proof/Word.lean ====
section
/-! DEFINITION. The word types of the core (spec/00_scope.md R7, R11): 64-bit words, bytes, 4-bit instruction fields. -/

namespace Sys2Proof

/-- XLEN = 64: registers, `pc`, addresses and every `val…` latch field (R7). -/
abbrev Word := BitVec 64

/-- The unit of memory and of the instruction stream (R29, R50). -/
abbrev Byte := BitVec 8

/-- The width of `icode`, `ifun`, `regA`, `regB` (R7, R23). -/
abbrev Nibble := BitVec 4

/-- `sign(v)` is bit 63 of a 64-bit value (R11). -/
abbrev Word.sign (v : Word) : Bool := v.getLsbD 63

end Sys2Proof
end

