-- ==== Sys2Proof/Config.lean ====
section
/-! DEFINITION. What is fixed for this hardware (spec/00_scope.md R7). No value of this hardware is left free: spec/93 says the
step function is total and deterministic once `MEMSIZE` and `MEM_INIT` are fixed. -/

namespace Sys2Proof.Config

/-- `NREG`: register indices 0 to 7 (R7, R13). -/
def registerCount : Nat := 8

/-- `SP`: the index of the stack pointer (R7, R15). -/
def stackPointer : Nibble := 4

/-- `NONE`: the register field that names no register (R7, R13). -/
def noRegister : Nibble := 0xF

/-- The stack slot and the width of every data access, in bytes (R7, R43). -/
def slotBytes : Nat := 8

/-- The reference value of the parameter `MEMSIZE` (R7). The capacity of a state's memory may be any other number: it is
DESIGN CHOICE that `State.reset` takes this one (notes/assumptions/1.md). -/
def referenceMemSize : Nat := 0x100000

/-- The least `MEMSIZE` the spec admits (R7). -/
def leastMemSize : Nat := 16

/-- What a byte reads as that neither the image nor a store has given a value: the reference value of `MEM_INIT` (R7, R162).
DESIGN CHOICE, unsafe (notes/assumptions/2.md). -/
def memInit : Byte := 0

/-- The length in bytes of the longest instruction (R50). -/
def longestInstruction : Nat := 10

end Sys2Proof.Config
end

