-- ==== Sys2Proof/Syntax.lean ====
section
/-! DEFINITION. The syntax of the core: the 12 opcode classes, the fields of an instruction as Fetch reads them, and the
27 instructions of spec/opcode_table.json (spec/30_encoding.md R55). -/

namespace Sys2Proof

/-- The 12 opcode classes, `icode` 0x0 to 0xB in this order (R55). The `icode` of a latch is one of them, since Fetch rejects
every other opcode (R56 item 1). -/
inductive IClass where
  | halt | nop | cmov | irmov | rmmov | mrmov | op | jump | call | ret | push | pop
deriving DecidableEq, Repr

/-- The fields of one instruction as Fetch reads them (R23, "decoded once at Fetch"): the raw register indices and the raw
function code, which later stages check (R57, R58). A field the class does not have is `NONE`, or 0 for `valC` (R26). -/
structure Fields where
  icode : IClass
  ifun : Nibble
  regA : Nibble
  regB : Nibble
  valC : Word
deriving DecidableEq, Repr

/-- The instructions, one constructor per row of the opcode table (R55). `fn` is the `ifun` field of the nine classes that
carry it and never read it (R59; canonical value 0); `rA`, `rB` are the register fields, checked by `Instr.WellFormed`;
`v`, `d`, `dest` are the 8-byte constant `valC` (R53). -/
inductive Instr where
  | halt (fn : Nibble)
  | nop (fn : Nibble)
  | rrmovq (rA rB : Nibble)
  | cmovle (rA rB : Nibble)
  | cmovl (rA rB : Nibble)
  | cmove (rA rB : Nibble)
  | cmovne (rA rB : Nibble)
  | cmovge (rA rB : Nibble)
  | cmovg (rA rB : Nibble)
  | irmovq (fn rB : Nibble) (v : Word)
  | rmmovq (fn rA rB : Nibble) (d : Word)
  | mrmovq (fn rA rB : Nibble) (d : Word)
  | addq (rA rB : Nibble)
  | subq (rA rB : Nibble)
  | andq (rA rB : Nibble)
  | xorq (rA rB : Nibble)
  | jmp (dest : Word)
  | jle (dest : Word)
  | jl (dest : Word)
  | je (dest : Word)
  | jne (dest : Word)
  | jge (dest : Word)
  | jg (dest : Word)
  | call (fn : Nibble) (dest : Word)
  | ret (fn : Nibble)
  | pushq (fn rA : Nibble)
  | popq (fn rA : Nibble)
deriving DecidableEq, Repr

end Sys2Proof
end

