-- ==== Sys2Proof/WellFormed.lean ====
section
/-! DEFINITION. Well-formed instructions: every register field the class requires names a register 0 to 7
(spec/30_encoding.md R57; R52: 0x8 to 0xE name nothing, 0xF is `NONE`). An instruction that is not well formed is still an
instruction the core fetches: its Decode raises `FaultInvalidRegister`. -/

namespace Sys2Proof

/-- The field names one of the registers 0 to 7 (R13, R52). -/
def registerOk (r : Nibble) : Bool := decide (r.toNat < Config.registerCount)

/-- Every register field the instruction's class requires names a register (R57). Every `ifun` of the classes that ignore it,
and every constant, is well formed (R53, R59). -/
def Instr.WellFormed : Instr → Bool
  | .halt _ => true
  | .nop _ => true
  | .rrmovq rA rB => registerOk rA && registerOk rB
  | .cmovle rA rB => registerOk rA && registerOk rB
  | .cmovl rA rB => registerOk rA && registerOk rB
  | .cmove rA rB => registerOk rA && registerOk rB
  | .cmovne rA rB => registerOk rA && registerOk rB
  | .cmovge rA rB => registerOk rA && registerOk rB
  | .cmovg rA rB => registerOk rA && registerOk rB
  | .irmovq _ rB _ => registerOk rB
  | .rmmovq _ rA rB _ => registerOk rA && registerOk rB
  | .mrmovq _ rA rB _ => registerOk rA && registerOk rB
  | .addq rA rB => registerOk rA && registerOk rB
  | .subq rA rB => registerOk rA && registerOk rB
  | .andq rA rB => registerOk rA && registerOk rB
  | .xorq rA rB => registerOk rA && registerOk rB
  | .jmp _ => true
  | .jle _ => true
  | .jl _ => true
  | .je _ => true
  | .jne _ => true
  | .jge _ => true
  | .jg _ => true
  | .call _ _ => true
  | .ret _ => true
  | .pushq _ rA => registerOk rA
  | .popq _ rA => registerOk rA

end Sys2Proof
end

