-- ==== Sys2Proof/Decode.lean ====
section
/-! DEFINITION. Bytes to fields to instructions, and back (spec/30_encoding.md). `parse` is what the Fetch stage does with the
bytes at `pc` (spec/40_pipeline_cycle.md R73); `decode` goes on to the instruction, and rejects by name what Decode (R57) or
Execute (R58) would fault on; `encode` writes an instruction's bytes. -/

namespace Sys2Proof

/-! ### Byte order and nibble order -/

/-- A word from its 8 bytes, `b0` at the lowest address: `mem[a+7] ++ ... ++ mem[a]` (R36, R38). -/
def wordOfBytes (b0 b1 b2 b3 b4 b5 b6 b7 : Byte) : Word :=
  b7 ++ b6 ++ b5 ++ b4 ++ b3 ++ b2 ++ b1 ++ b0

/-- Byte `i` of a word, `v[8i+7 : 8i]` (R39). -/
def byteOfWord (v : Word) (i : Nat) : Byte := v.extractLsb' (8 * i) 8

/-- A word's 8 bytes, least significant first (R36, R53). -/
def bytesOfWord (v : Word) : List Byte :=
  [byteOfWord v 0, byteOfWord v 1, byteOfWord v 2, byteOfWord v 3,
   byteOfWord v 4, byteOfWord v 5, byteOfWord v 6, byteOfWord v 7]

/-- Bits 7:4 of a byte: `icode` of byte 0, `regA` of byte 1 (R51, R52). -/
def highNibble (b : Byte) : Nibble := b.extractLsb' 4 4

/-- Bits 3:0 of a byte: `ifun` of byte 0, `regB` of byte 1 (R51, R52). -/
def lowNibble (b : Byte) : Nibble := b.extractLsb' 0 4

/-- The byte with these two halves (R51, R52). -/
def byteOfNibbles (hi lo : Nibble) : Byte := hi ++ lo

/-! ### The opcode classes -/

/-- The class an `icode` selects; 0xC to 0xF select none (R55, R56 item 1). -/
def IClass.ofCode (c : Nibble) : Option IClass :=
  match c.toNat with
  | 0x0 => some .halt
  | 0x1 => some .nop
  | 0x2 => some .cmov
  | 0x3 => some .irmov
  | 0x4 => some .rmmov
  | 0x5 => some .mrmov
  | 0x6 => some .op
  | 0x7 => some .jump
  | 0x8 => some .call
  | 0x9 => some .ret
  | 0xA => some .push
  | 0xB => some .pop
  | _ => none

/-- The `icode` of a class (R55). -/
def IClass.code : IClass → Nibble
  | .halt => 0x0
  | .nop => 0x1
  | .cmov => 0x2
  | .irmov => 0x3
  | .rmmov => 0x4
  | .mrmov => 0x5
  | .op => 0x6
  | .jump => 0x7
  | .call => 0x8
  | .ret => 0x9
  | .push => 0xA
  | .pop => 0xB

/-- The class has a register byte: formats `OR` and `ORC` (R50). -/
def IClass.hasRegisters : IClass → Bool
  | .cmov | .irmov | .rmmov | .mrmov | .op | .push | .pop => true
  | .halt | .nop | .jump | .call | .ret => false

/-- The class has an 8-byte constant: formats `OC` and `ORC` (R50). -/
def IClass.hasConstant : IClass → Bool
  | .irmov | .rmmov | .mrmov | .jump | .call => true
  | .halt | .nop | .cmov | .op | .ret | .push | .pop => false

/-- The length of an instruction in bytes, from its class alone: 1, 2, 9 or 10 (R50, R60). -/
def IClass.length (c : IClass) : Nat :=
  1 + (if c.hasRegisters then 1 else 0) + (if c.hasConstant then 8 else 0)

/-- `regA` must name a register (R57 item 2). -/
def IClass.requiresA : IClass → Bool
  | .cmov | .rmmov | .mrmov | .op | .push | .pop => true
  | .halt | .nop | .irmov | .jump | .call | .ret => false

/-- `regB` must name a register (R57 item 2). -/
def IClass.requiresB : IClass → Bool
  | .cmov | .irmov | .rmmov | .mrmov | .op => true
  | .halt | .nop | .jump | .call | .ret | .push | .pop => false

/-- The encoding reserves `regA`, which must be 0xF (R56 item 3). -/
def IClass.reservesA : IClass → Bool
  | .irmov => true
  | .halt | .nop | .cmov | .rmmov | .mrmov | .op | .jump | .call | .ret | .push | .pop => false

/-- The encoding reserves `regB`, which must be 0xF (R56 item 4). -/
def IClass.reservesB : IClass → Bool
  | .push | .pop => true
  | .halt | .nop | .cmov | .irmov | .rmmov | .mrmov | .op | .jump | .call | .ret => false

/-! ### Bytes to fields: what Fetch does -/

/-- Why bytes are not an instruction, by the fault the core raises for them. -/
inductive Reject where
  /-- R56: Fetch raises `FaultInvalidOpcode`. -/
  | invalidOpcode
  /-- R41: the bytes end before the instruction does; Fetch raises `FaultMemoryBounds`. -/
  | truncated
  /-- R57: Decode raises `FaultInvalidRegister`. -/
  | invalidRegister
  /-- R58: Execute raises `FaultInvalidCondition`. -/
  | invalidCondition
deriving DecidableEq, Repr

/-- The 8 bytes from position `k` of a list as a word (R53). -/
def constantAt (bytes : List Byte) (k : Nat) : Word :=
  wordOfBytes (bytes.getD k 0) (bytes.getD (k + 1) 0) (bytes.getD (k + 2) 0) (bytes.getD (k + 3) 0)
    (bytes.getD (k + 4) 0) (bytes.getD (k + 5) 0) (bytes.getD (k + 6) 0) (bytes.getD (k + 7) 0)

/-- Fields of an instruction of class `c` whose bytes are all there (R73 steps 7 and 8). -/
def fieldsOf (c : IClass) (bytes : List Byte) : Fields :=
  { icode := c
    ifun := lowNibble (bytes.getD 0 0)
    regA := if c.hasRegisters then highNibble (bytes.getD 1 0) else Config.noRegister
    regB := if c.hasRegisters then lowNibble (bytes.getD 1 0) else Config.noRegister
    valC := if c.hasConstant then constantAt bytes (if c.hasRegisters then 2 else 1) else 0 }

/-- R73: the checks of Fetch in their order, on the bytes of memory from `pc` on (`bytes` ends where memory ends). -/
def parse (bytes : List Byte) : Except Reject Fields :=
  match bytes with
  | [] => .error .truncated
  | b0 :: _ =>
    match IClass.ofCode (highNibble b0) with
    | none => .error .invalidOpcode
    | some c =>
      if c = .op ∧ 3 < (lowNibble b0).toNat then .error .invalidOpcode
      else if bytes.length < c.length then .error .truncated
      else if c.reservesA = true ∧ (fieldsOf c bytes).regA ≠ Config.noRegister then .error .invalidOpcode
      else if c.reservesB = true ∧ (fieldsOf c bytes).regB ≠ Config.noRegister then .error .invalidOpcode
      else .ok (fieldsOf c bytes)

/-! ### Fields to an instruction -/

/-- The instruction that `ifun` selects in class 0x2 (R55, R58). -/
def cmovOf (fn rA rB : Nibble) : Except Reject Instr :=
  match fn.toNat with
  | 0 => .ok (.rrmovq rA rB)
  | 1 => .ok (.cmovle rA rB)
  | 2 => .ok (.cmovl rA rB)
  | 3 => .ok (.cmove rA rB)
  | 4 => .ok (.cmovne rA rB)
  | 5 => .ok (.cmovge rA rB)
  | 6 => .ok (.cmovg rA rB)
  | _ => .error .invalidCondition

/-- The instruction that `ifun` selects in class 0x6 (R55, R56 item 2). -/
def opOf (fn rA rB : Nibble) : Except Reject Instr :=
  match fn.toNat with
  | 0 => .ok (.addq rA rB)
  | 1 => .ok (.subq rA rB)
  | 2 => .ok (.andq rA rB)
  | 3 => .ok (.xorq rA rB)
  | _ => .error .invalidOpcode

/-- The instruction that `ifun` selects in class 0x7 (R55, R58). -/
def jumpOf (fn : Nibble) (dest : Word) : Except Reject Instr :=
  match fn.toNat with
  | 0 => .ok (.jmp dest)
  | 1 => .ok (.jle dest)
  | 2 => .ok (.jl dest)
  | 3 => .ok (.je dest)
  | 4 => .ok (.jne dest)
  | 5 => .ok (.jge dest)
  | 6 => .ok (.jg dest)
  | _ => .error .invalidCondition

/-- The instruction these fields are, or the fault that a later stage raises for them: Decode's register check comes before
Execute's condition check. -/
def toInstr (f : Fields) : Except Reject Instr :=
  if (f.icode.requiresA && !registerOk f.regA) || (f.icode.requiresB && !registerOk f.regB) then
    .error .invalidRegister
  else
    match f.icode with
    | .halt => .ok (.halt f.ifun)
    | .nop => .ok (.nop f.ifun)
    | .cmov => cmovOf f.ifun f.regA f.regB
    | .irmov => .ok (.irmovq f.ifun f.regB f.valC)
    | .rmmov => .ok (.rmmovq f.ifun f.regA f.regB f.valC)
    | .mrmov => .ok (.mrmovq f.ifun f.regA f.regB f.valC)
    | .op => opOf f.ifun f.regA f.regB
    | .jump => jumpOf f.ifun f.valC
    | .call => .ok (.call f.ifun f.valC)
    | .ret => .ok (.ret f.ifun)
    | .push => .ok (.pushq f.ifun f.regA)
    | .pop => .ok (.popq f.ifun f.regA)

/-- The decoder: total on any bytes, rejecting by name. It reads the instruction at the head of the list. -/
def decode (bytes : List Byte) : Except Reject Instr :=
  match parse bytes with
  | .error r => .error r
  | .ok f => toInstr f

/-! ### The encoder -/

/-- Fields of format `O` (R50). -/
def Fields.opcode (c : IClass) (fn : Nibble) : Fields :=
  { icode := c, ifun := fn, regA := Config.noRegister, regB := Config.noRegister, valC := 0 }

/-- Fields of format `OR` (R50). -/
def Fields.registers (c : IClass) (fn rA rB : Nibble) : Fields :=
  { icode := c, ifun := fn, regA := rA, regB := rB, valC := 0 }

/-- Fields of format `OC` (R50). -/
def Fields.constant (c : IClass) (fn : Nibble) (v : Word) : Fields :=
  { icode := c, ifun := fn, regA := Config.noRegister, regB := Config.noRegister, valC := v }

/-- Fields of format `ORC` (R50). -/
def Fields.full (c : IClass) (fn rA rB : Nibble) (v : Word) : Fields :=
  { icode := c, ifun := fn, regA := rA, regB := rB, valC := v }

/-- The fields of each instruction (R55). -/
def Instr.fields : Instr → Fields
  | .halt fn => .opcode .halt fn
  | .nop fn => .opcode .nop fn
  | .rrmovq rA rB => .registers .cmov 0 rA rB
  | .cmovle rA rB => .registers .cmov 1 rA rB
  | .cmovl rA rB => .registers .cmov 2 rA rB
  | .cmove rA rB => .registers .cmov 3 rA rB
  | .cmovne rA rB => .registers .cmov 4 rA rB
  | .cmovge rA rB => .registers .cmov 5 rA rB
  | .cmovg rA rB => .registers .cmov 6 rA rB
  | .irmovq fn rB v => .full .irmov fn Config.noRegister rB v
  | .rmmovq fn rA rB d => .full .rmmov fn rA rB d
  | .mrmovq fn rA rB d => .full .mrmov fn rA rB d
  | .addq rA rB => .registers .op 0 rA rB
  | .subq rA rB => .registers .op 1 rA rB
  | .andq rA rB => .registers .op 2 rA rB
  | .xorq rA rB => .registers .op 3 rA rB
  | .jmp dest => .constant .jump 0 dest
  | .jle dest => .constant .jump 1 dest
  | .jl dest => .constant .jump 2 dest
  | .je dest => .constant .jump 3 dest
  | .jne dest => .constant .jump 4 dest
  | .jge dest => .constant .jump 5 dest
  | .jg dest => .constant .jump 6 dest
  | .call fn dest => .constant .call fn dest
  | .ret fn => .opcode .ret fn
  | .pushq fn rA => .registers .push fn rA Config.noRegister
  | .popq fn rA => .registers .pop fn rA Config.noRegister

/-- The length of an instruction in bytes (R50). -/
def Instr.length (i : Instr) : Nat := i.fields.icode.length

/-- The bytes of an instruction from its fields (R50 to R53). -/
def encodeFields (f : Fields) : List Byte :=
  byteOfNibbles f.icode.code f.ifun ::
    ((if f.icode.hasRegisters then [byteOfNibbles f.regA f.regB] else []) ++
     (if f.icode.hasConstant then bytesOfWord f.valC else []))

/-- The bytes of an instruction, lowest address first (R55). -/
def encode (i : Instr) : List Byte := encodeFields i.fields

/-- The canonical spelling of an instruction: `ifun` 0 where the class ignores it (R59, R66). -/
def Instr.canonical : Instr → Instr
  | .halt _ => .halt 0
  | .nop _ => .nop 0
  | .rrmovq rA rB => .rrmovq rA rB
  | .cmovle rA rB => .cmovle rA rB
  | .cmovl rA rB => .cmovl rA rB
  | .cmove rA rB => .cmove rA rB
  | .cmovne rA rB => .cmovne rA rB
  | .cmovge rA rB => .cmovge rA rB
  | .cmovg rA rB => .cmovg rA rB
  | .irmovq _ rB v => .irmovq 0 rB v
  | .rmmovq _ rA rB d => .rmmovq 0 rA rB d
  | .mrmovq _ rA rB d => .mrmovq 0 rA rB d
  | .addq rA rB => .addq rA rB
  | .subq rA rB => .subq rA rB
  | .andq rA rB => .andq rA rB
  | .xorq rA rB => .xorq rA rB
  | .jmp dest => .jmp dest
  | .jle dest => .jle dest
  | .jl dest => .jl dest
  | .je dest => .je dest
  | .jne dest => .jne dest
  | .jge dest => .jge dest
  | .jg dest => .jg dest
  | .call _ dest => .call 0 dest
  | .ret _ => .ret 0
  | .pushq _ rA => .pushq 0 rA
  | .popq _ rA => .popq 0 rA

/-! ### The opcode table's numbering -/

/-- The bytes of a table word: byte `k` of the instruction is bits `8k+7 : 8k`, and every bit above `nbits` is 0, up to the
longest instruction. -/
def tableBytes (nbits w : Nat) : List Byte :=
  (List.range Config.longestInstruction).map fun k => BitVec.ofNat 8 ((w % 2 ^ nbits) / 2 ^ (8 * k))

/-- The instruction the decoder reads from a word of spec/opcode_table.json. -/
def decodeTableWord (nbits w : Nat) : Option Instr :=
  match decode (tableBytes nbits w) with
  | .ok i => some i
  | .error _ => none

end Sys2Proof
end

