-- ==== Sys2Proof/Machine/State.lean ====
section
/-! DEFINITION. The state of the machine, all of it and nothing else (spec/10_state.md): 8 registers, `pc`, 3 flags, the
halted flag, the misprediction flag with its recorded address, the status code, the 8-entry lock table, the 5 pipeline
latches, and the memory array. -/

namespace Sys2Proof.Machine

/-- The general registers `x[0]` to `x[7]` (R13). -/
abbrev RegFile := Vector Word 8

/-- The register lock table `lock[0..7]`, the scoreboard (R21). -/
abbrev LockTable := Vector Bool 8

/-- The memory array `mem[0 .. capacity-1]` (R29). `capacity` is the array's length, the parameter `MEMSIZE` (R7; log entry 1):
no operation changes it. `cells` lists, by rising address, the bytes that differ from `Config.memInit`, what an unlisted
address reads as (log entry 2). -/
structure Memory where
  capacity : Nat
  cells : List Host.Cell
deriving DecidableEq, Repr

/-- The seven status codes, under the spec's own names (R136). -/
inductive Status where
  | Continue
  | Halted
  | FaultInvalidOpcode
  | FaultInvalidRegister
  | FaultInvalidCondition
  | FaultMemoryBounds
  | FaultWriteback
deriving DecidableEq, Repr

/-- A pipeline latch: one in-flight instruction's fields and computed values (R23). -/
structure Latch where
  icode : IClass
  ifun : Nibble
  regA : Nibble
  regB : Nibble
  valC : Word
  valP : Word
  valA : Word
  valB : Word
  valE : Word
  valM : Word
  cnd : Bool
  stalling : Bool
deriving DecidableEq, Repr

/-- `BUBBLE`: "a no-op instruction with both register fields set to NONE", every other field 0 (R27). -/
def bubble : Latch :=
  { icode := .nop, ifun := 0, regA := Config.noRegister, regB := Config.noRegister, valC := 0, valP := 0,
    valA := 0, valB := 0, valE := 0, valM := 0, cnd := false, stalling := false }

/-- `BUBBLE_STALL`: the same with `stalling = 1` (R27). -/
def bubbleStall : Latch := { bubble with stalling := true }

/-- The whole state (spec/10_state.md), under the spec's own names. -/
structure State where
  x : RegFile
  pc : Word
  ZF : Bool
  SF : Bool
  OF : Bool
  halted : Bool
  mispred : Bool
  mispredPC : Word
  status : Status
  lock : LockTable
  F : Latch
  D : Latch
  E : Latch
  M : Latch
  W : Latch
  mem : Memory
deriving DecidableEq, Repr

/-- Why a step stops with no next state. It has NO constructor, so nobody raises one: the spec's step function is total, "from
every state it returns a status and a next state" (R154), and each of the five faults of R135 is a next state that carries its
code in `status` and is described in full by R140 (log entry 4; safe: no behaviour of the hardware is cut off). -/
inductive Fault : Type where
deriving DecidableEq, Repr

/-- Why an instruction has no meaning in the model. -/
inductive Refusal where
  /-- Raised only by a refused arm of `exec`, for an instruction of the opcode table that has no meaning yet; no arm is refused
  in this model. Safe. -/
  | notModelled (mnemonic : String)
deriving DecidableEq, Repr

/-- Memory with nothing loaded, of the reference capacity (R7, R162; log entries 1 and 2). -/
def Memory.unloaded : Memory := { capacity := Config.referenceMemSize, cells := [] }

/-- The machine right after `init()`: the table of R33, over a memory into which nothing has been loaded. -/
def State.reset : State :=
  { x := Vector.replicate 8 0
    pc := 0
    ZF := false
    SF := false
    OF := false
    halted := false
    mispred := false
    mispredPC := 0
    status := .Continue
    lock := Vector.replicate 8 false
    F := bubble
    D := bubble
    E := bubble
    M := bubble
    W := bubble
    mem := Memory.unloaded }

end Sys2Proof.Machine
end

