-- ==== Sys2Proof/Machine/Ops.lean ====
section
/-! DEFINITION. The named operations over registers, locks, memory and the state, and the taking of a fault. -/

namespace Sys2Proof.Machine

/-! ### Registers and locks -/

/-- `x[r]` (R11, R13). An index of 8 or more names no register: Decode rejects it before it reads (R80), so the 0 here is never
used by a step (log entry 7). -/
def RegFile.read (x : RegFile) (r : Nibble) : Word :=
  if h : r.toNat < 8 then x[r.toNat] else 0

/-- `x[r] <- v` (R11, R13). An index of 8 or more names no register: Writeback rejects it before it writes (R93). -/
def RegFile.write (x : RegFile) (r : Nibble) (v : Word) : RegFile :=
  if h : r.toNat < 8 then x.set r.toNat v else x

/-- `lock[r]` (R21). -/
def LockTable.isLocked (t : LockTable) (r : Nibble) : Bool :=
  if h : r.toNat < 8 then t[r.toNat] else false

/-- `lock[r] <- b` (R21). -/
def LockTable.put (t : LockTable) (r : Nibble) (b : Bool) : LockTable :=
  if h : r.toNat < 8 then t.set r.toNat b else t

/-- `lock[r] <- b` for every `r` of a list: taking (R82) and releasing (R94, R70) the locks of an instruction. -/
def LockTable.putAll (t : LockTable) (b : Bool) : List Nibble → LockTable
  | [] => t
  | r :: rs => LockTable.putAll (t.put r b) b rs

/-! ### Memory -/

/-- What a list of cells says an address holds; an unlisted address reads as `Config.memInit` (R162). -/
def Memory.lookup : List Host.Cell → Nat → Byte
  | [], _ => Config.memInit
  | c :: rest, a => if c.1 = a then c.2 else Memory.lookup rest a

/-- Put a cell at its place by rising address. -/
def Memory.place (new : Host.Cell) : List Host.Cell → List Host.Cell
  | [] => [new]
  | c :: rest => if new.1 < c.1 then new :: c :: rest else c :: Memory.place new rest

/-- The cells after one byte is written: the old entry goes, and the new one is listed unless it says what an unlisted address
says anyway, so that equal memories are equal lists. -/
def Memory.update (cells : List Host.Cell) (a : Nat) (v : Byte) : List Host.Cell :=
  let others := cells.filter fun c => c.1 != a
  if v = Config.memInit then others else Memory.place (a, v) others

/-- The byte at address `a` (R38 with `n = 1`). R38 leaves it undefined at an address of `MEMSIZE` or above; the model's choice
is to answer as for any address, the listed byte or `Config.memInit`, and no step asks (DESIGN CHOICE, log entry 16). -/
def Memory.readByte (m : Memory) (a : Nat) : Byte := Memory.lookup m.cells a

/-- `mem[a] <- v`, for an address that exists (R29, R39). -/
def Memory.writeByte (m : Memory) (a : Nat) (v : Byte) : Memory :=
  if a < m.capacity then { m with cells := Memory.update m.cells a v } else m

/-- Write bytes at consecutive addresses. -/
def Memory.writeBytes (m : Memory) (a : Nat) : List Byte → Memory
  | [] => m
  | v :: vs => Memory.writeBytes (m.writeByte a v) (a + 1) vs

/-- An 8-byte access at `addr` lies wholly below the capacity: `addr <= MEMSIZE - 8`, compared as unsigned integers without
wrap-around (R40). -/
def Memory.dataInBounds (m : Memory) (addr : Word) : Bool :=
  decide (addr.toNat + Config.slotBytes ≤ m.capacity)

/-- `MemRead(addr, 8)` (R38), byte by byte also where R38 leaves it undefined (log entry 16): Memory checks the bounds first
(R40). -/
def Memory.read64 (m : Memory) (addr : Word) : Word :=
  let a := addr.toNat
  wordOfBytes (m.readByte a) (m.readByte (a + 1)) (m.readByte (a + 2)) (m.readByte (a + 3))
    (m.readByte (a + 4)) (m.readByte (a + 5)) (m.readByte (a + 6)) (m.readByte (a + 7))

/-- `MemWrite(addr, 8, v)` (R39). -/
def Memory.write64 (m : Memory) (addr v : Word) : Memory :=
  m.writeBytes addr.toNat (bytesOfWord v)

/-- Up to `n` bytes from address `a` on, ending where memory ends. -/
def Memory.bytesUpTo (m : Memory) (a : Nat) : Nat → List Byte
  | 0 => []
  | n + 1 => if a < m.capacity then m.readByte a :: m.bytesUpTo (a + 1) n else []

/-- The bytes Fetch has before it when the next instruction is at `addr`: the longest instruction's length, or fewer at the
end of memory (R41, R73). -/
def Memory.fetchWindow (m : Memory) (addr : Word) : List Byte :=
  m.bytesUpTo addr.toNat Config.longestInstruction

/-- The canonical form of a memory: addresses strictly rising, every listed address exists, and no entry says what an unlisted
address reads as. -/
abbrev Memory.wf (m : Memory) : Prop :=
  (m.cells.Pairwise fun c d => c.1 < d.1) ∧ ∀ c ∈ m.cells, c.1 < m.capacity ∧ c.2 ≠ Config.memInit

/-! ### Updates of the state, one per kind of write a stage does -/

/-- The squash phase's writes (R70). -/
def State.redirect (s : State) (target : Word) (t : LockTable) : State :=
  { s with F := bubble, D := bubble, pc := target, mispred := false, lock := t }

/-- Writeback's writes: registers, locks, the halted flag and the `W` record (R92, R94 to R96). -/
def State.retire (s : State) (regs : RegFile) (t : LockTable) (halt : Bool) (w : Latch) : State :=
  { s with x := regs, lock := t, halted := halt, W := w }

/-- The `M` latch write (R91). -/
def State.latchM (s : State) (m : Latch) : State := { s with M := m }

/-- A memory write landing at the edge (R89). -/
def State.storeMem (s : State) (m : Memory) : State := { s with mem := m }

/-- A write of `pc` (R76, R90). -/
def State.setPc (s : State) (a : Word) : State := { s with pc := a }

/-- The `E` latch write (R85). -/
def State.latchE (s : State) (e : Latch) : State := { s with E := e }

/-- The flag write of class 0x6 (R87). -/
def State.setFlags (s : State) (z n o : Bool) : State := { s with ZF := z, SF := n, OF := o }

/-- The misprediction signal: `mispred <- 1; mispredPC <- a` (R88). -/
def State.signalMispredict (s : State) (a : Word) : State := { s with mispred := true, mispredPC := a }

/-- Decode's writes when it accepts an instruction (R82). -/
def State.accept (s : State) (d : Latch) (t : LockTable) : State := { s with D := d, lock := t }

/-- Decode's writes when it stalls: `D <- BUBBLE_STALL`, `F` kept with `stalling = 1` (R84). -/
def State.holdBack (s : State) (f : Latch) : State :=
  { s with D := bubbleStall, F := { f with stalling := true } }

/-- The `F` latch write (R74, R75). -/
def State.latchF (s : State) (f : Latch) : State := { s with F := f }

/-- A write of `status` by the cycle driver (R68). -/
def State.setStatus (s : State) (c : Status) : State := { s with status := c }

/-- A write of the whole register file. -/
def State.setRegs (s : State) (regs : RegFile) : State := { s with x := regs }

/-! ### Faults -/

/-- The five fault kinds (R135). -/
inductive FaultKind where
  /-- Fetch: an opcode outside the map, or a reserved field populated. -/
  | invalidOpcode
  /-- Decode: a register index of 8 to 14, or `NONE` in a required field. -/
  | invalidRegister
  /-- Execute: `ifun` outside 0 to 6 for a conditional move or jump. -/
  | invalidCondition
  /-- Memory, or Fetch: an access not wholly below `MEMSIZE`. -/
  | memoryBounds
  /-- Writeback: a destination index of 8 or more; unreachable from reset. -/
  | writeback
deriving DecidableEq, Repr

/-- The code a fault leaves in `status` (R136). -/
def FaultKind.code : FaultKind → Status
  | .invalidOpcode => .FaultInvalidOpcode
  | .invalidRegister => .FaultInvalidRegister
  | .invalidCondition => .FaultInvalidCondition
  | .memoryBounds => .FaultMemoryBounds
  | .writeback => .FaultWriteback

/-- The fault Fetch raises for bytes it cannot fetch (R73). `parse` answers only the first two; the others are the later
stages' own faults. -/
def FaultKind.ofReject : Reject → FaultKind
  | .invalidOpcode => .invalidOpcode
  | .truncated => .memoryBounds
  | .invalidRegister => .invalidRegister
  | .invalidCondition => .invalidCondition

/-- TAKING A FAULT, the end of every cycle (R68, R140, R141): nothing is saved, no mode changes, control goes nowhere (R144); the
code, and only the code, is recorded in `status` (R137), unless the halted flag is set, which wins; with neither the status is
`Continue`. There is no return from a fault: only `State.init` leaves a terminal status (R143, R144). -/
def State.takeFault (n : State) (raised : Option FaultKind) : State :=
  if n.halted then n.setStatus .Halted
  else
    match raised with
    | some k => n.setStatus k.code
    | none => n.setStatus .Continue

/-! ### The host surface -/

/-- `init()`: every element of R33 at its reset value, memory not touched (R153, R157). It is the only way out of a terminal
state (R143). -/
def State.init (s : State) : State := { State.reset with mem := s.mem }

/-- The loader: byte `i` of the image is `mem[i]` (R160). -/
def State.load (s : State) (image : List Byte) : State :=
  s.storeMem (s.mem.writeBytes 0 image)

/-- The number of a status code (R136). -/
def Status.code : Status → Nat
  | .Continue => 0
  | .Halted => 1
  | .FaultInvalidOpcode => 2
  | .FaultInvalidRegister => 3
  | .FaultInvalidCondition => 4
  | .FaultMemoryBounds => 5
  | .FaultWriteback => 6

/-- A run ends at the first state whose status is not `Continue` (R143, R156). -/
def State.terminal (s : State) : Bool := decide (s.status ≠ .Continue)

/-- The five cycle-driver states, labels of the state and no state of their own (R34). -/
inductive DriverLabel where
  | running
  | stalled
  | squashing
  | halted
  | faulted
deriving DecidableEq, Repr

/-- The label of a state at a cycle boundary, tested in the order of R34. -/
def State.driverLabel (s : State) : DriverLabel :=
  match s.status with
  | .FaultInvalidOpcode | .FaultInvalidRegister | .FaultInvalidCondition | .FaultMemoryBounds | .FaultWriteback => .faulted
  | .Halted => .halted
  | .Continue => if s.mispred then .squashing else if s.D.stalling then .stalled else .running

end Sys2Proof.Machine
end

