-- ==== Sys2Proof/Machine/Operands.lean ====
section
/-! DEFINITION. Which registers an instruction reads, checks, waits for and writes (spec/40_pipeline_cycle.md R78 to R83), and
which address and value its Memory stage uses (R89). These are all the operand forms: two register fields, the implied stack
pointer, a 64-bit constant, and base register plus displacement. -/

namespace Sys2Proof.Machine

/-- `selA` (R78): a return reads the stack pointer as `valA`. -/
def Latch.selA (l : Latch) : Nibble :=
  match l.icode with
  | .ret => Config.stackPointer
  | .halt | .nop | .cmov | .irmov | .rmmov | .mrmov | .op | .jump | .call | .push | .pop => l.regA

/-- `selB` (R78): call, ret, pushq and popq read the stack pointer as `valB`. -/
def Latch.selB (l : Latch) : Nibble :=
  match l.icode with
  | .call | .ret | .push | .pop => Config.stackPointer
  | .halt | .nop | .cmov | .irmov | .rmmov | .mrmov | .op | .jump => l.regB

/-- A register field the class requires holds `NONE` (R79). -/
def Latch.missingRegister (l : Latch) : Bool :=
  (l.icode.requiresA && l.regA == Config.noRegister) || (l.icode.requiresB && l.regB == Config.noRegister)

/-- An operand index that is neither `NONE` nor below 8 (R80). -/
def badIndex (r : Nibble) : Bool := r != Config.noRegister && decide (8 ≤ r.toNat)

/-- Decode's register check, on both operands and before any lock check (R79, R80). -/
def Latch.registerFault (l : Latch) : Bool :=
  l.missingRegister || badIndex l.selA || badIndex l.selB

/-- An operand waits for a locked register (R81). -/
def operandLocked (t : LockTable) (r : Nibble) : Bool := r != Config.noRegister && t.isLocked r

/-- The signal `stall` of Decode, from the snapshot (R81). -/
def State.stall (s : State) : Bool := operandLocked s.lock s.F.selA || operandLocked s.lock s.F.selB

/-- The signal `hold` of Fetch, from the snapshot (R75): a return is in `F`, `D` or `E`. -/
def State.hold (s : State) : Bool :=
  decide (s.F.icode = .ret) || decide (s.D.icode = .ret) || decide (s.E.icode = .ret)

/-- An operand value: the register if one is selected, else what the latch field holds (R82). -/
def operandValue (x : RegFile) (r : Nibble) (old : Word) : Word :=
  if r = Config.noRegister then old else x.read r

/-- `dests` (R83): the destination registers of an instruction. -/
def Latch.dests (l : Latch) : List Nibble :=
  match l.icode with
  | .cmov | .irmov | .op => [l.regB]
  | .mrmov => [l.regA]
  | .call | .ret | .push => [Config.stackPointer]
  | .pop => [Config.stackPointer, l.regA]
  | .halt | .nop | .rmmov | .jump => []

/-- What the Memory stage does with an instruction. -/
inductive Access where
  | none
  | load (addr : Word)
  | store (addr v : Word)
deriving DecidableEq, Repr

/-- The address and the action of the Memory stage (R89). -/
def Latch.access (e : Latch) : Access :=
  match e.icode with
  | .rmmov => .store e.valE e.valA
  | .mrmov => .load e.valE
  | .call => .store e.valE e.valP
  | .ret => .load e.valA
  | .push => .store e.valE e.valA
  | .pop => .load e.valB
  | .halt | .nop | .cmov | .irmov | .op | .jump => .none

/-- The registers after an instruction's commit, in the order of R92: of pop's two writes the second wins. -/
def Latch.commit (m : Latch) (x : RegFile) : RegFile :=
  match m.icode with
  | .cmov => if m.cnd then x.write m.regB m.valE else x
  | .irmov | .op => x.write m.regB m.valE
  | .mrmov => x.write m.regA m.valM
  | .call | .ret | .push => x.write Config.stackPointer m.valE
  | .pop => (x.write Config.stackPointer m.valE).write m.regA m.valM
  | .halt | .nop | .rmmov | .jump => x

end Sys2Proof.Machine
end

