-- ==== Sys2Proof/Machine/DecodeUnit.lean ====
section
/-! DEFINITION. The Decode stage with the register file and the scoreboard (spec/40_pipeline_cycle.md section 4). -/

namespace Sys2Proof.Machine

/-- Decode (R78 to R84): the register check, then the lock check, then the operand values and the locks of the destinations.
It reads registers and locks of the snapshot only (R71), and sets locks after Writeback has cleared its own (R94). -/
def decodeUnit (s0 n : State) : Except FaultKind State :=
  let f := s0.F
  if f.registerFault then .error .invalidRegister
  else if s0.stall then .ok (n.holdBack f)
  else
    .ok (n.accept
      { f with valA := operandValue s0.x f.selA f.valA, valB := operandValue s0.x f.selB f.valB, stalling := false }
      (LockTable.putAll n.lock true f.dests))

end Sys2Proof.Machine
end

