-- ==== Sys2Proof/Machine/Flags.lean ====
section
/-! DEFINITION. The ALU operations, the condition flags (spec/44_alu.md) and the condition evaluator (spec/42_moves.md R102). -/

namespace Sys2Proof.Machine

/-- `valE` of class 0x6, `valB op valA` (R114, R116 to R119). `ifun` above 3 never reaches Execute, since Fetch rejects it
(R56 item 2): no operation is given for it (log entry 6). -/
def aluResult (ifun : Nibble) (a b : Word) : Option Word :=
  match ifun.toNat with
  | 0 => some (b + a)
  | 1 => some (b - a)
  | 2 => some (b &&& a)
  | 3 => some (b ^^^ a)
  | _ => none

/-- `ZF` (R115): the result is zero. -/
def zeroFlag (e : Word) : Bool := e == 0

/-- `SF` (R115): the result's bit 63. -/
def signFlag (e : Word) : Bool := Word.sign e

/-- `OF` (R115): signed overflow of `b + a` (`ifun` 0) and of `b - a` (`ifun` 1); 0 for the logical operations. -/
def overflowFlag (ifun : Nibble) (a b e : Word) : Bool :=
  match ifun.toNat with
  | 0 => Word.sign a == Word.sign b && Word.sign e != Word.sign a
  | 1 => Word.sign a != Word.sign b && Word.sign e != Word.sign b
  | _ => false

/-- `cond(ifun, ZF, SF, OF)` (R102), the source's own formulas; `none` for `ifun` 7 to 15, where Execute raises
`FaultInvalidCondition` (R58). -/
def condition (ifun : Nibble) (zf sf of : Bool) : Option Bool :=
  match ifun.toNat with
  | 0 => some true
  | 1 => some (zf || sf != of)
  | 2 => some (!zf && sf != of)
  | 3 => some zf
  | 4 => some (!zf)
  | 5 => some (zf || sf == of)
  | 6 => some (!zf && sf == of)
  | _ => none

end Sys2Proof.Machine
end

