-- ==== Sys2Proof/Machine/ExecuteUnit.lean ====
section
/-! DEFINITION. The Execute stage (spec/40_pipeline_cycle.md section 5): ALU, condition flags, branch outcome. -/

namespace Sys2Proof.Machine

/-- Execute (R85 to R88). A field the class does not compute keeps its value (R85). -/
def executeUnit (s0 n : State) : Except FaultKind State :=
  let d := { s0.D with stalling := false }
  match d.icode with
  | .halt | .nop => .ok (n.latchE d)
  | .cmov =>
    match condition d.ifun s0.ZF s0.SF s0.OF with
    | none => .error .invalidCondition
    | some c => .ok (n.latchE { d with valE := d.valA, cnd := c })
  | .irmov => .ok (n.latchE { d with valE := d.valC })
  | .rmmov | .mrmov => .ok (n.latchE { d with valE := d.valB + d.valC })
  | .op =>
    match aluResult d.ifun d.valA d.valB with
    | none => .ok (n.latchE d)
    | some e =>
      .ok ((n.latchE { d with valE := e }).setFlags (zeroFlag e) (signFlag e) (overflowFlag d.ifun d.valA d.valB e))
  | .jump =>
    match condition d.ifun s0.ZF s0.SF s0.OF with
    | none => .error .invalidCondition
    | some c =>
      let m := n.latchE { d with cnd := c }
      .ok (if c then m else m.signalMispredict d.valP)
  | .call | .push => .ok (n.latchE { d with valE := d.valB - 8 })
  | .ret | .pop => .ok (n.latchE { d with valE := d.valB + 8 })

end Sys2Proof.Machine
end

