-- ==== Sys2Proof/Machine/FetchUnit.lean ====
section
/-! DEFINITION. The Fetch stage with the PC and the static predictor (spec/40_pipeline_cycle.md section 3). -/

namespace Sys2Proof.Machine

/-- Where Fetch takes its instruction from in a cycle. `step` always fetches from memory. The other two serve the meaning of ONE
instruction (Machine/Passage.lean): the instruction is presented to Fetch, and behind it Fetch stays idle. -/
inductive Feed where
  /-- The instruction bytes at `pc`. -/
  | memory
  /-- An instruction with these fields, as if its bytes stood at `pc`. -/
  | present (f : Fields)
  /-- No instruction: Fetch writes a bubble and leaves `pc` alone. -/
  | idle
deriving DecidableEq, Repr

/-- The `F` latch of a fetched instruction (R74); `valP` is `pc` plus its length (R54). -/
def fetchedLatch (f : Fields) (pc : Word) : Latch :=
  { icode := f.icode, ifun := f.ifun, regA := f.regA, regB := f.regB, valC := f.valC,
    valP := pc + BitVec.ofNat 64 f.icode.length,
    valA := 0, valB := 0, valE := 0, valM := 0, cnd := false, stalling := false }

/-- The next `pc` (R76): predict taken for jumps and calls, the following address for every other class. -/
def predictedPc (l : Latch) : Word :=
  match l.icode with
  | .jump | .call => l.valC
  | .halt | .nop | .cmov | .irmov | .rmmov | .mrmov | .op | .ret | .push | .pop => l.valP

/-- The writes of a fetch that raised nothing (R74, R76). -/
def State.fetched (n : State) (l : Latch) : State := (n.latchF l).setPc (predictedPc l)

/-- Fetch (R72 to R77): it does not run while Decode stalls; a return in flight holds it; else it reads one instruction. -/
def fetchUnit (feed : Feed) (s0 n : State) : Except FaultKind State :=
  if s0.stall then .ok n
  else if s0.hold then .ok (n.latchF bubbleStall)
  else
    match feed with
    | .memory =>
      match parse (s0.mem.fetchWindow s0.pc) with
      | .error r => .error (FaultKind.ofReject r)
      | .ok f => .ok (n.fetched (fetchedLatch f s0.pc))
    | .present f =>
      if s0.pc.toNat + f.icode.length ≤ s0.mem.capacity then .ok (n.fetched (fetchedLatch f s0.pc))
      else .error .memoryBounds
    | .idle => .ok (n.latchF bubble)

end Sys2Proof.Machine
end

