-- ==== Sys2Proof/Machine/MemoryUnit.lean ====
section
/-! DEFINITION. The Memory stage, "purely a translator between valE/valA/valB and the Memory collaborator's read64/write64"
(spec/40_pipeline_cycle.md section 6). -/

namespace Sys2Proof.Machine

/-- Memory (R89 to R91): the bounds check comes before the access; a load writes `valM`, and for a return also `pc`. -/
def memoryUnit (s0 n : State) : Except FaultKind State :=
  let e := s0.E
  match e.access with
  | .none => .ok (n.latchM { e with stalling := false })
  | .store addr v =>
    if s0.mem.dataInBounds addr then
      .ok ((n.latchM { e with stalling := false }).storeMem (s0.mem.write64 addr v))
    else .error .memoryBounds
  | .load addr =>
    if s0.mem.dataInBounds addr then
      let m := n.latchM { e with valM := s0.mem.read64 addr, stalling := false }
      .ok (if e.icode = .ret then m.setPc (s0.mem.read64 addr) else m)
    else .error .memoryBounds

end Sys2Proof.Machine
end

