-- ==== Sys2Proof/Machine/WritebackUnit.lean ====
section
/-! DEFINITION. The Writeback stage (spec/40_pipeline_cycle.md section 7). Every stage unit reads the snapshot `s0` and writes the
post-edge state `n` (R68, R71); a unit that raises a fault writes nothing (R97). -/

namespace Sys2Proof.Machine

/-- A destination index of 8 or more, 0xF included (R93). -/
def destinationFault (m : Latch) : Bool := m.dests.any fun r => decide (8 ≤ r.toNat)

/-- Writeback (R92 to R96): validate the destinations, commit, release the locks, set the halted flag for a halt, record the
retired instruction in `W`. -/
def writebackUnit (s0 n : State) : Except FaultKind State :=
  let m := s0.M
  if destinationFault m then .error .writeback
  else .ok (n.retire (m.commit s0.x) (LockTable.putAll n.lock false m.dests)
    (n.halted || decide (m.icode = .halt)) { m with stalling := false })

end Sys2Proof.Machine
end

