-- ==== Sys2Proof/Machine/Cycle.lean ====
section
/-! DEFINITION. One clock cycle: the squash phase, the five stage units, the cycle driver (spec/40_pipeline_cycle.md sections
1, 2 and 8). -/

namespace Sys2Proof.Machine

/-- The squash phase (R70): it runs before every stage, and its result is the snapshot (R71). -/
def State.squash (s : State) : State :=
  if s.mispred then s.redirect s.mispredPC (LockTable.putAll s.lock false s.D.dests) else s

/-- The post-edge state as the stages build it, and the fault one of them has raised. -/
structure Progress where
  next : State
  raised : Option FaultKind
deriving DecidableEq, Repr

/-- Run a stage unit after those before it: a raised fault ends the list, and the stage that raises one writes nothing (R68,
R97). -/
def Progress.run (p : Progress) (unit : State → State → Except FaultKind State) (s0 : State) : Progress :=
  match p.raised with
  | some _ => p
  | none =>
    match unit s0 p.next with
    | .ok n => { next := n, raised := none }
    | .error k => { next := p.next, raised := some k }

/-- The five stage units in the order of R68, each reading the snapshot `s0`, oldest instruction first. -/
def runUnits (feed : Feed) (s0 : State) : Progress :=
  ((((({ next := s0, raised := none } : Progress).run writebackUnit s0).run memoryUnit s0).run executeUnit s0).run
    decodeUnit s0).run (fetchUnit feed) s0

/-- One cycle (R68). A terminal state does not change (R69). -/
def cycle (feed : Feed) (s : State) : State :=
  match s.status with
  | .Continue =>
    let p := runUnits feed s.squash
    p.next.takeFault p.raised
  | .Halted | .FaultInvalidOpcode | .FaultInvalidRegister | .FaultInvalidCondition | .FaultMemoryBounds | .FaultWriteback => s

/-- The address the next fetch reads: `pc` of the snapshot (R70, R72). -/
def State.fetchAddress (s : State) : Word := s.squash.pc

/-- Place instruction bytes where the next fetch reads. -/
def State.placeAtFetch (s : State) (bytes : List Byte) : State :=
  s.storeMem (s.mem.writeBytes s.fetchAddress.toNat bytes)

end Sys2Proof.Machine
end

