-- ==== Sys2Proof/Machine/Passage.lean ====
section
/-! DEFINITION. The passage of ONE instruction through the pipeline: the meaning of an instruction is what the five stage units
do to it over the cycles it spends there (spec/00_scope.md R8). The instruction is presented to Fetch at `pc`, then the same
cycles run with Fetch idle until the pipeline is empty. Log entry 3. -/

namespace Sys2Proof.Machine

/-- A latch that holds no instruction: `BUBBLE` or `BUBBLE_STALL` (R27). -/
def Latch.isEmpty (l : Latch) : Bool := decide ({ l with stalling := false } = bubble)

/-- No instruction is in flight: `F`, `D`, `E` and `M` hold bubbles (R12; `W` is only a record, R96). -/
def State.drained (s : State) : Bool := s.F.isEmpty && s.D.isEmpty && s.E.isEmpty && s.M.isEmpty

/-- Fetch reads an instruction in this cycle: Decode does not stall and no return holds Fetch (R72, R75, R77). -/
def State.fetchReady (s : State) : Bool := !s.squash.stall && !s.squash.hold

/-- Present the instruction to Fetch until Fetch takes it. At most 6 cycles go by before it does: 3 of a Decode stall and 3 of a
return's hold (R173). -/
def issue : Nat → Fields → State → State
  | 0, f, s => cycle (.present f) s
  | n + 1, f, s => if s.fetchReady then cycle (.present f) s else issue n f (cycle .idle s)

/-- Run cycles with Fetch idle until nothing is in flight, at most `n` of them. -/
def drain : Nat → State → State
  | 0, s => s
  | n + 1, s => if s.drained then s else drain n (cycle .idle s)

/-- The most cycles Fetch can make an instruction wait (R173). -/
def issueBound : Nat := 6

/-- The most cycles a fetched instruction needs: 3 of waiting in Decode, then Decode, Execute, Memory, Writeback (R99, R173). -/
def drainBound : Nat := 7

/-- The instruction with these fields, taken from Fetch to Writeback. -/
def passThrough (f : Fields) (s : State) : State := drain drainBound (issue issueBound f s)

end Sys2Proof.Machine
end

