-- ==== Sys2Proof/Machine/Alu.lean ====
section
/-! DEFINITION. The ALU operations (spec/44_alu.md): class 0x6, `ifun` the operation; flags by R115. -/

namespace Sys2Proof.Machine

/-- R116, `addq rA, rB`: `x[rB] <- x[rB] + x[rA]`, flags from the sum. -/
def execAddq (rA rB : Nibble) (s : State) : Host.Outcome State Fault Refusal :=
  .next (passThrough (.registers .op 0 rA rB) s)

/-- R117, `subq rA, rB`: `x[rB] <- x[rB] - x[rA]`, flags from the difference. -/
def execSubq (rA rB : Nibble) (s : State) : Host.Outcome State Fault Refusal :=
  .next (passThrough (.registers .op 1 rA rB) s)

/-- R118, `andq rA, rB`: `x[rB] <- x[rB] AND x[rA]`, `OF` cleared. -/
def execAndq (rA rB : Nibble) (s : State) : Host.Outcome State Fault Refusal :=
  .next (passThrough (.registers .op 2 rA rB) s)

/-- R119, `xorq rA, rB`: `x[rB] <- x[rB] XOR x[rA]`, `OF` cleared. -/
def execXorq (rA rB : Nibble) (s : State) : Host.Outcome State Fault Refusal :=
  .next (passThrough (.registers .op 3 rA rB) s)

end Sys2Proof.Machine
end

