-- ==== Sys2Proof/Machine/CallRet.lean ====
section
/-! DEFINITION. Call and return (spec/46_call_ret.md). -/

namespace Sys2Proof.Machine

/-- R130, `call dest`: `x[4] <- x[4] - 8`; the return address is stored there; the next instruction is at `dest`. -/
def execCall (fn : Nibble) (dest : Word) (s : State) : Host.Outcome State Fault Refusal :=
  .next (passThrough (.constant .call fn dest) s)

/-- R131, `ret`: the next instruction is at the address `MemRead(x[4], 8)`; `x[4] <- x[4] + 8`. -/
def execRet (fn : Nibble) (s : State) : Host.Outcome State Fault Refusal :=
  .next (passThrough (.opcode .ret fn) s)

end Sys2Proof.Machine
end

