-- ==== Sys2Proof/Machine/HaltNop.lean ====
section
/-! DEFINITION. Halt and no-op (spec/41_halt_nop.md). -/

namespace Sys2Proof.Machine

/-- R100, `halt`: nothing in Decode, Execute and Memory; Writeback sets `halted`, and the status becomes `Halted`. -/
def execHalt (fn : Nibble) (s : State) : Host.Outcome State Fault Refusal :=
  .next (passThrough (.opcode .halt fn) s)

/-- R101, `nop`: no effect; it takes one fetch slot. -/
def execNop (fn : Nibble) (s : State) : Host.Outcome State Fault Refusal :=
  .next (passThrough (.opcode .nop fn) s)

end Sys2Proof.Machine
end

