-- ==== Sys2Proof/Machine/Jumps.lean ====
section
/-! DEFINITION. Jumps (spec/45_jumps.md): class 0x7, `ifun` the condition of R102; predicted taken, squashed when not (R122). -/

namespace Sys2Proof.Machine

/-- R123, `jmp dest`: the next instruction is at `dest`. -/
def execJmp (dest : Word) (s : State) : Host.Outcome State Fault Refusal :=
  .next (passThrough (.constant .jump 0 dest) s)

/-- R124, `jle dest`: at `dest` if `ZF = 1 or SF != OF`, else at `valP`. -/
def execJle (dest : Word) (s : State) : Host.Outcome State Fault Refusal :=
  .next (passThrough (.constant .jump 1 dest) s)

/-- R125, `jl dest`: at `dest` if `ZF = 0 and SF != OF`, else at `valP`. -/
def execJl (dest : Word) (s : State) : Host.Outcome State Fault Refusal :=
  .next (passThrough (.constant .jump 2 dest) s)

/-- R126, `je dest`: at `dest` if `ZF = 1`, else at `valP`. -/
def execJe (dest : Word) (s : State) : Host.Outcome State Fault Refusal :=
  .next (passThrough (.constant .jump 3 dest) s)

/-- R127, `jne dest`: at `dest` if `ZF = 0`, else at `valP`. -/
def execJne (dest : Word) (s : State) : Host.Outcome State Fault Refusal :=
  .next (passThrough (.constant .jump 4 dest) s)

/-- R128, `jge dest`: at `dest` if `ZF = 1 or SF = OF`, else at `valP`. -/
def execJge (dest : Word) (s : State) : Host.Outcome State Fault Refusal :=
  .next (passThrough (.constant .jump 5 dest) s)

/-- R129, `jg dest`: at `dest` if `ZF = 0 and SF = OF`, else at `valP`. -/
def execJg (dest : Word) (s : State) : Host.Outcome State Fault Refusal :=
  .next (passThrough (.constant .jump 6 dest) s)

end Sys2Proof.Machine
end

