-- ==== Sys2Proof/Machine/MemoryMoves.lean ====
section
/-! DEFINITION. Store and load (spec/43_memory_moves.md): base register plus 64-bit displacement. -/

namespace Sys2Proof.Machine

/-- R112, `rmmovq rA, d(rB)`: `MemWrite(x[rB] + d, 8, x[rA])`. -/
def execRmmovq (fn rA rB : Nibble) (d : Word) (s : State) : Host.Outcome State Fault Refusal :=
  .next (passThrough (.full .rmmov fn rA rB d) s)

/-- R113, `mrmovq d(rB), rA`: `x[rA] <- MemRead(x[rB] + d, 8)`. -/
def execMrmovq (fn rA rB : Nibble) (d : Word) (s : State) : Host.Outcome State Fault Refusal :=
  .next (passThrough (.full .mrmov fn rA rB d) s)

end Sys2Proof.Machine
end

