-- ==== Sys2Proof/Machine/Moves.lean ====
section
/-! DEFINITION. Register moves and load immediate (spec/42_moves.md): class 0x2 with `ifun` the condition of R102, class 0x3. -/

namespace Sys2Proof.Machine

/-- R103, `rrmovq rA, rB`: `x[rB] <- x[rA]`. -/
def execRrmovq (rA rB : Nibble) (s : State) : Host.Outcome State Fault Refusal :=
  .next (passThrough (.registers .cmov 0 rA rB) s)

/-- R104, `cmovle rA, rB`: `x[rB] <- x[rA]` if `ZF = 1 or SF != OF`. -/
def execCmovle (rA rB : Nibble) (s : State) : Host.Outcome State Fault Refusal :=
  .next (passThrough (.registers .cmov 1 rA rB) s)

/-- R105, `cmovl rA, rB`: `x[rB] <- x[rA]` if `ZF = 0 and SF != OF`. -/
def execCmovl (rA rB : Nibble) (s : State) : Host.Outcome State Fault Refusal :=
  .next (passThrough (.registers .cmov 2 rA rB) s)

/-- R106, `cmove rA, rB`: `x[rB] <- x[rA]` if `ZF = 1`. -/
def execCmove (rA rB : Nibble) (s : State) : Host.Outcome State Fault Refusal :=
  .next (passThrough (.registers .cmov 3 rA rB) s)

/-- R107, `cmovne rA, rB`: `x[rB] <- x[rA]` if `ZF = 0`. -/
def execCmovne (rA rB : Nibble) (s : State) : Host.Outcome State Fault Refusal :=
  .next (passThrough (.registers .cmov 4 rA rB) s)

/-- R108, `cmovge rA, rB`: `x[rB] <- x[rA]` if `ZF = 1 or SF = OF`. -/
def execCmovge (rA rB : Nibble) (s : State) : Host.Outcome State Fault Refusal :=
  .next (passThrough (.registers .cmov 5 rA rB) s)

/-- R109, `cmovg rA, rB`: `x[rB] <- x[rA]` if `ZF = 0 and SF = OF`. -/
def execCmovg (rA rB : Nibble) (s : State) : Host.Outcome State Fault Refusal :=
  .next (passThrough (.registers .cmov 6 rA rB) s)

/-- R110, `irmovq $v, rB`: `x[rB] <- v`; `regA` is 0xF. -/
def execIrmovq (fn rB : Nibble) (v : Word) (s : State) : Host.Outcome State Fault Refusal :=
  .next (passThrough (.full .irmov fn Config.noRegister rB v) s)

end Sys2Proof.Machine
end

