-- ==== Sys2Proof/Machine/Stack.lean ====
section
/-! DEFINITION. Push and pop (spec/47_stack.md). -/

namespace Sys2Proof.Machine

/-- R133, `pushq rA`: `x[4] <- x[4] - 8`; the old `x[rA]` is stored there; `regB` is 0xF. -/
def execPushq (fn rA : Nibble) (s : State) : Host.Outcome State Fault Refusal :=
  .next (passThrough (.registers .push fn rA Config.noRegister) s)

/-- R134, `popq rA`: `x[rA] <- MemRead(x[4], 8)`, after `x[4] <- x[4] + 8`; `regB` is 0xF. -/
def execPopq (fn rA : Nibble) (s : State) : Host.Outcome State Fault Refusal :=
  .next (passThrough (.registers .pop fn rA Config.noRegister) s)

end Sys2Proof.Machine
end

