-- ==== Sys2Proof/Machine/Step.lean ====
section
/-! DEFINITION. The step of the machine: one clock cycle, fetching from memory (spec/60_exceptions.md R154). -/

namespace Sys2Proof.Machine

/-- `step()` "runs exactly one cycle" (R68, R154); the status it returns is the next state's `status`. -/
def step (s : State) : Host.Outcome State Fault Refusal := .next (cycle .memory s)

/-- The instruction of a table word stored where the next step fetches. -/
def State.withFetchWord (s : State) (nbits w : Nat) : State := s.placeAtFetch (tableBytes nbits w)

end Sys2Proof.Machine
end

