-- ==== Sys2Proof/Safety.lean ====
section
/-! DEFINITION. What counts as a safe run, and the invariants of the pipeline, in the terms claims use. -/

namespace Sys2Proof.Machine

/-- The status is one of the five fault codes: the run has ended in failure (R156). -/
def State.faulted (s : State) : Bool :=
  match s.status with
  | .Continue | .Halted => false
  | .FaultInvalidOpcode | .FaultInvalidRegister | .FaultInvalidCondition | .FaultMemoryBounds | .FaultWriteback => true

/-- A state in which no fault has ended the run. -/
abbrev State.Safe (s : State) : Prop := s.faulted = false

/-- The first `n` steps from `s` all lead to safe states. -/
def SafeFor : Nat → State → Prop
  | 0, s => s.Safe
  | n + 1, s => s.Safe ∧ ∀ t, step s = .next t → SafeFor n t

/-- Between two instructions: the run goes on, nothing is in flight, no lock is held, no misprediction is pending. The reset
state is one, and so is every state in which the passage of an instruction ends with the status `Continue`. -/
abbrev State.Quiescent (s : State) : Prop :=
  s.status = .Continue ∧ s.halted = false ∧ s.mispred = false ∧ s.lock = Vector.replicate 8 false ∧
  s.F = bubble ∧ s.D = bubble ∧ s.E = bubble ∧ s.M = bubble

/-- The instruction can be presented at `pc`: nothing is in flight and its bytes end below the capacity (R41). -/
abbrev State.Ready (s : State) (i : Instr) : Prop :=
  s.Quiescent ∧ s.pc.toNat + (encode i).length ≤ s.mem.capacity

/-- The architectural state: what the sequential machine of R172 has and the pipeline must agree on. -/
abbrev State.SameArchitecture (s t : State) : Prop :=
  s.x = t.x ∧ s.ZF = t.ZF ∧ s.SF = t.SF ∧ s.OF = t.OF ∧ s.mem = t.mem

/-! ### The spec's conditions, written from its text

They are about the snapshot of a cycle (the state after the squash phase, R71) or one of its latches, and use plain numbers where
the stage units use the decoder's tables, so that a claim that a stage follows them says something. -/

/-- The length an opcode number fixes (R60, R73 step 5). -/
def lengthOfCode (n : Nat) : Nat :=
  if n = 0 ∨ n = 1 ∨ n = 9 then 1
  else if n = 2 ∨ n = 6 ∨ n = 10 ∨ n = 11 then 2
  else if n = 7 ∨ n = 8 then 9
  else 10

/-- `icode` of the instruction bytes at `pc`: bits 7:4 of byte 0 (R51). -/
def State.codeAtPc (s : State) : Nat := (s.mem.readByte s.pc.toNat).toNat / 16

/-- `ifun` of the instruction bytes at `pc`: bits 3:0 of byte 0 (R51). -/
def State.functionAtPc (s : State) : Nat := (s.mem.readByte s.pc.toNat).toNat % 16

/-- `regA` of the instruction bytes at `pc`: bits 7:4 of byte 1 (R52). -/
def State.regAAtPc (s : State) : Nat := (s.mem.readByte (s.pc.toNat + 1)).toNat / 16

/-- `regB` of the instruction bytes at `pc`: bits 3:0 of byte 1 (R52). -/
def State.regBAtPc (s : State) : Nat := (s.mem.readByte (s.pc.toNat + 1)).toNat % 16

/-- R56 items 1 and 2: byte 0 alone is rejected. -/
abbrev State.BadOpcodeByte (s : State) : Prop :=
  11 < s.codeAtPc ∨ (s.codeAtPc = 6 ∧ 3 < s.functionAtPc)

/-- R56 items 3 and 4: a reserved register field is populated. -/
abbrev State.BadReservedField (s : State) : Prop :=
  (s.codeAtPc = 3 ∧ s.regAAtPc ≠ 15) ∨ ((s.codeAtPc = 10 ∨ s.codeAtPc = 11) ∧ s.regBAtPc ≠ 15)

/-- R79, R80 with the operand selection of R78: a required field is `NONE`, or an operand index is 8 to 14. -/
abbrev Latch.BadRegister (l : Latch) : Prop :=
  (l.icode ∈ [IClass.cmov, .rmmov, .mrmov, .op, .push, .pop] ∧ l.regA.toNat = 15) ∨
  (l.icode ∈ [IClass.cmov, .irmov, .rmmov, .mrmov, .op] ∧ l.regB.toNat = 15) ∨
  (l.icode ≠ .ret ∧ 8 ≤ l.regA.toNat ∧ l.regA.toNat < 15) ∨
  (l.icode ∉ [IClass.call, .ret, .push, .pop] ∧ 8 ≤ l.regB.toNat ∧ l.regB.toNat < 15)

/-- R58: `ifun` outside 0 to 6 of a conditional move or jump. -/
abbrev Latch.BadCondition (l : Latch) : Prop := (l.icode = .cmov ∨ l.icode = .jump) ∧ 6 < l.ifun.toNat

/-- R89, R90: the address of the load or store leaves fewer than 8 bytes below the capacity. -/
abbrev Latch.BadAddress (l : Latch) (capacity : Nat) : Prop :=
  (l.icode ∈ [IClass.rmmov, .mrmov, .call, .push] ∧ capacity < l.valE.toNat + 8) ∨
  (l.icode = .ret ∧ capacity < l.valA.toNat + 8) ∨
  (l.icode = .pop ∧ capacity < l.valB.toNat + 8)

/-- R93: a destination of the retiring instruction is 8 or more. -/
abbrev Latch.BadDestination (l : Latch) : Prop := ∃ r ∈ l.dests, 8 ≤ r.toNat

/-- R83, the table of the destinations row by row; that a pop has two is the spec's decision (D11, 90_conflicts.md C4). -/
abbrev Latch.Destination (l : Latch) (r : Nibble) : Prop :=
  (l.icode ∈ [IClass.cmov, .irmov, .op] ∧ r = l.regB) ∨
  (l.icode = .mrmov ∧ r = l.regA) ∨
  (l.icode ∈ [IClass.call, .ret, .push] ∧ r.toNat = 4) ∨
  (l.icode = .pop ∧ (r.toNat = 4 ∨ r = l.regA))

/-- R81: an operand register that is present is locked. -/
abbrev State.MustStall (s : State) : Prop :=
  (s.F.selA ≠ 0xF ∧ s.lock.isLocked s.F.selA = true) ∨ (s.F.selB ≠ 0xF ∧ s.lock.isLocked s.F.selB = true)

/-- R75: a return is in `F`, `D` or `E`. -/
abbrev State.MustHold (s : State) : Prop := s.F.icode = .ret ∨ s.D.icode = .ret ∨ s.E.icode = .ret

/-- R73: the fault of the fetch at `pc`, its checks in their order; none if the instruction is read. -/
def State.fetchFault (s : State) : Option FaultKind :=
  if s.mem.capacity ≤ s.pc.toNat then some .memoryBounds
  else if s.BadOpcodeByte then some .invalidOpcode
  else if s.mem.capacity < s.pc.toNat + lengthOfCode s.codeAtPc then some .memoryBounds
  else if s.BadReservedField then some .invalidOpcode
  else none

/-- R97, R142: the fault of a cycle, the one of the oldest instruction that raises one; `s` is the snapshot. -/
def State.cycleFault (s : State) : Option FaultKind :=
  if s.M.BadDestination then some .writeback
  else if s.E.BadAddress s.mem.capacity then some .memoryBounds
  else if s.D.BadCondition then some .invalidCondition
  else if s.F.BadRegister then some .invalidRegister
  else if s.MustStall ∨ s.MustHold then none
  else s.fetchFault

/-- Signed overflow of a result that ought to be `exact`: it is not a 64-bit signed number (R115). -/
def outsideSigned64 (exact : Int) : Bool := decide (exact < -2 ^ 63 ∨ 2 ^ 63 ≤ exact)

/-! ### What each stage has written when a cycle ends

`s` is the snapshot, `t` the state after the edge. A fault of a younger stage takes none of it back (R97, R140). -/

/-- Writeback has committed its instruction, recorded it and set the halted flag (R92, R95, R96). -/
structure State.WritebackDone (s t : State) : Prop where
  registers : t.x = s.M.commit s.x
  record : t.W = { s.M with stalling := false }
  halted : t.halted = (s.halted || decide (s.M.icode = .halt))

/-- Writeback has released its instruction's locks, and Decode has taken none (R94). -/
abbrev State.OnlyReleased (s t : State) : Prop :=
  ∀ r : Nibble, r.toNat < 8 → (t.lock.isLocked r = true ↔ s.lock.isLocked r = true ∧ ¬ s.M.Destination r)

/-- Writeback has released its instruction's locks, and then Decode has taken those of the instruction it accepts (R82, R94). -/
abbrev State.ReleasedAndTaken (s t : State) : Prop :=
  ∀ r : Nibble, r.toNat < 8 →
    (t.lock.isLocked r = true ↔ s.F.Destination r ∨ (s.lock.isLocked r = true ∧ ¬ s.M.Destination r))

/-- Memory has done its access and written `M`, and Fetch has not written `pc` (R89 to R91). -/
structure State.MemoryDone (s t : State) : Prop where
  fields : { t.M with valM := 0 } = { s.E with valM := 0, stalling := false }
  loaded : t.M.valM =
    if s.E.icode = .mrmov then s.mem.read64 s.E.valE
    else if s.E.icode = .ret then s.mem.read64 s.E.valA
    else if s.E.icode = .pop then s.mem.read64 s.E.valB
    else s.E.valM
  stored : t.mem =
    if s.E.icode = .rmmov ∨ s.E.icode = .push then s.mem.write64 s.E.valE s.E.valA
    else if s.E.icode = .call then s.mem.write64 s.E.valE s.E.valP
    else s.mem
  pc : t.pc = if s.E.icode = .ret then s.mem.read64 s.E.valA else s.pc

/-- Execute has written `E`, the flags of an ALU instruction and the misprediction signal of a jump not taken (R85 to R88, R102;
`OF` by decision D15, the return's `valE` by D10). -/
structure State.ExecuteDone (s t : State) : Prop where
  fields : { t.E with valE := 0, cnd := false } = { s.D with valE := 0, cnd := false, stalling := false }
  cmov : s.D.icode = .cmov → t.E.valE = s.D.valA
  irmov : s.D.icode = .irmov → t.E.valE = s.D.valC
  address : s.D.icode = .rmmov ∨ s.D.icode = .mrmov → t.E.valE = s.D.valB + s.D.valC
  down : s.D.icode = .call ∨ s.D.icode = .push → t.E.valE = s.D.valB - 8
  up : s.D.icode = .ret ∨ s.D.icode = .pop → t.E.valE = s.D.valB + 8
  kept : s.D.icode = .halt ∨ s.D.icode = .nop ∨ s.D.icode = .jump → t.E.valE = s.D.valE
  add : s.D.icode = .op → s.D.ifun = 0 →
    t.E.valE = s.D.valB + s.D.valA ∧ t.OF = outsideSigned64 (s.D.valB.toInt + s.D.valA.toInt)
  sub : s.D.icode = .op → s.D.ifun = 1 →
    t.E.valE = s.D.valB - s.D.valA ∧ t.OF = outsideSigned64 (s.D.valB.toInt - s.D.valA.toInt)
  and : s.D.icode = .op → s.D.ifun = 2 → t.E.valE = s.D.valB &&& s.D.valA ∧ t.OF = false
  xor : s.D.icode = .op → s.D.ifun = 3 → t.E.valE = s.D.valB ^^^ s.D.valA ∧ t.OF = false
  signs : s.D.icode = .op → s.D.ifun.toNat ≤ 3 → t.ZF = decide (t.E.valE = 0) ∧ t.SF = t.E.valE.getLsbD 63
  flags : s.D.icode ≠ .op → t.ZF = s.ZF ∧ t.SF = s.SF ∧ t.OF = s.OF
  condition : s.D.icode = .cmov ∨ s.D.icode = .jump → condition s.D.ifun s.ZF s.SF s.OF = some t.E.cnd
  noCondition : s.D.icode ≠ .cmov → s.D.icode ≠ .jump → t.E.cnd = s.D.cnd
  mispredicted : s.D.icode = .jump → t.E.cnd = false → t.mispred = true ∧ t.mispredPC = s.D.valP
  predicted : s.D.icode ≠ .jump ∨ t.E.cnd = true → t.mispred = false ∧ t.mispredPC = s.mispredPC

/-- What Decode writes to `D` for the instruction it accepts: the operands that are present come from the committed registers of
the snapshot (R78, R82). -/
def State.acceptedLatch (s : State) : Latch :=
  { s.F with
    valA := if s.F.selA ≠ 0xF then RegFile.read s.x s.F.selA else s.F.valA
    valB := if s.F.selB ≠ 0xF then RegFile.read s.x s.F.selB else s.F.valB
    stalling := false }

/-! ### What an instruction names, from the rules of the instructions -/

/-- The registers an instruction may write (R83, R92). -/
def Instr.writes : Instr → List Nibble
  | .halt _ | .nop _ | .rmmovq _ _ _ _ => []
  | .jmp _ | .jle _ | .jl _ | .je _ | .jne _ | .jge _ | .jg _ => []
  | .rrmovq _ rB | .cmovle _ rB | .cmovl _ rB | .cmove _ rB | .cmovne _ rB | .cmovge _ rB | .cmovg _ rB => [rB]
  | .irmovq _ rB _ => [rB]
  | .mrmovq _ rA _ _ => [rA]
  | .addq _ rB | .subq _ rB | .andq _ rB | .xorq _ rB => [rB]
  | .call _ _ | .ret _ | .pushq _ _ => [4]
  | .popq _ rA => [4, rA]

/-- The address an instruction stores its 8 bytes at, from the registers before it (R112, R130, R133). -/
def Instr.storeAddress (x : RegFile) : Instr → Option Word
  | .rmmovq _ _ rB d => some (RegFile.read x rB + d)
  | .call _ _ | .pushq _ _ => some (RegFile.read x 4 - 8)
  | .halt _ | .nop _ | .jmp _ | .jle _ | .jl _ | .je _ | .jne _ | .jge _ | .jg _ => none
  | .rrmovq _ _ | .cmovle _ _ | .cmovl _ _ | .cmove _ _ | .cmovne _ _ | .cmovge _ _ | .cmovg _ _ => none
  | .irmovq _ _ _ | .mrmovq _ _ _ _ | .addq _ _ | .subq _ _ | .andq _ _ | .xorq _ _ | .ret _ | .popq _ _ => none

/-- The address an instruction loads 8 bytes from, from the registers before it (R113, R131, R134). -/
def Instr.loadAddress (x : RegFile) : Instr → Option Word
  | .mrmovq _ _ rB d => some (RegFile.read x rB + d)
  | .ret _ | .popq _ _ => some (RegFile.read x 4)
  | .halt _ | .nop _ | .jmp _ | .jle _ | .jl _ | .je _ | .jne _ | .jge _ | .jg _ => none
  | .rrmovq _ _ | .cmovle _ _ | .cmovl _ _ | .cmove _ _ | .cmovne _ _ | .cmovge _ _ | .cmovg _ _ => none
  | .irmovq _ _ _ | .rmmovq _ _ _ _ | .addq _ _ | .subq _ _ | .andq _ _ | .xorq _ _ | .call _ _ | .pushq _ _ => none

/-- The instruction's load or store leaves fewer than 8 bytes below the capacity (R40). -/
def Instr.outOfBounds (i : Instr) (s : State) : Bool :=
  (Instr.storeAddress s.x i).any (fun a => decide (s.mem.capacity < a.toNat + 8)) ||
    (Instr.loadAddress s.x i).any fun a => decide (s.mem.capacity < a.toNat + 8)

/-! ### The invariants -/

/-- The invariants of a running pipeline. -/
structure State.PipelineInv (s : State) : Prop where
  /-- R22: a register is locked if and only if an instruction in `D`, `E` or `M` has it as a destination. -/
  locked : ∀ r : Nibble, r.toNat < 8 →
    (s.lock.isLocked r = true ↔ r ∈ s.D.dests ∨ r ∈ s.E.dests ∨ r ∈ s.M.dests)
  /-- R22: no register is a destination of two of them. -/
  distinctDE : ∀ r ∈ s.D.dests, r ∉ s.E.dests
  distinctDM : ∀ r ∈ s.D.dests, r ∉ s.M.dests
  distinctEM : ∀ r ∈ s.E.dests, r ∉ s.M.dests
  /-- R98 item 7: every destination in flight is in 0 to 7. -/
  validD : ∀ r ∈ s.D.dests, r.toNat < 8
  validE : ∀ r ∈ s.E.dests, r.toNat < 8
  validM : ∀ r ∈ s.M.dests, r.toNat < 8
  /-- R98 item 6: a pending misprediction belongs to the jump in `E`, and its fall-through address is recorded. -/
  mispredicted : s.mispred = true → s.E.icode = .jump ∧ s.E.cnd = false ∧ s.mispredPC = s.E.valP
  /-- R18, R20: a set halted flag would have ended the run. -/
  running : s.halted = false
  /-- R56 item 2: Fetch lets no other ALU function through. -/
  opF : s.F.icode = .op → s.F.ifun.toNat ≤ 3
  opD : s.D.icode = .op → s.D.ifun.toNat ≤ 3

/-- The invariant every step keeps: in a state whose run has not ended, the pipeline is sound. (A cycle that ends the run may
leave locks and latches behind: spec/95_test_vectors.md S5.) -/
def State.Sound (s : State) : Prop := s.status = .Continue → s.PipelineInv

end Sys2Proof.Machine
end

