-- ==== Sys2Proof/Certificates/Slice0/Obligations.lean ====
section
/-! DEFINITION. The statements for the provers. In a statement about a cycle, `s.squash` is the snapshot the stages read (R71),
`step s = .next t` takes the state to the one after the edge. Words such as `BadRegister`, `MustStall` or `Sound` are defined in
Sys2Proof/Safety.lean from the spec's text. -/

open Sys2Proof Sys2Proof.Machine

/-! ### Encoding -/

/-- Decoding an encoded well-formed instruction gives it back, with every operand at every value (30_encoding.md sections 1
and 2; the places of the half-bytes are the spec's decisions D1 and D2). -/
def Obligations.DecodeOfEncode : Prop :=
  ∀ (i : Instr) (rest : List Byte), i.WellFormed = true → decode (encode i ++ rest) = .ok i

/-- What decodes is well formed and is the encoding of what it decodes to: no other byte string stands for an instruction
(30_encoding.md section 3; R66 for the one ignored field, which `Instr` keeps). -/
def Obligations.DecodedIsEncoded : Prop :=
  ∀ (bytes : List Byte) (i : Instr), decode bytes = .ok i →
    i.WellFormed = true ∧ ∃ rest, bytes = encode i ++ rest

/-- Words written out from the table of R55 decode to the instructions they stand for, one for each family, and three rejected
ones (a sanity statement). -/
def Obligations.SampleWords : Prop :=
  decode [0x00] = .ok (.halt 0) ∧
  decode [0x10] = .ok (.nop 0) ∧
  decode [0x25, 0x03] = .ok (.cmovge 0 3) ∧
  decode [0x30, 0xF4, 0x08, 0x07, 0x06, 0x05, 0x04, 0x03, 0x02, 0x01] = .ok (.irmovq 0 4 0x0102030405060708) ∧
  decode [0x40, 0x03, 0x08, 0, 0, 0, 0, 0, 0, 0] = .ok (.rmmovq 0 0 3 8) ∧
  decode [0x50, 0x13, 0xF8, 0xFF, 0xFF, 0xFF, 0xFF, 0xFF, 0xFF, 0xFF] = .ok (.mrmovq 0 1 3 (-8)) ∧
  decode [0x61, 0x52] = .ok (.subq 5 2) ∧
  decode [0x74, 0x20, 0x01, 0, 0, 0, 0, 0, 0] = .ok (.jne 0x120) ∧
  decode [0x80, 0x18, 0, 0, 0, 0, 0, 0, 0] = .ok (.call 0 0x18) ∧
  decode [0x90] = .ok (.ret 0) ∧
  decode [0xA0, 0x6F] = .ok (.pushq 0 6) ∧
  decode [0xB0, 0x7F] = .ok (.popq 0 7) ∧
  decode [0xC0] = .error .invalidOpcode ∧
  decode [0x20, 0x08] = .error .invalidRegister ∧
  decode [0x77, 0, 0, 0, 0, 0, 0, 0, 0] = .error .invalidCondition

/-- R56, the complete list of the encodings Fetch rejects with `FaultInvalidOpcode`. -/
def Obligations.EncodingsFetchRejects : Prop :=
  ∀ s t : State, s.Quiescent → s.pc.toNat + 10 ≤ s.mem.capacity → step s = .next t →
    (t.status = .FaultInvalidOpcode ↔
      11 < s.codeAtPc ∨
      (s.codeAtPc = 6 ∧ 3 < s.functionAtPc) ∨
      (s.codeAtPc = 3 ∧ s.regAAtPc ≠ 15) ∨
      ((s.codeAtPc = 10 ∨ s.codeAtPc = 11) ∧ s.regBAtPc ≠ 15))

/-- R58: a conditional move or jump with `ifun` 7 to 15 passes Fetch and Decode, taking its lock, and raises
`FaultInvalidCondition` when it reaches Execute; nothing of it is committed. It is said of the instruction alone in the pipeline,
presented to Fetch with nothing fetched behind it: that passage is the model's own (log entry 3, DESIGN CHOICE), each of its
cycles is a cycle of `step` with another feed. -/
def Obligations.InvalidConditionFaultsInExecute : Prop :=
  ∀ (s : State) (f : Fields), s.Quiescent → s.pc.toNat + f.icode.length ≤ s.mem.capacity → 6 < f.ifun.toNat →
    (f.icode = .jump ∧ f.regA = 0xF ∧ f.regB = 0xF ∨ f.icode = .cmov ∧ f.regA.toNat < 8 ∧ f.regB.toNat < 8) →
    (cycle .idle (cycle (.present f) s)).status = .Continue ∧
    (f.icode = .cmov → (cycle .idle (cycle (.present f) s)).lock.isLocked f.regB = true) ∧
    (passThrough f s).status = .FaultInvalidCondition ∧ s.SameArchitecture (passThrough f s)

/-- R59 (decision D13): the function field of the nine classes that ignore it changes nothing but what the `W` record shows of
it. -/
def Obligations.IgnoredFunctionIsIgnored : Prop :=
  ∀ (i : Instr) (s t u : State), s.Quiescent → exec i s = .next t → exec i.canonical s = .next u →
    t.SameArchitecture u ∧ t.pc = u.pc ∧ t.status = u.status ∧ t.halted = u.halted ∧ t.lock = u.lock ∧
    { t.W with ifun := 0 } = { u.W with ifun := 0 }

/-! ### Registers and memory -/

/-- 10_state.md section 1: none of the registers 0 to 7 is hardwired; each holds what was last written to it and a write to one
leaves the others alone. -/
def Obligations.RegistersHoldWhatWasWritten : Prop :=
  ∀ (x : RegFile) (r q : Nibble) (v : Word), r.toNat < 8 →
    RegFile.read (RegFile.write x r v) q = if q = r then v else RegFile.read x q

/-- R36: an 8-byte access is little-endian, and a store leaves every byte outside its 8 alone. -/
def Obligations.MemoryIsLittleEndian : Prop :=
  ∀ (m : Memory) (a v : Word), a.toNat + 8 ≤ m.capacity →
    (∀ k < 8, (m.write64 a v).readByte (a.toNat + k) = v.extractLsb' (8 * k) 8) ∧
    (∀ b, b < a.toNat ∨ a.toNat + 8 ≤ b → (m.write64 a v).readByte b = m.readByte b) ∧
    (∀ k < 8, (m.read64 a).extractLsb' (8 * k) 8 = m.readByte (a.toNat + k))

/-- 20_memory.md section 8: a load returns, for each of its bytes, what the most recent store left there, overlapping stores
included. (A byte of the load at or above the capacity, where R38 gives no value, reads by the model's choice, log entry 16.) -/
def Obligations.LoadSeesEarlierStore : Prop :=
  ∀ (m : Memory) (a b v : Word) (k : Nat), a.toNat + 8 ≤ m.capacity → k < 8 →
    ((m.write64 a v).read64 b).extractLsb' (8 * k) 8 =
      if a.toNat ≤ b.toNat + k ∧ b.toNat + k < a.toNat + 8 then v.extractLsb' (8 * (b.toNat + k - a.toNat)) 8
      else (m.read64 b).extractLsb' (8 * k) 8

/-- Two memories in canonical form that read alike are equal data (the model's canonical form; 20_memory.md section 1). -/
def Obligations.CanonicalMemoriesAreEqual : Prop :=
  ∀ m n : Memory, m.wf → n.wf → m.capacity = n.capacity → (∀ a, m.readByte a = n.readByte a) → m = n

/-! ### Reset and the host surface -/

/-- `init()` sets every element to the value of the table of R33 and does not touch memory, from every state (60_exceptions.md
section 4; all values but `pc` are the spec's decision D20). -/
def Obligations.InitResetsAllButMemory : Prop :=
  ∀ s : State,
    (∀ r : Nibble, RegFile.read s.init.x r = 0) ∧ s.init.pc = 0 ∧ s.init.ZF = false ∧ s.init.SF = false ∧ s.init.OF = false ∧
    s.init.halted = false ∧ s.init.mispred = false ∧ s.init.mispredPC = 0 ∧ s.init.status = .Continue ∧
    (∀ r : Nibble, s.init.lock.isLocked r = false) ∧
    s.init.F = bubble ∧ s.init.D = bubble ∧ s.init.E = bubble ∧ s.init.M = bubble ∧ s.init.W = bubble ∧
    s.init.mem = s.mem

/-- R160: byte `i` of the image is `mem[i]`, and a load changes nothing else. -/
def Obligations.LoaderPlacesTheImage : Prop :=
  ∀ (s : State) (image : List Byte), image.length ≤ s.mem.capacity →
    (∀ i (h : i < image.length), (s.load image).mem.readByte i = image[i]) ∧
    (∀ a, image.length ≤ a → (s.load image).mem.readByte a = s.mem.readByte a) ∧
    { s.load image with mem := s.mem } = s ∧ (s.load image).mem.capacity = s.mem.capacity

/-- `step` is total; a terminal state never changes, and only `init` leaves it (60_exceptions.md sections 2 and 4; that a further
step is the identity is decision D18). -/
def Obligations.StepIsTotalAndTerminalStatesStay : Prop :=
  ∀ s : State, (∃ t, step s = .next t) ∧
    (s.status ≠ .Continue → step s = .next s ∧ s.init.status = .Continue)

/-! ### The squash phase -/

/-- R70: a cycle with a pending misprediction first makes `F` and `D` bubbles, releases the locks of the instruction that was in
`D`, moves `pc` to the recorded address and clears `mispred`; everything else is as it was, and the cycle goes on from there. -/
def Obligations.SquashPhase : Prop :=
  ∀ s : State, s.mispred = true →
    s.squash.F = bubble ∧ s.squash.D = bubble ∧ s.squash.pc = s.mispredPC ∧ s.squash.mispred = false ∧
    ((∀ r ∈ s.D.dests, r.toNat < 8) → ∀ r, s.squash.lock.isLocked r = (s.lock.isLocked r && decide (r ∉ s.D.dests))) ∧
    { s.squash with F := s.F, D := s.D, pc := s.pc, mispred := true, lock := s.lock } = s ∧
    (s.status = .Continue → step s = step s.squash)

/-! ### Fetch -/

/-- R54, R76: `valP` is the address after the instruction, and `pc` goes to the encoded target of a jump or call ("predict
taken"), to `valP` after every other class. -/
def Obligations.FetchPredictsTaken : Prop :=
  ∀ s t : State, s.status = .Continue → step s = .next t → t.status = .Continue →
    ¬ s.squash.MustStall → ¬ s.squash.MustHold →
    t.F.valP = s.squash.pc + BitVec.ofNat 64 (lengthOfCode s.squash.codeAtPc) ∧
    t.pc = if s.squash.codeAtPc = 7 ∨ s.squash.codeAtPc = 8 then t.F.valC else t.F.valP

/-- 40_pipeline_cycle.md section 3: the `F` latch holds the fields of the bytes at `pc` of the snapshot's memory (a store of the
same cycle is not seen), and zeros where later stages write (decisions D1, D2, D23). -/
def Obligations.FetchReadsTheFields : Prop :=
  ∀ s t : State, s.status = .Continue → step s = .next t → t.status = .Continue →
    ¬ s.squash.MustStall → ¬ s.squash.MustHold →
    t.F.icode.code.toNat = s.squash.codeAtPc ∧ t.F.ifun.toNat = s.squash.functionAtPc ∧
    (lengthOfCode s.squash.codeAtPc = 2 ∨ lengthOfCode s.squash.codeAtPc = 10 →
      t.F.regA.toNat = s.squash.regAAtPc ∧ t.F.regB.toNat = s.squash.regBAtPc) ∧
    (lengthOfCode s.squash.codeAtPc = 1 ∨ lengthOfCode s.squash.codeAtPc = 9 → t.F.regA = 0xF ∧ t.F.regB = 0xF) ∧
    (lengthOfCode s.squash.codeAtPc = 9 →
      ∀ k < 8, t.F.valC.extractLsb' (8 * k) 8 = s.mem.readByte (s.squash.pc.toNat + 1 + k)) ∧
    (lengthOfCode s.squash.codeAtPc = 10 →
      ∀ k < 8, t.F.valC.extractLsb' (8 * k) 8 = s.mem.readByte (s.squash.pc.toNat + 2 + k)) ∧
    (lengthOfCode s.squash.codeAtPc = 1 ∨ lengthOfCode s.squash.codeAtPc = 2 → t.F.valC = 0) ∧
    t.F.valA = 0 ∧ t.F.valB = 0 ∧ t.F.valE = 0 ∧ t.F.valM = 0 ∧ t.F.cnd = false ∧ t.F.stalling = false

/-- The fetch hold of a return (decision D8) and the bubble behind a Decode stall (decision D7): a held Fetch writes
`BUBBLE_STALL` and leaves `pc` alone; a stalled Decode writes `BUBBLE_STALL`. -/
def Obligations.HoldAndStallInsertBubbles : Prop :=
  ∀ s t : State, s.status = .Continue → step s = .next t → t.status = .Continue →
    (s.squash.MustStall → t.D = bubbleStall) ∧
    (s.squash.MustHold → ¬ s.squash.MustStall → t.F = bubbleStall) ∧
    (s.squash.MustHold → s.E.icode ≠ .ret → t.pc = s.squash.pc)

/-- A return that Decode accepts holds Fetch for exactly three cycles, after which `pc` is the address it popped (decision D8;
70_reset_and_hazards.md section 4): the byte behind it is never fetched. -/
def Obligations.ReturnHoldsFetchThreeCycles : Prop :=
  ∀ s t u v : State, s.squash.F.icode = .ret → ¬ s.squash.MustStall →
    step s = .next t → step t = .next u → step u = .next v →
    s.status = .Continue → t.status = .Continue → u.status = .Continue → v.status = .Continue → t.mispred = false →
    t.F = bubbleStall ∧ u.F = bubbleStall ∧ v.F = bubbleStall ∧ ¬ v.squash.MustHold ∧
    v.pc = u.mem.read64 (RegFile.read s.x 4)

/-! ### Decode -/

/-- R77, R81: when an operand register that is present is locked, Fetch does not run: `pc` is unchanged, `F` keeps its fields and
is marked stalling, and no lock is taken. -/
def Obligations.DecodeStallFreezesFetch : Prop :=
  ∀ s t : State, s.status = .Continue → step s = .next t → t.status = .Continue → s.squash.MustStall →
    t.F = { s.squash.F with stalling := true } ∧
    (s.E.icode ≠ .ret → t.pc = s.squash.pc) ∧
    ∀ r : Nibble, t.lock.isLocked r = true → s.squash.lock.isLocked r = true

/-- R82, R83: when no operand is locked, Decode reads the operands that are present from the committed registers of the snapshot,
writes `D`, and takes the locks of the destinations, which are class by class those of R83's table, and no other lock; every
other lock is as Writeback leaves it. (That a pop locks `regA` too is the spec's decision D11.) -/
def Obligations.DecodeReadsAndLocks : Prop :=
  (∀ (l : Latch) (r : Nibble), r ∈ l.dests ↔ l.Destination r) ∧
  ∀ s t : State, s.status = .Continue → step s = .next t → t.status = .Continue → ¬ s.squash.MustStall →
    t.D = { s.squash.F with
      valA := if s.squash.F.selA ≠ 0xF then RegFile.read s.x s.squash.F.selA else s.squash.F.valA
      valB := if s.squash.F.selB ≠ 0xF then RegFile.read s.x s.squash.F.selB else s.squash.F.valB
      stalling := false } ∧
    (∀ r ∈ s.squash.F.dests, t.lock.isLocked r = true) ∧
    (∀ r : Nibble, r.toNat < 8 → (t.lock.isLocked r = true ↔
      (s.squash.F.icode = .cmov ∧ r = s.squash.F.regB) ∨
      (s.squash.F.icode = .irmov ∧ r = s.squash.F.regB) ∨
      (s.squash.F.icode = .op ∧ r = s.squash.F.regB) ∨
      (s.squash.F.icode = .mrmov ∧ r = s.squash.F.regA) ∨
      (s.squash.F.icode = .call ∧ r.toNat = 4) ∨
      (s.squash.F.icode = .ret ∧ r.toNat = 4) ∨
      (s.squash.F.icode = .push ∧ r.toNat = 4) ∨
      (s.squash.F.icode = .pop ∧ (r.toNat = 4 ∨ r = s.squash.F.regA)) ∨
      (s.squash.lock.isLocked r = true ∧ ¬ s.M.Destination r)))

/-! ### Execute -/

/-- R17: the flags are written only by an ALU instruction in Execute, and read only by a conditional move or a jump in Execute:
for every other class a cycle does the same whatever the flags are. -/
def Obligations.FlagsWrittenByAluReadByConditions : Prop :=
  ∀ s t : State, step s = .next t →
    (s.squash.D.icode ≠ .op → t.ZF = s.ZF ∧ t.SF = s.SF ∧ t.OF = s.OF) ∧
    (s.squash.D.icode ≠ .cmov → s.squash.D.icode ≠ .jump → ∀ z g o : Bool, ∃ u, step (s.setFlags z g o) = .next u ∧
      { u with ZF := t.ZF, SF := t.SF, OF := t.OF } = t ∧
      (s.squash.D.icode = .op → s.squash.D.ifun.toNat ≤ 3 → t.status = .Continue → u = t))

/-- 44_alu.md: `valE` is `valB op valA`, `ZF` and `SF` are read off the result, `OF` is set exactly when the true signed sum or
difference is no 64-bit signed number, and is 0 for the logical operations (decision D15). -/
def Obligations.AluResultAndFlags : Prop :=
  ∀ s t : State, s.status = .Continue → step s = .next t → t.status = .Continue → s.squash.D.icode = .op →
    (s.squash.D.ifun = 0 →
      t.E.valE = s.squash.D.valB + s.squash.D.valA ∧
      t.OF = outsideSigned64 (s.squash.D.valB.toInt + s.squash.D.valA.toInt)) ∧
    (s.squash.D.ifun = 1 →
      t.E.valE = s.squash.D.valB - s.squash.D.valA ∧
      t.OF = outsideSigned64 (s.squash.D.valB.toInt - s.squash.D.valA.toInt)) ∧
    (s.squash.D.ifun = 2 → t.E.valE = s.squash.D.valB &&& s.squash.D.valA ∧ t.OF = false) ∧
    (s.squash.D.ifun = 3 → t.E.valE = s.squash.D.valB ^^^ s.squash.D.valA ∧ t.OF = false) ∧
    (s.squash.D.ifun.toNat ≤ 3 → t.ZF = decide (t.E.valE = 0) ∧ t.SF = t.E.valE.getLsbD 63)

/-- R102: the condition a conditional move or a jump records is the source's formula for its `ifun` over the flags of the
snapshot; `ifun` 7 to 15 never gets past Execute. -/
def Obligations.ConditionEvaluator : Prop :=
  ∀ s t : State, s.status = .Continue → step s = .next t → s.squash.D.icode = .cmov ∨ s.squash.D.icode = .jump →
    (6 < s.squash.D.ifun.toNat → t.status ≠ .Continue) ∧
    (t.status = .Continue →
      (s.squash.D.ifun = 0 → t.E.cnd = true) ∧
      (s.squash.D.ifun = 1 → (t.E.cnd = true ↔ s.ZF = true ∨ s.SF ≠ s.OF)) ∧
      (s.squash.D.ifun = 2 → (t.E.cnd = true ↔ s.ZF = false ∧ s.SF ≠ s.OF)) ∧
      (s.squash.D.ifun = 3 → (t.E.cnd = true ↔ s.ZF = true)) ∧
      (s.squash.D.ifun = 4 → (t.E.cnd = true ↔ s.ZF = false)) ∧
      (s.squash.D.ifun = 5 → (t.E.cnd = true ↔ s.ZF = true ∨ s.SF = s.OF)) ∧
      (s.squash.D.ifun = 6 → (t.E.cnd = true ↔ s.ZF = false ∧ s.SF = s.OF)))

/-- 42_moves.md section 1: after `subq rA, rB` the conditions compare the old `rB` with `rA` as signed numbers, for every pair of
operands (the spec derives this from R115). -/
def Obligations.ConditionsCompareAfterSub : Prop :=
  ∀ (s t : State) (rA rB : Nibble), s.Ready (.subq rA rB) → rA.toNat < 8 → rB.toNat < 8 →
    exec (.subq rA rB) s = .next t →
    condition 1 t.ZF t.SF t.OF = some (decide ((RegFile.read s.x rB).toInt ≤ (RegFile.read s.x rA).toInt)) ∧
    condition 2 t.ZF t.SF t.OF = some (decide ((RegFile.read s.x rB).toInt < (RegFile.read s.x rA).toInt)) ∧
    condition 3 t.ZF t.SF t.OF = some (decide (RegFile.read s.x rB = RegFile.read s.x rA)) ∧
    condition 4 t.ZF t.SF t.OF = some (decide (RegFile.read s.x rB ≠ RegFile.read s.x rA)) ∧
    condition 5 t.ZF t.SF t.OF = some (decide ((RegFile.read s.x rA).toInt ≤ (RegFile.read s.x rB).toInt)) ∧
    condition 6 t.ZF t.SF t.OF = some (decide ((RegFile.read s.x rA).toInt < (RegFile.read s.x rB).toInt))

/-- R88: a jump whose condition is false sets `mispred` and records its own `valP`; a taken jump, a call and every other class
change neither. -/
def Obligations.MispredictionSignal : Prop :=
  ∀ s t : State, s.status = .Continue → step s = .next t → t.status = .Continue →
    (s.squash.D.icode = .jump → t.E.cnd = false → t.mispred = true ∧ t.mispredPC = s.squash.D.valP) ∧
    (s.squash.D.icode = .jump → t.E.cnd = true → t.mispred = false ∧ t.mispredPC = s.mispredPC) ∧
    (s.squash.D.icode ≠ .jump → t.mispred = false ∧ t.mispredPC = s.mispredPC)

/-- 40_pipeline_cycle.md section 5: the results of the classes other than the ALU's; every other field of `D` moves on to `E`
(decision D10 for the return). -/
def Obligations.ExecuteResults : Prop :=
  ∀ s t : State, s.status = .Continue → step s = .next t → t.status = .Continue →
    { t.E with valE := 0, cnd := false } = { s.squash.D with valE := 0, cnd := false, stalling := false } ∧
    (s.squash.D.icode = .cmov → t.E.valE = s.squash.D.valA) ∧
    (s.squash.D.icode = .irmov → t.E.valE = s.squash.D.valC) ∧
    (s.squash.D.icode = .rmmov ∨ s.squash.D.icode = .mrmov → t.E.valE = s.squash.D.valB + s.squash.D.valC) ∧
    (s.squash.D.icode = .call ∨ s.squash.D.icode = .push → t.E.valE = s.squash.D.valB - 8) ∧
    (s.squash.D.icode = .ret ∨ s.squash.D.icode = .pop → t.E.valE = s.squash.D.valB + 8) ∧
    (s.squash.D.icode = .halt ∨ s.squash.D.icode = .nop ∨ s.squash.D.icode = .jump → t.E.valE = s.squash.D.valE) ∧
    (s.squash.D.icode ≠ .cmov → s.squash.D.icode ≠ .jump → t.E.cnd = s.squash.D.cnd)

/-! ### Memory -/

/-- R40, R89, R90, R91: which class accesses which address; an address that leaves fewer than 8 bytes below the capacity raises
`FaultMemoryBounds` and nothing is accessed (the comparison is on plain numbers, so it does not wrap); otherwise a store writes
its 8 bytes, a load records them in `M`, and a return writes `pc`. That after a bounds fault `M` keeps its value and `pc` is the
snapshot's is the spec's own decision D16 (R97, R140). -/
def Obligations.MemoryStage : Prop :=
  ∀ s t : State, s.status = .Continue → ¬ s.M.BadDestination → step s = .next t →
    (s.E.BadAddress s.mem.capacity →
      (s.halted = false → s.M.icode ≠ .halt → t.status = .FaultMemoryBounds) ∧
      t.mem = s.mem ∧ t.M = s.M ∧ t.pc = s.squash.pc) ∧
    (¬ s.E.BadAddress s.mem.capacity →
      { t.M with valM := 0 } = { s.E with valM := 0, stalling := false } ∧
      (s.E.icode = .rmmov ∨ s.E.icode = .push → t.mem = s.mem.write64 s.E.valE s.E.valA) ∧
      (s.E.icode = .call → t.mem = s.mem.write64 s.E.valE s.E.valP) ∧
      (s.E.icode ∉ [IClass.rmmov, .push, .call] → t.mem = s.mem) ∧
      (s.E.icode = .mrmov → t.M.valM = s.mem.read64 s.E.valE) ∧
      (s.E.icode = .ret → t.M.valM = s.mem.read64 s.E.valA ∧ t.pc = s.mem.read64 s.E.valA) ∧
      (s.E.icode = .pop → t.M.valM = s.mem.read64 s.E.valB) ∧
      (s.E.icode ∉ [IClass.mrmov, .ret, .pop] → t.M.valM = s.E.valM))

/-! ### Writeback -/

/-- 40_pipeline_cycle.md section 7: the register writes of each class, and no other; of pop's two the loaded value wins (decision
D11). -/
def Obligations.WritebackCommits : Prop :=
  ∀ s t : State, s.status = .Continue → ¬ s.M.BadDestination → step s = .next t → ∀ q : Nibble, q.toNat < 8 →
    RegFile.read t.x q =
      match s.M.icode with
      | .cmov => if s.M.cnd = true ∧ q = s.M.regB then s.M.valE else RegFile.read s.x q
      | .irmov | .op => if q = s.M.regB then s.M.valE else RegFile.read s.x q
      | .mrmov => if q = s.M.regA then s.M.valM else RegFile.read s.x q
      | .call | .ret | .push => if q = 4 then s.M.valE else RegFile.read s.x q
      | .pop => if q = s.M.regA then s.M.valM else if q = 4 then s.M.valE else RegFile.read s.x q
      | .halt | .nop | .rmmov | .jump => RegFile.read s.x q

/-- R18, R96: `W` records the instruction Writeback consumed, and no stage reads it; `halted` is set when that instruction is a
halt and by nothing else, and only `init` clears it. -/
def Obligations.WritebackRecordsAndHalts : Prop :=
  ∀ s t : State, s.status = .Continue → step s = .next t →
    (¬ s.M.BadDestination → t.W = { s.M with stalling := false } ∧ ∀ w : Latch, step { s with W := w } = step s) ∧
    (s.M.icode = .halt → t.halted = true) ∧
    (s.M.icode ≠ .halt → t.halted = s.halted) ∧
    (s.halted = true → t.halted = true) ∧ s.init.halted = false

/-- R94: Writeback clears every lock the instruction held, a conditional move's too when its condition was false. -/
def Obligations.WritebackReleasesLocks : Prop :=
  ∀ s t : State, s.Sound → s.status = .Continue → step s = .next t → ∀ r ∈ s.M.dests, t.lock.isLocked r = false

/-! ### Who writes what, and faults -/

/-- 10_state.md section 8: in one cycle a register changes only as a destination of the instruction in `M`, `pc` only by Fetch
(when it is neither stalled nor held), a return in `E` or the squash, memory only for a store, call or push in `E`, the flags
only for an ALU instruction in `D`, the misprediction registers only for a jump in `D` or the squash, a lock only for a
destination of the instruction in `F`, `M` or the squashed `D`, `halted` only for a halt in `M`, and a terminal status never. Each
latch keeps its value, or takes the instruction of the latch before it: `F` is Fetch's when Decode does not stall and gets only
its `stalling` bit from Decode when it does, and `D` may get the bubble of a stall. -/
def Obligations.WritersOfEachElement : Prop :=
  ∀ s t : State, step s = .next t →
    (∀ r : Nibble, r.toNat < 8 → RegFile.read t.x r ≠ RegFile.read s.x r → r ∈ s.M.dests) ∧
    (t.pc ≠ s.pc → s.mispred = true ∨ s.E.icode = .ret ∨ (¬ s.squash.MustStall ∧ ¬ s.squash.MustHold)) ∧
    (t.mem ≠ s.mem → s.E.icode = .rmmov ∨ s.E.icode = .call ∨ s.E.icode = .push) ∧
    (t.ZF ≠ s.ZF ∨ t.SF ≠ s.SF ∨ t.OF ≠ s.OF → s.squash.D.icode = .op) ∧
    (t.mispredPC ≠ s.mispredPC → s.squash.D.icode = .jump) ∧
    (t.mispred = true → s.status = .Continue → s.squash.D.icode = .jump) ∧
    (t.halted ≠ s.halted → s.M.icode = .halt) ∧
    (s.status = .Continue → (∀ r ∈ s.D.dests, r.toNat < 8) → ∀ r : Nibble, r.toNat < 8 →
      t.lock.isLocked r ≠ s.lock.isLocked r → r ∈ s.squash.F.dests ∨ r ∈ s.M.dests ∨ (s.mispred = true ∧ r ∈ s.D.dests)) ∧
    (s.status = .Continue →
      (t.F = s.squash.F ∨ (s.squash.MustStall ∧ t.F = { s.squash.F with stalling := true }) ∨
        (¬ s.squash.MustStall ∧ s.squash.MustHold ∧ t.F = bubbleStall) ∨ (¬ s.squash.MustStall ∧ ¬ s.squash.MustHold)) ∧
      (t.D = s.squash.D ∨ (s.squash.MustStall ∧ t.D = bubbleStall) ∨
        (¬ s.squash.MustStall ∧
          { t.D with valA := 0, valB := 0 } = { s.squash.F with valA := 0, valB := 0, stalling := false })) ∧
      (t.E = s.E ∨ { t.E with valE := 0, cnd := false } = { s.squash.D with valE := 0, cnd := false, stalling := false }) ∧
      (t.M = s.M ∨ { t.M with valM := 0 } = { s.E with valM := 0, stalling := false }) ∧
      (t.W = s.W ∨ t.W = { s.M with stalling := false })) ∧
    (s.status ≠ .Continue → t = s)

/-- 60_exceptions.md section 1 and 2: the status a cycle ends with. The fault reported is that of the oldest instruction that
raises one, for exactly the listed causes, and a halt that commits in the cycle wins over a fault (decisions D12, D14, D16,
D17). -/
def Obligations.StatusOfACycle : Prop :=
  ∀ s t : State, s.status = .Continue → step s = .next t →
    t.status =
      if s.halted = true ∨ s.M.icode = .halt then .Halted
      else match s.squash.cycleFault with
        | some k => k.code
        | none => .Continue

/-- 60_exceptions.md section 2 (decision D16), stage by stage: the squash phase and the stages older than the faulting one have
written all they write, the faulting stage and those behind it have written nothing. In each clause the equation says what is as
in the snapshot; what is not follows: Writeback's registers, locks, record and halted flag, Memory's `M`, memory and `pc`,
Execute's `E`, flags and misprediction signal, Decode's `D` and locks. -/
def Obligations.WhatAFaultLeaves : Prop :=
  ∀ s t : State, s.status = .Continue → step s = .next t →
    (s.M.BadDestination → t = { s.squash with status := t.status }) ∧
    (¬ s.M.BadDestination → s.E.BadAddress s.mem.capacity →
      t = { s.squash with x := t.x, lock := t.lock, halted := t.halted, W := t.W, status := t.status } ∧
      s.squash.WritebackDone t ∧ s.squash.OnlyReleased t) ∧
    (¬ s.M.BadDestination → ¬ s.E.BadAddress s.mem.capacity → s.squash.D.BadCondition →
      t = { s.squash with
        x := t.x, lock := t.lock, halted := t.halted, W := t.W
        M := t.M, mem := t.mem, pc := t.pc
        status := t.status } ∧
      s.squash.WritebackDone t ∧ s.squash.OnlyReleased t ∧ s.squash.MemoryDone t) ∧
    (¬ s.M.BadDestination → ¬ s.E.BadAddress s.mem.capacity → ¬ s.squash.D.BadCondition → s.squash.F.BadRegister →
      t.D = s.squash.D ∧ t.F = s.squash.F ∧
      s.squash.WritebackDone t ∧ s.squash.OnlyReleased t ∧ s.squash.MemoryDone t ∧ s.squash.ExecuteDone t) ∧
    (¬ s.M.BadDestination → ¬ s.E.BadAddress s.mem.capacity → ¬ s.squash.D.BadCondition → ¬ s.squash.F.BadRegister →
      ¬ s.squash.MustStall → ¬ s.squash.MustHold → s.squash.fetchFault ≠ none →
      t.F = s.squash.F ∧ t.pc = s.squash.pc ∧ t.D = s.squash.acceptedLatch ∧
      s.squash.WritebackDone t ∧ s.squash.ReleasedAndTaken t ∧ s.squash.MemoryDone t ∧ s.squash.ExecuteDone t)

/-! ### Invariants -/

/-- Every step keeps memory in canonical form and never changes its capacity. -/
def Obligations.StepKeepsMemoryForm : Prop :=
  ∀ s t : State, s.mem.wf → step s = .next t → t.mem.wf ∧ t.mem.capacity = s.mem.capacity

/-- Every step keeps the pipeline sound: the lock invariant of R22 and the invariants of R98 items 6 and 7. -/
def Obligations.StepKeepsSound : Prop :=
  ∀ s t : State, s.Sound → step s = .next t → t.Sound

/-- The reset state, and every state `init` makes, meets the invariants. -/
def Obligations.ResetMeetsTheInvariants : Prop :=
  State.reset.mem.wf ∧ State.reset.Sound ∧ State.reset.Quiescent ∧
  ∀ s : State, s.init.Sound ∧ s.init.Quiescent

/-- `FaultWriteback` cannot be raised from a sound state (40_pipeline_cycle.md section 9, item 7). -/
def Obligations.WritebackFaultUnreachable : Prop :=
  ∀ s t : State, s.Sound → s.status = .Continue → step s = .next t → t.status ≠ .FaultWriteback

/-! ### Progress and the pipeline as a whole -/

/-- 70_reset_and_hazards.md section 4: Decode cannot stall in four cycles in a row. -/
def Obligations.DecodeStallEndsWithinThreeCycles : Prop :=
  ∀ s t u v : State, s.Sound → s.status = .Continue → t.status = .Continue → u.status = .Continue → v.status = .Continue →
    step s = .next t → step t = .next u → step u = .next v →
    s.squash.MustStall → t.squash.MustStall → u.squash.MustStall → ¬ v.squash.MustStall

/-- 40_pipeline_cycle.md section 9, item 3: an instruction Decode accepts is the one Writeback commits three cycles later, unless
a jump in front of it squashes it or a fault ends the run before; a fault of a younger instruction in the cycle it commits does
not stop it, and a halt ends the run there. -/
def Obligations.AcceptedInstructionCommitsInThreeCycles : Prop :=
  ∀ s t u v w : State, s.status = .Continue → ¬ s.squash.MustStall →
    step s = .next t → step t = .next u → step u = .next v → step v = .next w →
    t.status = .Continue → u.status = .Continue → v.status = .Continue → t.mispred = false →
    w.W.icode = s.squash.F.icode ∧ w.W.ifun = s.squash.F.ifun ∧ w.W.regA = s.squash.F.regA ∧ w.W.regB = s.squash.F.regB ∧
    w.W.valC = s.squash.F.valC ∧ w.W.valP = s.squash.F.valP ∧
    (w.status = .Halted ↔ s.squash.F.icode = .halt)

/-- 40_pipeline_cycle.md section 9, item 4: the wrong path leaves no trace. Two sound states with the same pending misprediction
that differ only in what was fetched and decoded behind the jump (`F`, `D`, `pc` and the locks of `D`) have the same next
state. -/
def Obligations.WrongPathLeavesNoTrace : Prop :=
  ∀ s u : State, s.Sound → u.Sound → s.status = .Continue → s.mispred = true →
    { u with F := s.F, D := s.D, pc := s.pc, lock := s.lock } = s → step s = step u

/-- 70_reset_and_hazards.md section 4 and rules R163, R168, R169: the pipeline hides itself. Let `q` be what a sound state `s`
comes to when the instructions in flight finish with nothing fetched behind them, and `t` the state after one more cycle of the
pipeline. If that cycle fetched the instruction with fields `f` and no jump in front of it turns out mispredicted, finishing `t`
is executing that instruction on `q`; otherwise (Decode stalled, a return held Fetch, or the fetch was on a wrong path) finishing
`t` is `q`. Where a fault ends the run there is no sequential counterpart (R138). -/
def Obligations.PipelineAgreesWithSequentialExecution : Prop :=
  ∀ s t : State, s.Sound → s.status = .Continue → s.mem.capacity < 2 ^ 64 → step s = .next t → t.status = .Continue →
    (drain drainBound s).status = .Continue →
    (∀ f : Fields, s.fetchReady = true → parse (s.mem.fetchWindow s.fetchAddress) = .ok f → t.mispred = false →
      (t.D.icode = .jump → condition t.D.ifun t.ZF t.SF t.OF = some true) →
      (passThrough f (drain drainBound s)).faulted = false →
      drain drainBound t = passThrough f (drain drainBound s)) ∧
    (s.fetchReady = false ∨ t.mispred = true ∨
        (t.D.icode = .jump ∧ condition t.D.ifun t.ZF t.SF t.OF = some false) →
      (drain drainBound t).faulted = false → drain drainBound t = drain drainBound s)

/-- The earliest `Halted` is returned by the fifth step after a state in which nothing is in flight, and a halt at `pc` with four
more halts behind it returns it there, with no register, flag or memory byte changed (70_reset_and_hazards.md section 1,
41_halt_nop.md). -/
def Obligations.HaltTakesFiveCycles : Prop :=
  ∀ s t u v w z : State, s.Quiescent →
    step s = .next t → step t = .next u → step u = .next v → step v = .next w → step w = .next z →
    t.status ≠ .Halted ∧ u.status ≠ .Halted ∧ v.status ≠ .Halted ∧ w.status ≠ .Halted ∧
    (s.pc.toNat + 5 ≤ s.mem.capacity → s.pc.toNat + 5 < 2 ^ 64 →
      (∀ k < 5, s.mem.readByte (s.pc.toNat + k) = 0) →
      w.status = .Continue ∧ z.status = .Halted ∧ z.halted = true ∧ z.pc = s.pc + 5 ∧ s.SameArchitecture z)

/-! ### The instructions

The completion statements give the state the passage of one instruction ends in, with Fetch idle behind it (log entry 3, DESIGN
CHOICE), and the `W` record with the canonical values of its don't-care fields (log entry 11, DESIGN CHOICE, decision D23). -/

/-- A step that fetches runs the instruction the bytes decode to: `step` and the meaning of that instruction begin with the same
cycle, and the meaning only goes on from there with nothing fetched behind it. Unless a stage in front of Fetch faults, the cycle
puts the instruction's fields in `F` and moves `pc` past it or to its target. -/
def Obligations.StepRunsTheDecodedInstruction : Prop :=
  ∀ (s : State) (i : Instr), s.status = .Continue → s.fetchReady = true →
    decode (s.mem.fetchWindow s.fetchAddress) = .ok i →
    ∃ t, step s = .next t ∧ exec i s = .next (drain drainBound t) ∧
      (t.status = .Continue →
        t.F = fetchedLatch i.fields s.fetchAddress ∧ t.pc = predictedPc (fetchedLatch i.fields s.fetchAddress))

/-- 41_halt_nop.md: `nop` changes nothing but `pc` and the `W` record; `halt` sets `halted` and ends the run, and no register,
flag or memory byte changes. Two clauses are the model's choice: that the halt leaves `pc` one byte on (Fetch is idle behind the
instruction, log entry 3, DESIGN CHOICE; in a run of `step` `pc` is wherever Fetch has got to, R100, normally 5 bytes on, which
`HaltTakesFiveCycles` states), and the don't-care fields of `W` (log entry 11, DESIGN CHOICE, decision D23). -/
def Obligations.HaltAndNopComplete : Prop :=
  ∀ (s : State) (fn : Nibble),
    (s.Ready (.nop fn) →
      exec (.nop fn) s = .next { s with
        pc := s.pc + 1
        W := fetchedLatch (Instr.nop fn).fields s.pc }) ∧
    (s.Ready (.halt fn) →
      exec (.halt fn) s = .next { s with
        pc := s.pc + 1
        halted := true
        status := .Halted
        W := fetchedLatch (Instr.halt fn).fields s.pc })

/-- 42_moves.md section 2: the seven register moves copy `rA` to `rB` when their condition holds, and change nothing else but `pc`
and the `W` record. -/
def Obligations.MovesComplete : Prop :=
  ∀ (s : State) (rA rB : Nibble) (p : Instr × Bool), rA.toNat < 8 → rB.toNat < 8 →
    p ∈ [(Instr.rrmovq rA rB, true),
         (.cmovle rA rB, s.ZF || s.SF != s.OF),
         (.cmovl rA rB, !s.ZF && s.SF != s.OF),
         (.cmove rA rB, s.ZF),
         (.cmovne rA rB, !s.ZF),
         (.cmovge rA rB, s.ZF || s.SF == s.OF),
         (.cmovg rA rB, !s.ZF && s.SF == s.OF)] →
    s.Ready p.1 →
    exec p.1 s = .next { s with
      x := if p.2 then RegFile.write s.x rB (RegFile.read s.x rA) else s.x
      pc := s.pc + 2
      W := { fetchedLatch p.1.fields s.pc with
        valA := RegFile.read s.x rA, valB := RegFile.read s.x rB, valE := RegFile.read s.x rA, cnd := p.2 } }

/-- 42_moves.md section 3: `irmovq` loads its constant, all 64 bits as they are. -/
def Obligations.IrmovqCompletes : Prop :=
  ∀ (s : State) (fn rB : Nibble) (v : Word), rB.toNat < 8 → s.Ready (.irmovq fn rB v) →
    exec (.irmovq fn rB v) s = .next { s with
      x := RegFile.write s.x rB v
      pc := s.pc + 10
      W := { fetchedLatch (Instr.irmovq fn rB v).fields s.pc with valB := RegFile.read s.x rB, valE := v } }

/-- 43_memory_moves.md: `rmmovq` stores `rA` at `x[rB] + D`, an address that wraps modulo 2^64, in bounds. -/
def Obligations.RmmovqCompletes : Prop :=
  ∀ (s : State) (fn rA rB : Nibble) (d : Word), rA.toNat < 8 → rB.toNat < 8 → s.Ready (.rmmovq fn rA rB d) →
    (RegFile.read s.x rB + d).toNat + 8 ≤ s.mem.capacity →
    exec (.rmmovq fn rA rB d) s = .next { s with
      pc := s.pc + 10
      mem := s.mem.write64 (RegFile.read s.x rB + d) (RegFile.read s.x rA)
      W := { fetchedLatch (Instr.rmmovq fn rA rB d).fields s.pc with
        valA := RegFile.read s.x rA, valB := RegFile.read s.x rB, valE := RegFile.read s.x rB + d } }

/-- 43_memory_moves.md: `mrmovq` loads `rA` from `x[rB] + D`, in bounds. -/
def Obligations.MrmovqCompletes : Prop :=
  ∀ (s : State) (fn rA rB : Nibble) (d : Word), rA.toNat < 8 → rB.toNat < 8 → s.Ready (.mrmovq fn rA rB d) →
    (RegFile.read s.x rB + d).toNat + 8 ≤ s.mem.capacity →
    exec (.mrmovq fn rA rB d) s = .next { s with
      x := RegFile.write s.x rA (s.mem.read64 (RegFile.read s.x rB + d))
      pc := s.pc + 10
      W := { fetchedLatch (Instr.mrmovq fn rA rB d).fields s.pc with
        valA := RegFile.read s.x rA, valB := RegFile.read s.x rB, valE := RegFile.read s.x rB + d
        valM := s.mem.read64 (RegFile.read s.x rB + d) } }

/-- 44_alu.md section 2: the four operations write `x[rB] op x[rA]` to `rB` and all three flags (`OF` by decision D15). -/
def Obligations.AluCompletes : Prop :=
  ∀ (s : State) (rA rB : Nibble) (p : Instr × Word × Bool), rA.toNat < 8 → rB.toNat < 8 →
    p ∈ [(Instr.addq rA rB, RegFile.read s.x rB + RegFile.read s.x rA,
            outsideSigned64 ((RegFile.read s.x rB).toInt + (RegFile.read s.x rA).toInt)),
         (.subq rA rB, RegFile.read s.x rB - RegFile.read s.x rA,
            outsideSigned64 ((RegFile.read s.x rB).toInt - (RegFile.read s.x rA).toInt)),
         (.andq rA rB, RegFile.read s.x rB &&& RegFile.read s.x rA, false),
         (.xorq rA rB, RegFile.read s.x rB ^^^ RegFile.read s.x rA, false)] →
    s.Ready p.1 →
    exec p.1 s = .next { s with
      x := RegFile.write s.x rB p.2.1
      pc := s.pc + 2
      ZF := decide (p.2.1 = 0)
      SF := p.2.1.getLsbD 63
      OF := p.2.2
      W := { fetchedLatch p.1.fields s.pc with
        valA := RegFile.read s.x rA, valB := RegFile.read s.x rB, valE := p.2.1 } }

/-- 45_jumps.md: a jump goes to its target if its condition holds and to the address behind it if not; no register, flag or
memory byte changes. A jump not taken leaves the address it recovered to in `mispredPC`. -/
def Obligations.JumpsComplete : Prop :=
  ∀ (s : State) (dest : Word) (p : Instr × Bool),
    p ∈ [(Instr.jmp dest, true),
         (.jle dest, s.ZF || s.SF != s.OF),
         (.jl dest, !s.ZF && s.SF != s.OF),
         (.je dest, s.ZF),
         (.jne dest, !s.ZF),
         (.jge dest, s.ZF || s.SF == s.OF),
         (.jg dest, !s.ZF && s.SF == s.OF)] →
    s.Ready p.1 →
    exec p.1 s = .next { s with
      pc := if p.2 then dest else s.pc + 9
      mispredPC := if p.2 then s.mispredPC else s.pc + 9
      W := { fetchedLatch p.1.fields s.pc with cnd := p.2 } }

/-- 46_call_ret.md: `call` moves the stack pointer down 8 bytes, stores the address behind the call there, in bounds, and goes to
its target. -/
def Obligations.CallCompletes : Prop :=
  ∀ (s : State) (fn : Nibble) (dest : Word), s.Ready (.call fn dest) →
    (RegFile.read s.x 4 - 8).toNat + 8 ≤ s.mem.capacity →
    exec (.call fn dest) s = .next { s with
      x := RegFile.write s.x 4 (RegFile.read s.x 4 - 8)
      pc := dest
      mem := s.mem.write64 (RegFile.read s.x 4 - 8) (s.pc + 9)
      W := { fetchedLatch (Instr.call fn dest).fields s.pc with
        valB := RegFile.read s.x 4, valE := RegFile.read s.x 4 - 8 } }

/-- 46_call_ret.md: `ret` goes to the address the stack pointer points at, in bounds, and moves the stack pointer up 8 bytes. -/
def Obligations.RetCompletes : Prop :=
  ∀ (s : State) (fn : Nibble), s.Ready (.ret fn) → (RegFile.read s.x 4).toNat + 8 ≤ s.mem.capacity →
    exec (.ret fn) s = .next { s with
      x := RegFile.write s.x 4 (RegFile.read s.x 4 + 8)
      pc := s.mem.read64 (RegFile.read s.x 4)
      W := { fetchedLatch (Instr.ret fn).fields s.pc with
        valA := RegFile.read s.x 4, valB := RegFile.read s.x 4, valE := RegFile.read s.x 4 + 8
        valM := s.mem.read64 (RegFile.read s.x 4) } }

/-- 47_stack.md: `pushq` moves the stack pointer down 8 bytes and stores the old `rA` there, in bounds; `pushq %rsp` stores the
old stack pointer. -/
def Obligations.PushqCompletes : Prop :=
  ∀ (s : State) (fn rA : Nibble), rA.toNat < 8 → s.Ready (.pushq fn rA) →
    (RegFile.read s.x 4 - 8).toNat + 8 ≤ s.mem.capacity →
    exec (.pushq fn rA) s = .next { s with
      x := RegFile.write s.x 4 (RegFile.read s.x 4 - 8)
      pc := s.pc + 2
      mem := s.mem.write64 (RegFile.read s.x 4 - 8) (RegFile.read s.x rA)
      W := { fetchedLatch (Instr.pushq fn rA).fields s.pc with
        valA := RegFile.read s.x rA, valB := RegFile.read s.x 4, valE := RegFile.read s.x 4 - 8 } }

/-- 47_stack.md: `popq` loads `rA` from where the stack pointer points, in bounds, and moves the stack pointer up 8 bytes;
`popq %rsp` ends with the loaded value (decision D11). -/
def Obligations.PopqCompletes : Prop :=
  ∀ (s : State) (fn rA : Nibble), rA.toNat < 8 → s.Ready (.popq fn rA) →
    (RegFile.read s.x 4).toNat + 8 ≤ s.mem.capacity →
    exec (.popq fn rA) s = .next { s with
      x := RegFile.write (RegFile.write s.x 4 (RegFile.read s.x 4 + 8)) rA (s.mem.read64 (RegFile.read s.x 4))
      pc := s.pc + 2
      W := { fetchedLatch (Instr.popq fn rA).fields s.pc with
        valA := RegFile.read s.x rA, valB := RegFile.read s.x 4, valE := RegFile.read s.x 4 + 8
        valM := s.mem.read64 (RegFile.read s.x 4) } }

/-! ### All instructions -/

/-- The frame of every instruction: registers it does not write, flags unless it is an ALU operation, every lock, the
misprediction registers unless it is a jump, `halted` unless it is `halt`, and every byte of memory outside the 8 it stores (all
of memory, where it stores none) are unchanged. -/
def Obligations.InstructionFrame : Prop :=
  ∀ (i : Instr) (s t : State), s.Quiescent → exec i s = .next t → t.faulted = false →
    (∀ r : Nibble, r.toNat < 8 → r ∉ Instr.writes i → RegFile.read t.x r = RegFile.read s.x r) ∧
    (i.fields.icode ≠ .op → t.ZF = s.ZF ∧ t.SF = s.SF ∧ t.OF = s.OF) ∧
    (i.fields.icode ≠ .jump → t.mispredPC = s.mispredPC) ∧
    (i.fields.icode ≠ .halt → t.halted = s.halted ∧ t.status = s.status) ∧
    t.lock = s.lock ∧ t.mispred = s.mispred ∧ t.F = s.F ∧ t.D = s.D ∧ t.E = s.E ∧ t.M = s.M ∧
    t.mem.capacity = s.mem.capacity ∧
    (∀ a : Word, Instr.storeAddress s.x i = some a →
      ∀ b : Nat, b < a.toNat ∨ a.toNat + 8 ≤ b → t.mem.readByte b = s.mem.readByte b) ∧
    (Instr.storeAddress s.x i = none → ∀ b : Nat, t.mem.readByte b = s.mem.readByte b)

/-- When an instruction faults, and with what code: its bytes do not fit (decision D14), a register field is bad, its access is
out of bounds; else it completes. A fault leaves registers, flags and memory alone. -/
def Obligations.WhenAnInstructionFaults : Prop :=
  ∀ (i : Instr) (s t : State), s.Quiescent → exec i s = .next t →
    t.status =
      (if s.mem.capacity < s.pc.toNat + (encode i).length then .FaultMemoryBounds
       else if i.WellFormed = false then .FaultInvalidRegister
       else if Instr.outOfBounds i s = true then .FaultMemoryBounds
       else if i.fields.icode = .halt then .Halted
       else .Continue) ∧
    (t.faulted = true → s.SameArchitecture t)

/-- An instruction that ends neither in a fault nor in a halt leaves the machine between two instructions, so meanings can be
chained. -/
def Obligations.InstructionEndsBetweenInstructions : Prop :=
  ∀ (i : Instr) (s t : State), s.Quiescent → exec i s = .next t → t.status = .Continue → t.Quiescent

/-- 46_call_ret.md: "executing `call T` then, at `T`, `ret` must restore PC to the call's fall-through address and restore the
stack pointer to its pre-call value"; nothing but the stack slot differs in memory. -/
def Obligations.CallThenRetRestores : Prop :=
  ∀ (s t u : State) (fn fn' : Nibble) (dest : Word), s.Ready (.call fn dest) → dest.toNat + 1 ≤ s.mem.capacity →
    (RegFile.read s.x 4 - 8).toNat + 8 ≤ s.mem.capacity →
    exec (.call fn dest) s = .next t → exec (.ret fn') t = .next u →
    u.status = .Continue ∧ u.pc = s.pc + 9 ∧ u.x = s.x ∧ u.ZF = s.ZF ∧ u.SF = s.SF ∧ u.OF = s.OF ∧
    ∀ b : Nat, b < (RegFile.read s.x 4 - 8).toNat ∨ (RegFile.read s.x 4 - 8).toNat + 8 ≤ b →
      u.mem.readByte b = s.mem.readByte b

/-- 47_stack.md: `pushq rA` followed by `popq rB` copies `rA` to `rB` and leaves the stack pointer as it was (unless `rB` is the
stack pointer, which then gets the copy). -/
def Obligations.PushThenPopCopies : Prop :=
  ∀ (s t u : State) (fn fn' rA rB : Nibble), rA.toNat < 8 → rB.toNat < 8 → s.Ready (.pushq fn rA) →
    (s.pc + 2).toNat + 2 ≤ s.mem.capacity → (RegFile.read s.x 4 - 8).toNat + 8 ≤ s.mem.capacity →
    exec (.pushq fn rA) s = .next t → exec (.popq fn' rB) t = .next u →
    u.status = .Continue ∧ u.pc = s.pc + 4 ∧ u.x = RegFile.write s.x rB (RegFile.read s.x rA)
end

