-- ==== Sys2Proof/Laws/Memory.lean ====
section
/-! SUPPORT. Memory: reading after writing, what a write leaves alone, and that every operation keeps the canonical form. -/

namespace Sys2Proof.Machine

/-! ### Cells -/

theorem Memory.lookup_filter_ne (cells : List Host.Cell) {a b : Nat} (h : b ≠ a) :
    Memory.lookup (cells.filter fun c => c.1 != a) b = Memory.lookup cells b := by
  induction cells with
  | nil => rfl
  | cons c rest ih =>
    by_cases hc : c.1 = a
    · simp [Memory.lookup, hc, ih, h.symm]
    · simp [Memory.lookup, hc, ih]

theorem Memory.lookup_filter_self (cells : List Host.Cell) (a : Nat) :
    Memory.lookup (cells.filter fun c => c.1 != a) a = Config.memInit := by
  induction cells with
  | nil => rfl
  | cons c rest ih =>
    by_cases hc : c.1 = a
    · simp [hc, ih]
    · simp [Memory.lookup, hc, ih]

theorem Memory.lookup_place_ne (new : Host.Cell) (cells : List Host.Cell) {b : Nat} (h : new.1 ≠ b) :
    Memory.lookup (Memory.place new cells) b = Memory.lookup cells b := by
  induction cells with
  | nil => simp [Memory.place, Memory.lookup, h]
  | cons c rest ih => by_cases hc : new.1 < c.1 <;> simp [Memory.place, Memory.lookup, hc, h, ih]

theorem Memory.lookup_place_self (new : Host.Cell) (cells : List Host.Cell)
    (h : ∀ c ∈ cells, c.1 ≠ new.1) : Memory.lookup (Memory.place new cells) new.1 = new.2 := by
  induction cells with
  | nil => simp [Memory.place, Memory.lookup]
  | cons c rest ih =>
    have hc := h c (by simp)
    have hr := ih fun d hd => h d (by simp [hd])
    by_cases hl : new.1 < c.1 <;> simp [Memory.place, Memory.lookup, hl, hc, hr]

theorem Memory.lookup_update (cells : List Host.Cell) (a b : Nat) (v : Byte) :
    Memory.lookup (Memory.update cells a v) b = if b = a then v else Memory.lookup cells b := by
  by_cases hv : v = Config.memInit
  · by_cases hb : b = a
    · subst hb hv; simp [Memory.update, Memory.lookup_filter_self]
    · simp [Memory.update, hv, hb, Memory.lookup_filter_ne]
  · by_cases hb : b = a
    · subst hb
      have := Memory.lookup_place_self (b, v) (cells.filter fun c => c.1 != b) (by simp)
      simpa [Memory.update, hv] using this
    · simp [Memory.update, hv, hb, Memory.lookup_place_ne (a, v) _ (Ne.symm hb), Memory.lookup_filter_ne]

theorem Memory.mem_place {new c : Host.Cell} {cells : List Host.Cell} (h : c ∈ Memory.place new cells) :
    c = new ∨ c ∈ cells := by
  induction cells with
  | nil => simpa [Memory.place] using h
  | cons d rest ih =>
    by_cases hd : new.1 < d.1
    · simpa [Memory.place, hd] using h
    · simp only [Memory.place, hd, ↓reduceIte, List.mem_cons] at h ⊢
      rcases h with h | h
      · exact .inr (.inl h)
      · exact (ih h).imp id .inr

theorem Memory.pairwise_place {new : Host.Cell} {cells : List Host.Cell}
    (hs : cells.Pairwise fun c d => c.1 < d.1) (hn : ∀ c ∈ cells, c.1 ≠ new.1) :
    (Memory.place new cells).Pairwise fun c d => c.1 < d.1 := by
  induction cells with
  | nil => simp [Memory.place]
  | cons d rest ih =>
    obtain ⟨hd, hr⟩ := List.pairwise_cons.1 hs
    by_cases hl : new.1 < d.1
    · simp only [Memory.place, hl, ↓reduceIte]
      exact List.pairwise_cons.2 ⟨fun c hc => by
        rcases List.mem_cons.1 hc with rfl | hc
        · exact hl
        · exact lt_trans hl (hd c hc), hs⟩
    · simp only [Memory.place, hl, ↓reduceIte]
      refine List.pairwise_cons.2 ⟨fun c hc => ?_, ih hr fun c hc => hn c (by simp [hc])⟩
      rcases Memory.mem_place hc with rfl | hc
      · have := hn d (by simp); omega
      · exact hd c hc

/-! ### One byte -/

@[simp] theorem Memory.writeByte_capacity (m : Memory) (a : Nat) (v : Byte) :
    (m.writeByte a v).capacity = m.capacity := by
  unfold Memory.writeByte; split <;> rfl

theorem Memory.readByte_writeByte (m : Memory) {a : Nat} (b : Nat) (v : Byte) (h : a < m.capacity) :
    (m.writeByte a v).readByte b = if b = a then v else m.readByte b := by
  simp [Memory.writeByte, Memory.readByte, h, Memory.lookup_update]

theorem Memory.readByte_writeByte_ne (m : Memory) {a b : Nat} (v : Byte) (h : b ≠ a) :
    (m.writeByte a v).readByte b = m.readByte b := by
  unfold Memory.writeByte; split
  · simp [Memory.readByte, Memory.lookup_update, h]
  · rfl

theorem Memory.wf_writeByte {m : Memory} (h : m.wf) (a : Nat) (v : Byte) : (m.writeByte a v).wf := by
  obtain ⟨hs, hc⟩ := h
  unfold Memory.writeByte; split
  · rename_i ha
    have hs' := hs.filter fun c => c.1 != a
    have hc' : ∀ c ∈ m.cells.filter (fun c => c.1 != a), c.1 < m.capacity ∧ c.2 ≠ Config.memInit :=
      fun c hm => hc c (List.mem_filter.1 hm).1
    by_cases hv : v = Config.memInit
    · simpa [Memory.wf, Memory.update, hv] using ⟨hs', fun x y hm hne => by simpa using hc' (x, y) (by simpa using ⟨hm, hne⟩)⟩
    · refine ⟨by simpa [Memory.update, hv] using Memory.pairwise_place hs' (by simp), fun c hm => ?_⟩
      simp only [Memory.update, hv, ↓reduceIte] at hm
      rcases Memory.mem_place hm with rfl | hm
      · exact ⟨ha, hv⟩
      · exact hc' c hm
  · exact ⟨hs, hc⟩

/-! ### Several bytes -/

@[simp] theorem Memory.writeBytes_capacity (m : Memory) (a : Nat) (bs : List Byte) :
    (m.writeBytes a bs).capacity = m.capacity := by
  induction bs generalizing m a with
  | nil => rfl
  | cons v vs ih => simp [Memory.writeBytes, ih]

theorem Memory.wf_writeBytes {m : Memory} (h : m.wf) (a : Nat) (bs : List Byte) : (m.writeBytes a bs).wf := by
  induction bs generalizing m a with
  | nil => exact h
  | cons v vs ih => exact ih (Memory.wf_writeByte h a v) (a + 1)

theorem Memory.readByte_writeBytes_outside (m : Memory) (a b : Nat) (bs : List Byte)
    (h : b < a ∨ a + bs.length ≤ b) : (m.writeBytes a bs).readByte b = m.readByte b := by
  induction bs generalizing m a with
  | nil => rfl
  | cons v vs ih =>
    simp only [List.length_cons] at h
    simp only [Memory.writeBytes]
    rw [ih _ _ (by omega), Memory.readByte_writeByte_ne _ _ (by omega)]

theorem Memory.readByte_writeBytes_inside (m : Memory) (a k : Nat) (bs : List Byte) (hk : k < bs.length)
    (h : a + bs.length ≤ m.capacity) : (m.writeBytes a bs).readByte (a + k) = bs[k] := by
  induction bs generalizing m a k with
  | nil => simp at hk
  | cons v vs ih =>
    simp only [List.length_cons] at h hk
    simp only [Memory.writeBytes]
    cases k with
    | zero =>
      rw [Memory.readByte_writeBytes_outside _ _ _ _ (by omega), Memory.readByte_writeByte _ _ _ (by omega)]
      simp
    | succ k =>
      have := ih (m.writeByte a v) (a + 1) k (by omega) (by simp; omega)
      rw [show a + (k + 1) = a + 1 + k by omega, this]; simp

/-! ### Words -/

@[simp] theorem bytesOfWord_length (v : Word) : (bytesOfWord v).length = 8 := rfl

theorem wordOfBytes_bytesOfWord (v : Word) :
    wordOfBytes (byteOfWord v 0) (byteOfWord v 1) (byteOfWord v 2) (byteOfWord v 3)
      (byteOfWord v 4) (byteOfWord v 5) (byteOfWord v 6) (byteOfWord v 7) = v := by
  apply BitVec.eq_of_getLsbD_eq
  intro i hi
  have key : ∀ (p : Prop) [Decidable p] (e : Nat), p → e = i → (decide p && v.getLsbD e) = v.getLsbD i := by
    rintro p _ e hp rfl; simp [hp]
  simp only [wordOfBytes, byteOfWord, BitVec.getLsbD_append, BitVec.getLsbD_extractLsb']
  (repeat' split) <;> exact key _ _ (by omega) (by omega)

theorem bytesOfWord_wordOfBytes (b0 b1 b2 b3 b4 b5 b6 b7 : Byte) :
    bytesOfWord (wordOfBytes b0 b1 b2 b3 b4 b5 b6 b7) = [b0, b1, b2, b3, b4, b5, b6, b7] := by
  simp only [bytesOfWord, List.cons.injEq, and_true]
  refine ⟨?_, ?_, ?_, ?_, ?_, ?_, ?_, ?_⟩ <;>
  · apply BitVec.eq_of_getLsbD_eq
    intro i hi
    simp only [wordOfBytes, byteOfWord, BitVec.getLsbD_append, BitVec.getLsbD_extractLsb', hi, decide_true, Bool.true_and]
    (repeat' split) <;> first | omega | (congr 1; omega)

@[simp] theorem Memory.write64_capacity (m : Memory) (a v : Word) : (m.write64 a v).capacity = m.capacity := by
  simp [Memory.write64]

theorem Memory.wf_write64 {m : Memory} (h : m.wf) (a v : Word) : (m.write64 a v).wf :=
  Memory.wf_writeBytes h _ _

theorem Memory.dataInBounds_iff (m : Memory) (a : Word) : m.dataInBounds a = true ↔ a.toNat + 8 ≤ m.capacity :=
  decide_eq_true_iff

theorem Memory.readByte_write64_outside (m : Memory) (a v : Word) (b : Nat) (h : b < a.toNat ∨ a.toNat + 8 ≤ b) :
    (m.write64 a v).readByte b = m.readByte b :=
  Memory.readByte_writeBytes_outside _ _ _ _ (by simpa using h)

theorem Memory.readByte_write64_inside (m : Memory) (a v : Word) (k : Nat) (hk : k < 8)
    (h : m.dataInBounds a = true) : (m.write64 a v).readByte (a.toNat + k) = byteOfWord v k := by
  rw [Memory.dataInBounds_iff] at h
  unfold Memory.write64
  rw [Memory.readByte_writeBytes_inside _ _ _ _ (by simpa using hk) (by simpa using h)]
  rcases (by omega : k = 0 ∨ k = 1 ∨ k = 2 ∨ k = 3 ∨ k = 4 ∨ k = 5 ∨ k = 6 ∨ k = 7) with
    rfl | rfl | rfl | rfl | rfl | rfl | rfl | rfl <;> rfl

/-- A load of the word just stored at the same address answers it (R46). -/
theorem Memory.read64_write64_same (m : Memory) (a v : Word) (h : m.dataInBounds a = true) :
    (m.write64 a v).read64 a = v := by
  have hb := fun k hk => Memory.readByte_write64_inside m a v k hk h
  have h0 := hb 0 (by omega)
  simp only [Nat.add_zero] at h0
  simp only [Memory.read64, h0, hb 1 (by omega), hb 2 (by omega), hb 3 (by omega), hb 4 (by omega), hb 5 (by omega),
    hb 6 (by omega), hb 7 (by omega), wordOfBytes_bytesOfWord]

/-- A load disjoint from a store answers what it answered before (R46). -/
theorem Memory.read64_write64_disjoint (m : Memory) (a b v : Word)
    (h : b.toNat + 8 ≤ a.toNat ∨ a.toNat + 8 ≤ b.toNat) : (m.write64 a v).read64 b = m.read64 b := by
  unfold Memory.read64
  simp only
  rw [Memory.readByte_write64_outside, Memory.readByte_write64_outside, Memory.readByte_write64_outside,
    Memory.readByte_write64_outside, Memory.readByte_write64_outside, Memory.readByte_write64_outside,
    Memory.readByte_write64_outside, Memory.readByte_write64_outside] <;> omega

/-! ### The bytes Fetch sees -/

theorem Memory.bytesUpTo_length (m : Memory) (a n : Nat) :
    (m.bytesUpTo a n).length = min n (m.capacity - a) := by
  induction n generalizing a with
  | zero => simp [Memory.bytesUpTo]
  | succ n ih => by_cases h : a < m.capacity <;> simp [Memory.bytesUpTo, h, ih] <;> omega

theorem Memory.fetchWindow_length (m : Memory) (a : Word) :
    (m.fetchWindow a).length = min 10 (m.capacity - a.toNat) :=
  Memory.bytesUpTo_length _ _ _

theorem Memory.bytesUpTo_getD (m : Memory) (a n k : Nat) (hk : k < n) (h : a + k < m.capacity) :
    (m.bytesUpTo a n).getD k 0 = m.readByte (a + k) := by
  induction n generalizing a k with
  | zero => omega
  | succ n ih =>
    cases k with
    | zero => simp [Memory.bytesUpTo, show a < m.capacity by omega]
    | succ k =>
      have := ih (a + 1) k (by omega) (by omega)
      simp only [Memory.bytesUpTo, show a < m.capacity by omega, ↓reduceIte, List.getD_cons_succ, this]
      congr 1; omega

/-! ### Equal memories are equal lists -/

theorem Memory.lookup_of_lt {cells : List Host.Cell} (hs : cells.Pairwise fun c d => c.1 < d.1) {a : Nat}
    (h : ∀ c ∈ cells, a < c.1) : Memory.lookup cells a = Config.memInit := by
  induction cells with
  | nil => rfl
  | cons c rest ih =>
    have := h c (by simp)
    simp [Memory.lookup, show c.1 ≠ a by omega, ih (List.pairwise_cons.1 hs).2 fun d hd => h d (by simp [hd])]

theorem Memory.unloaded_wf : Memory.unloaded.wf := ⟨.nil, fun _ h => nomatch h⟩

end Sys2Proof.Machine
end

