-- ==== Sys2Proof/Laws/Decode.lean ====
section
/-! SUPPORT. The decoder and the encoder: nibbles, classes, constants, and that `parse` reads back the fields that
`encodeFields` wrote. -/

namespace Sys2Proof

open Sys2Proof.Machine

@[simp] theorem highNibble_byteOfNibbles (hi lo : Nibble) : highNibble (byteOfNibbles hi lo) = hi := by
  revert hi lo; decide +kernel

@[simp] theorem lowNibble_byteOfNibbles (hi lo : Nibble) : lowNibble (byteOfNibbles hi lo) = lo := by
  revert hi lo; decide +kernel

@[simp] theorem byteOfNibbles_nibbles (b : Byte) : byteOfNibbles (highNibble b) (lowNibble b) = b := by
  revert b; decide +kernel

@[simp] theorem IClass.ofCode_code (c : IClass) : IClass.ofCode c.code = some c := by cases c <;> rfl

theorem IClass.code_of_ofCode {n : Nibble} {c : IClass} (h : IClass.ofCode n = some c) : c.code = n := by
  revert n c; decide +kernel

theorem IClass.length_pos (c : IClass) : 0 < c.length := by cases c <;> decide

theorem IClass.length_cases (c : IClass) : c.length = 1 ∨ c.length = 2 ∨ c.length = 9 ∨ c.length = 10 := by
  cases c <;> decide

theorem IClass.length_le (c : IClass) : c.length ≤ 10 := by cases c <;> decide

/-- What `encodeFields` writes, `parse` reads back: the fields that have no bytes hold what Fetch gives them, and no check of
Fetch fails (R55, R56, R73). -/
structure Fields.Encodable (f : Fields) : Prop where
  noRegs : f.icode.hasRegisters = false → f.regA = Config.noRegister ∧ f.regB = Config.noRegister
  noConst : f.icode.hasConstant = false → f.valC = 0
  op : f.icode = .op → f.ifun.toNat ≤ 3
  reservedA : f.icode.reservesA = true → f.regA = Config.noRegister
  reservedB : f.icode.reservesB = true → f.regB = Config.noRegister

theorem encodeFields_length (f : Fields) : (encodeFields f).length = f.icode.length := by
  unfold encodeFields IClass.length
  cases f.icode.hasRegisters <;> cases f.icode.hasConstant <;> simp

/-- The constant written after the opcode byte, or after the register byte, is read back there (R53). -/
theorem constantAt_encode1 (b0 : Byte) (v : Word) (rest : List Byte) :
    constantAt (b0 :: (bytesOfWord v ++ rest)) 1 = v := by
  simpa [constantAt, bytesOfWord] using wordOfBytes_bytesOfWord v

theorem constantAt_encode2 (b0 b1 : Byte) (v : Word) (rest : List Byte) :
    constantAt (b0 :: b1 :: (bytesOfWord v ++ rest)) 2 = v := by
  simpa [constantAt, bytesOfWord] using wordOfBytes_bytesOfWord v

theorem fieldsOf_encodeFields (f : Fields) (h : f.Encodable) (rest : List Byte) :
    fieldsOf f.icode (encodeFields f ++ rest) = f := by
  obtain ⟨c, fn, a, b, v⟩ := f
  have h1 := h.noRegs
  have h2 := h.noConst
  cases hr : c.hasRegisters <;> cases hc : c.hasConstant <;>
    simp_all [fieldsOf, encodeFields, constantAt_encode1, constantAt_encode2]

theorem parse_encodeFields (f : Fields) (h : f.Encodable) (rest : List Byte) :
    parse (encodeFields f ++ rest) = .ok f := by
  have hl : ¬ (encodeFields f ++ rest).length < f.icode.length := by
    rw [List.length_append, encodeFields_length]; omega
  have hf := fieldsOf_encodeFields f h rest
  have hop : ¬ (f.icode = .op ∧ 3 < f.ifun.toNat) := fun ⟨a, b⟩ => by have := h.op a; omega
  have hA : ¬ (f.icode.reservesA = true ∧ f.regA ≠ Config.noRegister) := fun ⟨a, b⟩ => b (h.reservedA a)
  have hB : ¬ (f.icode.reservesB = true ∧ f.regB ≠ Config.noRegister) := fun ⟨a, b⟩ => b (h.reservedB a)
  have he : ∃ tail, encodeFields f ++ rest = byteOfNibbles f.icode.code f.ifun :: tail := ⟨_, rfl⟩
  obtain ⟨tail, he⟩ := he
  rw [he] at hl hf ⊢
  simp only [parse, highNibble_byteOfNibbles, IClass.ofCode_code, lowNibble_byteOfNibbles, hop, hl, hf, hA, hB, ↓reduceIte]

/-- What `parse` accepts: the class of byte 0, enough bytes, the fields read from them, and no check of Fetch failing. -/
theorem parse_ok {bytes : List Byte} {f : Fields} (h : parse bytes = .ok f) :
    IClass.ofCode (highNibble (bytes.getD 0 0)) = some f.icode ∧ f = fieldsOf f.icode bytes ∧
    f.icode.length ≤ bytes.length ∧ (f.icode = .op → f.ifun.toNat ≤ 3) ∧
    (f.icode.reservesA = true → f.regA = Config.noRegister) ∧ (f.icode.reservesB = true → f.regB = Config.noRegister) := by
  cases bytes with
  | nil => simp [parse] at h
  | cons b0 tail =>
    simp only [parse] at h
    cases hc : IClass.ofCode (highNibble b0) with
    | none => simp [hc] at h
    | some c =>
      simp only [hc] at h
      split at h
      · cases h
      · split at h
        · cases h
        · split at h
          · cases h
          · split at h
            · cases h
            · injection h with h
              rename_i h1 h2 h3 h4
              subst h
              refine ⟨by simpa [fieldsOf] using hc, rfl, by simpa [fieldsOf] using h2, fun ho => ?_, fun ha => ?_, fun hb => ?_⟩
              · have : ¬ 3 < (lowNibble b0).toNat := fun hn => h1 ⟨ho, hn⟩
                simpa [fieldsOf] using this
              · exact Decidable.byContradiction fun hn => h3 ⟨ha, hn⟩
              · exact Decidable.byContradiction fun hn => h4 ⟨hb, hn⟩

/-- The fields `parse` answers are encodable (R55, R56). -/
theorem parse_encodable {bytes : List Byte} {f : Fields} (h : parse bytes = .ok f) : f.Encodable := by
  obtain ⟨_, hf, _, ho, ha, hb⟩ := parse_ok h
  refine ⟨fun hr => ?_, fun hc => ?_, ho, ha, hb⟩
  · rw [hf]; simp [fieldsOf, hr]
  · rw [hf]; simp [fieldsOf, hc]

theorem Instr.fields_encodable (i : Instr) : i.fields.Encodable := by
  cases i <;> constructor <;> simp [Instr.fields, Fields.opcode, Fields.registers, Fields.constant, Fields.full,
    IClass.hasRegisters, IClass.hasConstant, IClass.reservesA, IClass.reservesB]

end Sys2Proof
end

