-- ==== Sys2Proof/Laws/Registers.lean ====
section
/-! SUPPORT. The register file and the lock table: reading after writing, and taking and releasing the locks of an
instruction. -/

namespace Sys2Proof.Machine

theorem registerOk_iff (r : Nibble) : registerOk r = true ↔ r.toNat < 8 := decide_eq_true_iff

theorem noRegister_not_ok : registerOk Config.noRegister = false := by decide

theorem stackPointer_ok : registerOk Config.stackPointer = true := by decide

/-! ### Registers -/

theorem RegFile.read_of_lt (x : RegFile) {r : Nibble} (h : r.toNat < 8) : RegFile.read x r = x[r.toNat] := by
  simp [RegFile.read, h]

theorem RegFile.read_write (x : RegFile) {r : Nibble} (q : Nibble) (v : Word) (h : r.toNat < 8) :
    RegFile.read (RegFile.write x r v) q = if q = r then v else RegFile.read x q := by
  unfold RegFile.read RegFile.write
  by_cases hq : q.toNat < 8
  · by_cases e : q = r
    · subst e; simp [h]
    · have : r.toNat ≠ q.toNat := fun he => e (BitVec.eq_of_toNat_eq he.symm)
      simp [h, hq, e, this]
  · have : q ≠ r := fun e => hq (e ▸ h)
    simp [hq, this]

/-- Two register files that read alike are equal. -/
theorem RegFile.ext_read {x y : RegFile} (h : ∀ r : Nibble, r.toNat < 8 → RegFile.read x r = RegFile.read y r) : x = y := by
  apply Vector.ext
  intro i hi
  have := h (BitVec.ofNat 4 i) (by simp; omega)
  have e : (BitVec.ofNat 4 i).toNat = i := by simp; omega
  rw [RegFile.read_of_lt _ (by omega), RegFile.read_of_lt _ (by omega)] at this
  simpa only [e] using this

theorem RegFile.write_read_self (x : RegFile) (r : Nibble) (h : r.toNat < 8) : RegFile.write x r (RegFile.read x r) = x := by
  simp [RegFile.write, RegFile.read, h]

/-! ### Locks -/

theorem LockTable.isLocked_put (t : LockTable) {r : Nibble} (q : Nibble) (b : Bool) (h : r.toNat < 8) :
    (LockTable.put t r b).isLocked q = if q = r then b else t.isLocked q := by
  unfold LockTable.isLocked LockTable.put
  by_cases hq : q.toNat < 8
  · by_cases e : q = r
    · subst e; simp [h]
    · have : r.toNat ≠ q.toNat := fun he => e (BitVec.eq_of_toNat_eq he.symm)
      simp [h, hq, e, this]
  · have : q ≠ r := fun e => hq (e ▸ h)
    simp [hq, this]

/-- What a list of lock writes leaves: every named register at `b`, every other as it was. -/
theorem LockTable.isLocked_putAll (t : LockTable) (b : Bool) (ds : List Nibble) (q : Nibble)
    (h : ∀ r ∈ ds, r.toNat < 8) : (LockTable.putAll t b ds).isLocked q = if q ∈ ds then b else t.isLocked q := by
  induction ds generalizing t with
  | nil => simp [LockTable.putAll]
  | cons r rs ih =>
    rw [LockTable.putAll, ih _ fun x hx => h x (by simp [hx]), LockTable.isLocked_put _ _ _ (h r (by simp))]
    by_cases e : q = r <;> by_cases e' : q ∈ rs <;> simp [e, e']

theorem LockTable.isLocked_of_ge (t : LockTable) {r : Nibble} (h : ¬ r.toNat < 8) : t.isLocked r = false := by
  simp [LockTable.isLocked, h]

/-- Two lock tables that answer alike are equal. -/
theorem LockTable.ext_isLocked {t u : LockTable} (h : ∀ r : Nibble, r.toNat < 8 → t.isLocked r = u.isLocked r) : t = u := by
  apply Vector.ext
  intro i hi
  have e : (BitVec.ofNat 4 i).toNat = i := by simp; omega
  have := h (BitVec.ofNat 4 i) (by omega)
  unfold LockTable.isLocked at this
  rw [dif_pos (by omega), dif_pos (by omega)] at this
  simpa only [e] using this

/-- Taking and then releasing the locks of an instruction whose destinations were free leaves the table as it was. -/
theorem LockTable.putAll_release (t : LockTable) (ds : List Nibble) (h : ∀ r ∈ ds, r.toNat < 8)
    (hf : ∀ r ∈ ds, t.isLocked r = false) : LockTable.putAll (LockTable.putAll t true ds) false ds = t := by
  apply LockTable.ext_isLocked
  intro r _
  rw [LockTable.isLocked_putAll _ _ _ _ h, LockTable.isLocked_putAll _ _ _ _ h]
  by_cases e : r ∈ ds <;> simp [e, hf]

@[simp] theorem LockTable.isLocked_none (r : Nibble) : LockTable.isLocked (Vector.replicate 8 false) r = false := by
  unfold LockTable.isLocked; split <;> simp

end Sys2Proof.Machine
end

