-- ==== Sys2Proof/Laws/State.lean ====
section
/-! SUPPORT. One lemma per field per update of State, true by rfl: after these no proof unfolds a record update. -/

namespace Sys2Proof.Machine

variable (s : State)

/-! ### redirect -/

@[simp] theorem State.redirect_x (a : Word) (t : LockTable) : (s.redirect a t).x = s.x := rfl
@[simp] theorem State.redirect_pc (a : Word) (t : LockTable) : (s.redirect a t).pc = a := rfl
@[simp] theorem State.redirect_ZF (a : Word) (t : LockTable) : (s.redirect a t).ZF = s.ZF := rfl
@[simp] theorem State.redirect_SF (a : Word) (t : LockTable) : (s.redirect a t).SF = s.SF := rfl
@[simp] theorem State.redirect_OF (a : Word) (t : LockTable) : (s.redirect a t).OF = s.OF := rfl
@[simp] theorem State.redirect_halted (a : Word) (t : LockTable) : (s.redirect a t).halted = s.halted := rfl
@[simp] theorem State.redirect_mispred (a : Word) (t : LockTable) : (s.redirect a t).mispred = false := rfl
@[simp] theorem State.redirect_mispredPC (a : Word) (t : LockTable) : (s.redirect a t).mispredPC = s.mispredPC := rfl
@[simp] theorem State.redirect_status (a : Word) (t : LockTable) : (s.redirect a t).status = s.status := rfl
@[simp] theorem State.redirect_lock (a : Word) (t : LockTable) : (s.redirect a t).lock = t := rfl
@[simp] theorem State.redirect_F (a : Word) (t : LockTable) : (s.redirect a t).F = bubble := rfl
@[simp] theorem State.redirect_D (a : Word) (t : LockTable) : (s.redirect a t).D = bubble := rfl
@[simp] theorem State.redirect_E (a : Word) (t : LockTable) : (s.redirect a t).E = s.E := rfl
@[simp] theorem State.redirect_M (a : Word) (t : LockTable) : (s.redirect a t).M = s.M := rfl
@[simp] theorem State.redirect_W (a : Word) (t : LockTable) : (s.redirect a t).W = s.W := rfl
@[simp] theorem State.redirect_mem (a : Word) (t : LockTable) : (s.redirect a t).mem = s.mem := rfl

/-! ### retire -/

@[simp] theorem State.retire_x (regs : RegFile) (t : LockTable) (b : Bool) (w : Latch) : (s.retire regs t b w).x = regs := rfl
@[simp] theorem State.retire_pc (regs : RegFile) (t : LockTable) (b : Bool) (w : Latch) : (s.retire regs t b w).pc = s.pc := rfl
@[simp] theorem State.retire_ZF (regs : RegFile) (t : LockTable) (b : Bool) (w : Latch) : (s.retire regs t b w).ZF = s.ZF := rfl
@[simp] theorem State.retire_SF (regs : RegFile) (t : LockTable) (b : Bool) (w : Latch) : (s.retire regs t b w).SF = s.SF := rfl
@[simp] theorem State.retire_OF (regs : RegFile) (t : LockTable) (b : Bool) (w : Latch) : (s.retire regs t b w).OF = s.OF := rfl
@[simp] theorem State.retire_halted (regs : RegFile) (t : LockTable) (b : Bool) (w : Latch) : (s.retire regs t b w).halted = b := rfl
@[simp] theorem State.retire_mispred (regs : RegFile) (t : LockTable) (b : Bool) (w : Latch) : (s.retire regs t b w).mispred = s.mispred := rfl
@[simp] theorem State.retire_mispredPC (regs : RegFile) (t : LockTable) (b : Bool) (w : Latch) : (s.retire regs t b w).mispredPC = s.mispredPC := rfl
@[simp] theorem State.retire_status (regs : RegFile) (t : LockTable) (b : Bool) (w : Latch) : (s.retire regs t b w).status = s.status := rfl
@[simp] theorem State.retire_lock (regs : RegFile) (t : LockTable) (b : Bool) (w : Latch) : (s.retire regs t b w).lock = t := rfl
@[simp] theorem State.retire_F (regs : RegFile) (t : LockTable) (b : Bool) (w : Latch) : (s.retire regs t b w).F = s.F := rfl
@[simp] theorem State.retire_D (regs : RegFile) (t : LockTable) (b : Bool) (w : Latch) : (s.retire regs t b w).D = s.D := rfl
@[simp] theorem State.retire_E (regs : RegFile) (t : LockTable) (b : Bool) (w : Latch) : (s.retire regs t b w).E = s.E := rfl
@[simp] theorem State.retire_M (regs : RegFile) (t : LockTable) (b : Bool) (w : Latch) : (s.retire regs t b w).M = s.M := rfl
@[simp] theorem State.retire_W (regs : RegFile) (t : LockTable) (b : Bool) (w : Latch) : (s.retire regs t b w).W = w := rfl
@[simp] theorem State.retire_mem (regs : RegFile) (t : LockTable) (b : Bool) (w : Latch) : (s.retire regs t b w).mem = s.mem := rfl

/-! ### latchM -/

@[simp] theorem State.latchM_x (l : Latch) : (s.latchM l).x = s.x := rfl
@[simp] theorem State.latchM_pc (l : Latch) : (s.latchM l).pc = s.pc := rfl
@[simp] theorem State.latchM_ZF (l : Latch) : (s.latchM l).ZF = s.ZF := rfl
@[simp] theorem State.latchM_SF (l : Latch) : (s.latchM l).SF = s.SF := rfl
@[simp] theorem State.latchM_OF (l : Latch) : (s.latchM l).OF = s.OF := rfl
@[simp] theorem State.latchM_halted (l : Latch) : (s.latchM l).halted = s.halted := rfl
@[simp] theorem State.latchM_mispred (l : Latch) : (s.latchM l).mispred = s.mispred := rfl
@[simp] theorem State.latchM_mispredPC (l : Latch) : (s.latchM l).mispredPC = s.mispredPC := rfl
@[simp] theorem State.latchM_status (l : Latch) : (s.latchM l).status = s.status := rfl
@[simp] theorem State.latchM_lock (l : Latch) : (s.latchM l).lock = s.lock := rfl
@[simp] theorem State.latchM_F (l : Latch) : (s.latchM l).F = s.F := rfl
@[simp] theorem State.latchM_D (l : Latch) : (s.latchM l).D = s.D := rfl
@[simp] theorem State.latchM_E (l : Latch) : (s.latchM l).E = s.E := rfl
@[simp] theorem State.latchM_M (l : Latch) : (s.latchM l).M = l := rfl
@[simp] theorem State.latchM_W (l : Latch) : (s.latchM l).W = s.W := rfl
@[simp] theorem State.latchM_mem (l : Latch) : (s.latchM l).mem = s.mem := rfl

/-! ### storeMem -/

@[simp] theorem State.storeMem_x (m : Memory) : (s.storeMem m).x = s.x := rfl
@[simp] theorem State.storeMem_pc (m : Memory) : (s.storeMem m).pc = s.pc := rfl
@[simp] theorem State.storeMem_ZF (m : Memory) : (s.storeMem m).ZF = s.ZF := rfl
@[simp] theorem State.storeMem_SF (m : Memory) : (s.storeMem m).SF = s.SF := rfl
@[simp] theorem State.storeMem_OF (m : Memory) : (s.storeMem m).OF = s.OF := rfl
@[simp] theorem State.storeMem_halted (m : Memory) : (s.storeMem m).halted = s.halted := rfl
@[simp] theorem State.storeMem_mispred (m : Memory) : (s.storeMem m).mispred = s.mispred := rfl
@[simp] theorem State.storeMem_mispredPC (m : Memory) : (s.storeMem m).mispredPC = s.mispredPC := rfl
@[simp] theorem State.storeMem_status (m : Memory) : (s.storeMem m).status = s.status := rfl
@[simp] theorem State.storeMem_lock (m : Memory) : (s.storeMem m).lock = s.lock := rfl
@[simp] theorem State.storeMem_F (m : Memory) : (s.storeMem m).F = s.F := rfl
@[simp] theorem State.storeMem_D (m : Memory) : (s.storeMem m).D = s.D := rfl
@[simp] theorem State.storeMem_E (m : Memory) : (s.storeMem m).E = s.E := rfl
@[simp] theorem State.storeMem_M (m : Memory) : (s.storeMem m).M = s.M := rfl
@[simp] theorem State.storeMem_W (m : Memory) : (s.storeMem m).W = s.W := rfl
@[simp] theorem State.storeMem_mem (m : Memory) : (s.storeMem m).mem = m := rfl

/-! ### setPc -/

@[simp] theorem State.setPc_x (a : Word) : (s.setPc a).x = s.x := rfl
@[simp] theorem State.setPc_pc (a : Word) : (s.setPc a).pc = a := rfl
@[simp] theorem State.setPc_ZF (a : Word) : (s.setPc a).ZF = s.ZF := rfl
@[simp] theorem State.setPc_SF (a : Word) : (s.setPc a).SF = s.SF := rfl
@[simp] theorem State.setPc_OF (a : Word) : (s.setPc a).OF = s.OF := rfl
@[simp] theorem State.setPc_halted (a : Word) : (s.setPc a).halted = s.halted := rfl
@[simp] theorem State.setPc_mispred (a : Word) : (s.setPc a).mispred = s.mispred := rfl
@[simp] theorem State.setPc_mispredPC (a : Word) : (s.setPc a).mispredPC = s.mispredPC := rfl
@[simp] theorem State.setPc_status (a : Word) : (s.setPc a).status = s.status := rfl
@[simp] theorem State.setPc_lock (a : Word) : (s.setPc a).lock = s.lock := rfl
@[simp] theorem State.setPc_F (a : Word) : (s.setPc a).F = s.F := rfl
@[simp] theorem State.setPc_D (a : Word) : (s.setPc a).D = s.D := rfl
@[simp] theorem State.setPc_E (a : Word) : (s.setPc a).E = s.E := rfl
@[simp] theorem State.setPc_M (a : Word) : (s.setPc a).M = s.M := rfl
@[simp] theorem State.setPc_W (a : Word) : (s.setPc a).W = s.W := rfl
@[simp] theorem State.setPc_mem (a : Word) : (s.setPc a).mem = s.mem := rfl

/-! ### latchE -/

@[simp] theorem State.latchE_x (l : Latch) : (s.latchE l).x = s.x := rfl
@[simp] theorem State.latchE_pc (l : Latch) : (s.latchE l).pc = s.pc := rfl
@[simp] theorem State.latchE_ZF (l : Latch) : (s.latchE l).ZF = s.ZF := rfl
@[simp] theorem State.latchE_SF (l : Latch) : (s.latchE l).SF = s.SF := rfl
@[simp] theorem State.latchE_OF (l : Latch) : (s.latchE l).OF = s.OF := rfl
@[simp] theorem State.latchE_halted (l : Latch) : (s.latchE l).halted = s.halted := rfl
@[simp] theorem State.latchE_mispred (l : Latch) : (s.latchE l).mispred = s.mispred := rfl
@[simp] theorem State.latchE_mispredPC (l : Latch) : (s.latchE l).mispredPC = s.mispredPC := rfl
@[simp] theorem State.latchE_status (l : Latch) : (s.latchE l).status = s.status := rfl
@[simp] theorem State.latchE_lock (l : Latch) : (s.latchE l).lock = s.lock := rfl
@[simp] theorem State.latchE_F (l : Latch) : (s.latchE l).F = s.F := rfl
@[simp] theorem State.latchE_D (l : Latch) : (s.latchE l).D = s.D := rfl
@[simp] theorem State.latchE_E (l : Latch) : (s.latchE l).E = l := rfl
@[simp] theorem State.latchE_M (l : Latch) : (s.latchE l).M = s.M := rfl
@[simp] theorem State.latchE_W (l : Latch) : (s.latchE l).W = s.W := rfl
@[simp] theorem State.latchE_mem (l : Latch) : (s.latchE l).mem = s.mem := rfl

/-! ### setFlags -/

@[simp] theorem State.setFlags_x (z n o : Bool) : (s.setFlags z n o).x = s.x := rfl
@[simp] theorem State.setFlags_pc (z n o : Bool) : (s.setFlags z n o).pc = s.pc := rfl
@[simp] theorem State.setFlags_ZF (z n o : Bool) : (s.setFlags z n o).ZF = z := rfl
@[simp] theorem State.setFlags_SF (z n o : Bool) : (s.setFlags z n o).SF = n := rfl
@[simp] theorem State.setFlags_OF (z n o : Bool) : (s.setFlags z n o).OF = o := rfl
@[simp] theorem State.setFlags_halted (z n o : Bool) : (s.setFlags z n o).halted = s.halted := rfl
@[simp] theorem State.setFlags_mispred (z n o : Bool) : (s.setFlags z n o).mispred = s.mispred := rfl
@[simp] theorem State.setFlags_mispredPC (z n o : Bool) : (s.setFlags z n o).mispredPC = s.mispredPC := rfl
@[simp] theorem State.setFlags_status (z n o : Bool) : (s.setFlags z n o).status = s.status := rfl
@[simp] theorem State.setFlags_lock (z n o : Bool) : (s.setFlags z n o).lock = s.lock := rfl
@[simp] theorem State.setFlags_F (z n o : Bool) : (s.setFlags z n o).F = s.F := rfl
@[simp] theorem State.setFlags_D (z n o : Bool) : (s.setFlags z n o).D = s.D := rfl
@[simp] theorem State.setFlags_E (z n o : Bool) : (s.setFlags z n o).E = s.E := rfl
@[simp] theorem State.setFlags_M (z n o : Bool) : (s.setFlags z n o).M = s.M := rfl
@[simp] theorem State.setFlags_W (z n o : Bool) : (s.setFlags z n o).W = s.W := rfl
@[simp] theorem State.setFlags_mem (z n o : Bool) : (s.setFlags z n o).mem = s.mem := rfl

/-! ### signalMispredict -/

@[simp] theorem State.signalMispredict_x (a : Word) : (s.signalMispredict a).x = s.x := rfl
@[simp] theorem State.signalMispredict_pc (a : Word) : (s.signalMispredict a).pc = s.pc := rfl
@[simp] theorem State.signalMispredict_ZF (a : Word) : (s.signalMispredict a).ZF = s.ZF := rfl
@[simp] theorem State.signalMispredict_SF (a : Word) : (s.signalMispredict a).SF = s.SF := rfl
@[simp] theorem State.signalMispredict_OF (a : Word) : (s.signalMispredict a).OF = s.OF := rfl
@[simp] theorem State.signalMispredict_halted (a : Word) : (s.signalMispredict a).halted = s.halted := rfl
@[simp] theorem State.signalMispredict_mispred (a : Word) : (s.signalMispredict a).mispred = true := rfl
@[simp] theorem State.signalMispredict_mispredPC (a : Word) : (s.signalMispredict a).mispredPC = a := rfl
@[simp] theorem State.signalMispredict_status (a : Word) : (s.signalMispredict a).status = s.status := rfl
@[simp] theorem State.signalMispredict_lock (a : Word) : (s.signalMispredict a).lock = s.lock := rfl
@[simp] theorem State.signalMispredict_F (a : Word) : (s.signalMispredict a).F = s.F := rfl
@[simp] theorem State.signalMispredict_D (a : Word) : (s.signalMispredict a).D = s.D := rfl
@[simp] theorem State.signalMispredict_E (a : Word) : (s.signalMispredict a).E = s.E := rfl
@[simp] theorem State.signalMispredict_M (a : Word) : (s.signalMispredict a).M = s.M := rfl
@[simp] theorem State.signalMispredict_W (a : Word) : (s.signalMispredict a).W = s.W := rfl
@[simp] theorem State.signalMispredict_mem (a : Word) : (s.signalMispredict a).mem = s.mem := rfl

/-! ### accept -/

@[simp] theorem State.accept_x (d : Latch) (t : LockTable) : (s.accept d t).x = s.x := rfl
@[simp] theorem State.accept_pc (d : Latch) (t : LockTable) : (s.accept d t).pc = s.pc := rfl
@[simp] theorem State.accept_ZF (d : Latch) (t : LockTable) : (s.accept d t).ZF = s.ZF := rfl
@[simp] theorem State.accept_SF (d : Latch) (t : LockTable) : (s.accept d t).SF = s.SF := rfl
@[simp] theorem State.accept_OF (d : Latch) (t : LockTable) : (s.accept d t).OF = s.OF := rfl
@[simp] theorem State.accept_halted (d : Latch) (t : LockTable) : (s.accept d t).halted = s.halted := rfl
@[simp] theorem State.accept_mispred (d : Latch) (t : LockTable) : (s.accept d t).mispred = s.mispred := rfl
@[simp] theorem State.accept_mispredPC (d : Latch) (t : LockTable) : (s.accept d t).mispredPC = s.mispredPC := rfl
@[simp] theorem State.accept_status (d : Latch) (t : LockTable) : (s.accept d t).status = s.status := rfl
@[simp] theorem State.accept_lock (d : Latch) (t : LockTable) : (s.accept d t).lock = t := rfl
@[simp] theorem State.accept_F (d : Latch) (t : LockTable) : (s.accept d t).F = s.F := rfl
@[simp] theorem State.accept_D (d : Latch) (t : LockTable) : (s.accept d t).D = d := rfl
@[simp] theorem State.accept_E (d : Latch) (t : LockTable) : (s.accept d t).E = s.E := rfl
@[simp] theorem State.accept_M (d : Latch) (t : LockTable) : (s.accept d t).M = s.M := rfl
@[simp] theorem State.accept_W (d : Latch) (t : LockTable) : (s.accept d t).W = s.W := rfl
@[simp] theorem State.accept_mem (d : Latch) (t : LockTable) : (s.accept d t).mem = s.mem := rfl

/-! ### holdBack -/

@[simp] theorem State.holdBack_x (f : Latch) : (s.holdBack f).x = s.x := rfl
@[simp] theorem State.holdBack_pc (f : Latch) : (s.holdBack f).pc = s.pc := rfl
@[simp] theorem State.holdBack_ZF (f : Latch) : (s.holdBack f).ZF = s.ZF := rfl
@[simp] theorem State.holdBack_SF (f : Latch) : (s.holdBack f).SF = s.SF := rfl
@[simp] theorem State.holdBack_OF (f : Latch) : (s.holdBack f).OF = s.OF := rfl
@[simp] theorem State.holdBack_halted (f : Latch) : (s.holdBack f).halted = s.halted := rfl
@[simp] theorem State.holdBack_mispred (f : Latch) : (s.holdBack f).mispred = s.mispred := rfl
@[simp] theorem State.holdBack_mispredPC (f : Latch) : (s.holdBack f).mispredPC = s.mispredPC := rfl
@[simp] theorem State.holdBack_status (f : Latch) : (s.holdBack f).status = s.status := rfl
@[simp] theorem State.holdBack_lock (f : Latch) : (s.holdBack f).lock = s.lock := rfl
@[simp] theorem State.holdBack_F (f : Latch) : (s.holdBack f).F = { f with stalling := true } := rfl
@[simp] theorem State.holdBack_D (f : Latch) : (s.holdBack f).D = bubbleStall := rfl
@[simp] theorem State.holdBack_E (f : Latch) : (s.holdBack f).E = s.E := rfl
@[simp] theorem State.holdBack_M (f : Latch) : (s.holdBack f).M = s.M := rfl
@[simp] theorem State.holdBack_W (f : Latch) : (s.holdBack f).W = s.W := rfl
@[simp] theorem State.holdBack_mem (f : Latch) : (s.holdBack f).mem = s.mem := rfl

/-! ### latchF -/

@[simp] theorem State.latchF_x (l : Latch) : (s.latchF l).x = s.x := rfl
@[simp] theorem State.latchF_pc (l : Latch) : (s.latchF l).pc = s.pc := rfl
@[simp] theorem State.latchF_ZF (l : Latch) : (s.latchF l).ZF = s.ZF := rfl
@[simp] theorem State.latchF_SF (l : Latch) : (s.latchF l).SF = s.SF := rfl
@[simp] theorem State.latchF_OF (l : Latch) : (s.latchF l).OF = s.OF := rfl
@[simp] theorem State.latchF_halted (l : Latch) : (s.latchF l).halted = s.halted := rfl
@[simp] theorem State.latchF_mispred (l : Latch) : (s.latchF l).mispred = s.mispred := rfl
@[simp] theorem State.latchF_mispredPC (l : Latch) : (s.latchF l).mispredPC = s.mispredPC := rfl
@[simp] theorem State.latchF_status (l : Latch) : (s.latchF l).status = s.status := rfl
@[simp] theorem State.latchF_lock (l : Latch) : (s.latchF l).lock = s.lock := rfl
@[simp] theorem State.latchF_F (l : Latch) : (s.latchF l).F = l := rfl
@[simp] theorem State.latchF_D (l : Latch) : (s.latchF l).D = s.D := rfl
@[simp] theorem State.latchF_E (l : Latch) : (s.latchF l).E = s.E := rfl
@[simp] theorem State.latchF_M (l : Latch) : (s.latchF l).M = s.M := rfl
@[simp] theorem State.latchF_W (l : Latch) : (s.latchF l).W = s.W := rfl
@[simp] theorem State.latchF_mem (l : Latch) : (s.latchF l).mem = s.mem := rfl

/-! ### setStatus -/

@[simp] theorem State.setStatus_x (c : Status) : (s.setStatus c).x = s.x := rfl
@[simp] theorem State.setStatus_pc (c : Status) : (s.setStatus c).pc = s.pc := rfl
@[simp] theorem State.setStatus_ZF (c : Status) : (s.setStatus c).ZF = s.ZF := rfl
@[simp] theorem State.setStatus_SF (c : Status) : (s.setStatus c).SF = s.SF := rfl
@[simp] theorem State.setStatus_OF (c : Status) : (s.setStatus c).OF = s.OF := rfl
@[simp] theorem State.setStatus_halted (c : Status) : (s.setStatus c).halted = s.halted := rfl
@[simp] theorem State.setStatus_mispred (c : Status) : (s.setStatus c).mispred = s.mispred := rfl
@[simp] theorem State.setStatus_mispredPC (c : Status) : (s.setStatus c).mispredPC = s.mispredPC := rfl
@[simp] theorem State.setStatus_status (c : Status) : (s.setStatus c).status = c := rfl
@[simp] theorem State.setStatus_lock (c : Status) : (s.setStatus c).lock = s.lock := rfl
@[simp] theorem State.setStatus_F (c : Status) : (s.setStatus c).F = s.F := rfl
@[simp] theorem State.setStatus_D (c : Status) : (s.setStatus c).D = s.D := rfl
@[simp] theorem State.setStatus_E (c : Status) : (s.setStatus c).E = s.E := rfl
@[simp] theorem State.setStatus_M (c : Status) : (s.setStatus c).M = s.M := rfl
@[simp] theorem State.setStatus_W (c : Status) : (s.setStatus c).W = s.W := rfl
@[simp] theorem State.setStatus_mem (c : Status) : (s.setStatus c).mem = s.mem := rfl

/-! ### setRegs -/

@[simp] theorem State.setRegs_x (regs : RegFile) : (s.setRegs regs).x = regs := rfl
@[simp] theorem State.setRegs_pc (regs : RegFile) : (s.setRegs regs).pc = s.pc := rfl
@[simp] theorem State.setRegs_ZF (regs : RegFile) : (s.setRegs regs).ZF = s.ZF := rfl
@[simp] theorem State.setRegs_SF (regs : RegFile) : (s.setRegs regs).SF = s.SF := rfl
@[simp] theorem State.setRegs_OF (regs : RegFile) : (s.setRegs regs).OF = s.OF := rfl
@[simp] theorem State.setRegs_halted (regs : RegFile) : (s.setRegs regs).halted = s.halted := rfl
@[simp] theorem State.setRegs_mispred (regs : RegFile) : (s.setRegs regs).mispred = s.mispred := rfl
@[simp] theorem State.setRegs_mispredPC (regs : RegFile) : (s.setRegs regs).mispredPC = s.mispredPC := rfl
@[simp] theorem State.setRegs_status (regs : RegFile) : (s.setRegs regs).status = s.status := rfl
@[simp] theorem State.setRegs_lock (regs : RegFile) : (s.setRegs regs).lock = s.lock := rfl
@[simp] theorem State.setRegs_F (regs : RegFile) : (s.setRegs regs).F = s.F := rfl
@[simp] theorem State.setRegs_D (regs : RegFile) : (s.setRegs regs).D = s.D := rfl
@[simp] theorem State.setRegs_E (regs : RegFile) : (s.setRegs regs).E = s.E := rfl
@[simp] theorem State.setRegs_M (regs : RegFile) : (s.setRegs regs).M = s.M := rfl
@[simp] theorem State.setRegs_W (regs : RegFile) : (s.setRegs regs).W = s.W := rfl
@[simp] theorem State.setRegs_mem (regs : RegFile) : (s.setRegs regs).mem = s.mem := rfl

/-! ### fetched -/

@[simp] theorem State.fetched_x (l : Latch) : (s.fetched l).x = s.x := rfl
@[simp] theorem State.fetched_pc (l : Latch) : (s.fetched l).pc = predictedPc l := rfl
@[simp] theorem State.fetched_ZF (l : Latch) : (s.fetched l).ZF = s.ZF := rfl
@[simp] theorem State.fetched_SF (l : Latch) : (s.fetched l).SF = s.SF := rfl
@[simp] theorem State.fetched_OF (l : Latch) : (s.fetched l).OF = s.OF := rfl
@[simp] theorem State.fetched_halted (l : Latch) : (s.fetched l).halted = s.halted := rfl
@[simp] theorem State.fetched_mispred (l : Latch) : (s.fetched l).mispred = s.mispred := rfl
@[simp] theorem State.fetched_mispredPC (l : Latch) : (s.fetched l).mispredPC = s.mispredPC := rfl
@[simp] theorem State.fetched_status (l : Latch) : (s.fetched l).status = s.status := rfl
@[simp] theorem State.fetched_lock (l : Latch) : (s.fetched l).lock = s.lock := rfl
@[simp] theorem State.fetched_F (l : Latch) : (s.fetched l).F = l := rfl
@[simp] theorem State.fetched_D (l : Latch) : (s.fetched l).D = s.D := rfl
@[simp] theorem State.fetched_E (l : Latch) : (s.fetched l).E = s.E := rfl
@[simp] theorem State.fetched_M (l : Latch) : (s.fetched l).M = s.M := rfl
@[simp] theorem State.fetched_W (l : Latch) : (s.fetched l).W = s.W := rfl
@[simp] theorem State.fetched_mem (l : Latch) : (s.fetched l).mem = s.mem := rfl

end Sys2Proof.Machine
end

