-- ==== Sys2Proof/Laws/Units.lean ====
section
/-! SUPPORT. One lemma per stage unit: everything it can do when it raises nothing, and what it raises. Callers cite these and
never unfold a unit. -/

namespace Sys2Proof.Machine

variable {s0 n n' : State} {k : FaultKind} {feed : Feed}

/-! ### Writeback -/

theorem destinationFault_false_iff (m : Latch) : destinationFault m = false ↔ ∀ r ∈ m.dests, r.toNat < 8 := by
  simp [destinationFault]

theorem writebackUnit_ok (h : writebackUnit s0 n = .ok n') :
    (∀ r ∈ s0.M.dests, r.toNat < 8) ∧
    n' = n.retire (s0.M.commit s0.x) (LockTable.putAll n.lock false s0.M.dests)
      (n.halted || decide (s0.M.icode = .halt)) { s0.M with stalling := false } := by
  unfold writebackUnit at h
  cases hd : destinationFault s0.M with
  | true => simp [hd] at h
  | false =>
    simp only [hd, Bool.false_eq_true, ↓reduceIte, Except.ok.injEq] at h
    exact ⟨(destinationFault_false_iff _).1 hd, h.symm⟩

theorem writebackUnit_error (h : writebackUnit s0 n = .error k) :
    k = .writeback ∧ ∃ r ∈ s0.M.dests, 8 ≤ r.toNat := by
  unfold writebackUnit at h
  cases hd : destinationFault s0.M with
  | true =>
    simp only [hd, ↓reduceIte, Except.error.injEq] at h
    exact ⟨h.symm, by simpa [destinationFault] using hd⟩
  | false => simp [hd] at h

theorem writebackUnit_of_valid (s0 n : State) (h : ∀ r ∈ s0.M.dests, r.toNat < 8) :
    writebackUnit s0 n = .ok (n.retire (s0.M.commit s0.x) (LockTable.putAll n.lock false s0.M.dests)
      (n.halted || decide (s0.M.icode = .halt)) { s0.M with stalling := false }) := by
  simp [writebackUnit, (destinationFault_false_iff _).2 h]

/-! ### Memory -/

/-- Memory writes `M` (its instruction, perhaps with a loaded `valM`), the memory for a store in bounds, `pc` for a return. -/
theorem memoryUnit_ok (h : memoryUnit s0 n = .ok n') :
    ∃ v a m, n' = { n with M := { s0.E with valM := v, stalling := false }, pc := a, mem := m } ∧
      (m = n.mem ∨ ∃ addr w, s0.E.access = .store addr w ∧ s0.mem.dataInBounds addr = true ∧ m = s0.mem.write64 addr w) ∧
      (a = n.pc ∨ s0.E.icode = .ret) := by
  unfold memoryUnit at h
  cases ha : s0.E.access with
  | none => simp only [ha, Except.ok.injEq] at h; subst h; exact ⟨_, _, _, rfl, .inl rfl, .inl rfl⟩
  | load addr =>
    simp only [ha] at h
    split at h
    · simp only [Except.ok.injEq] at h
      by_cases hr : s0.E.icode = .ret
      · rw [if_pos hr] at h; subst h; exact ⟨_, _, _, rfl, .inl rfl, .inr hr⟩
      · rw [if_neg hr] at h; subst h; exact ⟨_, _, _, rfl, .inl rfl, .inl rfl⟩
    · cases h
  | store addr w =>
    simp only [ha] at h
    split at h
    · rename_i hb
      simp only [Except.ok.injEq] at h; subst h
      exact ⟨_, _, _, rfl, .inr ⟨_, _, rfl, hb, rfl⟩, .inl rfl⟩
    · cases h

theorem memoryUnit_error (h : memoryUnit s0 n = .error k) :
    k = .memoryBounds ∧ ∃ addr, s0.mem.dataInBounds addr = false ∧
      (s0.E.access = .load addr ∨ ∃ w, s0.E.access = .store addr w) := by
  unfold memoryUnit at h
  cases ha : s0.E.access with
  | none => simp [ha] at h
  | load addr =>
    simp only [ha] at h
    split at h
    · cases h
    · injection h with h; exact ⟨h.symm, addr, by simpa using ‹¬ s0.mem.dataInBounds addr = true›, .inl rfl⟩
  | store addr w =>
    simp only [ha] at h
    split at h
    · cases h
    · injection h with h; exact ⟨h.symm, addr, by simpa using ‹¬ s0.mem.dataInBounds addr = true›, .inr ⟨w, rfl⟩⟩

/-! ### Execute -/

/-- Execute writes `E` (its instruction with `valE` and `cnd`), the flags only for class 0x6, and `mispred` only for a jump that
is not taken. -/
theorem executeUnit_ok (h : executeUnit s0 n = .ok n') :
    ∃ e c z g o b a, n' = { n with
        E := { s0.D with valE := e, cnd := c, stalling := false }
        ZF := z, SF := g, OF := o, mispred := b, mispredPC := a } ∧
      ((z = n.ZF ∧ g = n.SF ∧ o = n.OF) ∨
        (s0.D.icode = .op ∧ aluResult s0.D.ifun s0.D.valA s0.D.valB = some e ∧ z = zeroFlag e ∧ g = signFlag e ∧
          o = overflowFlag s0.D.ifun s0.D.valA s0.D.valB e)) ∧
      ((b = n.mispred ∧ a = n.mispredPC) ∨
        (s0.D.icode = .jump ∧ condition s0.D.ifun s0.ZF s0.SF s0.OF = some false ∧ c = false ∧ b = true ∧ a = s0.D.valP)) := by
  unfold executeUnit at h
  simp only at h
  split at h <;> first
    | (simp only [Except.ok.injEq] at h; subst h
       exact ⟨_, _, _, _, _, _, _, rfl, .inl ⟨rfl, rfl, rfl⟩, .inl ⟨rfl, rfl⟩⟩)
    | (split at h
       · cases h
       · simp only [Except.ok.injEq] at h; subst h
         exact ⟨_, _, _, _, _, _, _, rfl, .inl ⟨rfl, rfl, rfl⟩, .inl ⟨rfl, rfl⟩⟩)
    | skip
  · rename_i hc
    split at h
    · simp only [Except.ok.injEq] at h; subst h
      exact ⟨_, _, _, _, _, _, _, rfl, .inl ⟨rfl, rfl, rfl⟩, .inl ⟨rfl, rfl⟩⟩
    · rename_i e he
      simp only [Except.ok.injEq] at h; subst h
      exact ⟨_, _, _, _, _, _, _, rfl, .inr ⟨hc, he, rfl, rfl, rfl⟩, .inl ⟨rfl, rfl⟩⟩
  · rename_i hc
    split at h
    · cases h
    · rename_i c hcond
      cases c <;> simp only [Except.ok.injEq, Bool.false_eq_true, ↓reduceIte] at h <;> subst h
      · exact ⟨_, _, _, _, _, _, _, rfl, .inl ⟨rfl, rfl, rfl⟩, .inr ⟨hc, hcond, rfl, rfl, rfl⟩⟩
      · exact ⟨_, _, _, _, _, _, _, rfl, .inl ⟨rfl, rfl, rfl⟩, .inl ⟨rfl, rfl⟩⟩

theorem executeUnit_error (h : executeUnit s0 n = .error k) :
    k = .invalidCondition ∧ (s0.D.icode = .cmov ∨ s0.D.icode = .jump) ∧ condition s0.D.ifun s0.ZF s0.SF s0.OF = none := by
  unfold executeUnit at h
  simp only at h
  split at h
  all_goals first
    | (cases h)
    | (rename_i hc
       split at h
       · rename_i hn
         injection h with h
         exact ⟨h.symm, by simp [hc], hn⟩
       · cases h)
    | (split at h <;> cases h)

/-! ### Decode -/

theorem decodeUnit_ok (h : decodeUnit s0 n = .ok n') :
    s0.F.registerFault = false ∧
    ((s0.stall = true ∧ n' = n.holdBack s0.F) ∨
     (s0.stall = false ∧ n' = n.accept
        { s0.F with
          valA := operandValue s0.x s0.F.selA s0.F.valA, valB := operandValue s0.x s0.F.selB s0.F.valB, stalling := false }
        (LockTable.putAll n.lock true s0.F.dests))) := by
  unfold decodeUnit at h
  cases hf : s0.F.registerFault <;> cases hs : s0.stall <;> simp_all

theorem decodeUnit_error (h : decodeUnit s0 n = .error k) : k = .invalidRegister ∧ s0.F.registerFault = true := by
  unfold decodeUnit at h
  cases hf : s0.F.registerFault <;> cases hs : s0.stall <;> simp_all

/-- Where Decode raises nothing, every destination is one of the two operands it has checked (R79, R80, R83). -/
theorem dests_of_no_registerFault {l : Latch} (h : l.registerFault = false) :
    ∀ r ∈ l.dests, r.toNat < 8 ∧ (r = l.selA ∨ r = l.selB) := by
  have aux : ∀ r : Nibble, (r == Config.noRegister) = false → badIndex r = false → r.toNat < 8 := by decide +kernel
  have hsp : Config.stackPointer.toNat < 8 := by decide
  simp only [Latch.registerFault, Latch.missingRegister, Bool.or_eq_false_iff, Bool.and_eq_false_iff] at h
  obtain ⟨⟨⟨hA, hB⟩, hbA⟩, hbB⟩ := h
  intro r hr
  unfold Latch.dests at hr
  cases hc : l.icode <;> simp only [hc, List.mem_cons, List.not_mem_nil, or_false] at hr <;>
    simp_all only [IClass.requiresA, IClass.requiresB, Latch.selA, Latch.selB, Bool.true_eq_false, false_or, true_or]
  case pop => rcases hr with rfl | rfl <;> simp_all
  all_goals simp_all

/-! ### Fetch -/

theorem fetchUnit_ok (h : fetchUnit feed s0 n = .ok n') :
    (s0.stall = true ∧ n' = n) ∨
    (s0.stall = false ∧ s0.hold = true ∧ n' = n.latchF bubbleStall) ∨
    (s0.stall = false ∧ s0.hold = false ∧
      ((feed = .idle ∧ n' = n.latchF bubble) ∨
       (∃ f, feed = .present f ∧ s0.pc.toNat + f.icode.length ≤ s0.mem.capacity ∧ n' = n.fetched (fetchedLatch f s0.pc)) ∨
       (∃ f, feed = .memory ∧ parse (s0.mem.fetchWindow s0.pc) = .ok f ∧ n' = n.fetched (fetchedLatch f s0.pc)))) := by
  unfold fetchUnit at h
  cases hs : s0.stall with
  | true => simp only [hs, ↓reduceIte, Except.ok.injEq] at h; exact .inl ⟨rfl, h.symm⟩
  | false =>
    simp only [hs, Bool.false_eq_true, ↓reduceIte] at h
    cases hh : s0.hold with
    | true => simp only [hh, ↓reduceIte, Except.ok.injEq] at h; exact .inr (.inl ⟨rfl, rfl, h.symm⟩)
    | false =>
      simp only [hh, Bool.false_eq_true, ↓reduceIte] at h
      refine .inr (.inr ⟨rfl, rfl, ?_⟩)
      cases feed with
      | idle => simp only [Except.ok.injEq] at h; exact .inl ⟨rfl, h.symm⟩
      | present f =>
        simp only at h
        split at h
        · rename_i hb
          simp only [Except.ok.injEq] at h; exact .inr (.inl ⟨f, rfl, hb, h.symm⟩)
        · cases h
      | memory =>
        simp only at h
        split at h
        · cases h
        · rename_i f hp
          simp only [Except.ok.injEq] at h; exact .inr (.inr ⟨f, rfl, hp, h.symm⟩)

theorem fetchUnit_error (h : fetchUnit feed s0 n = .error k) :
    s0.stall = false ∧ s0.hold = false ∧
    ((∃ r, feed = .memory ∧ parse (s0.mem.fetchWindow s0.pc) = .error r ∧ k = FaultKind.ofReject r) ∨
     (∃ f, feed = .present f ∧ s0.mem.capacity < s0.pc.toNat + f.icode.length ∧ k = .memoryBounds)) := by
  unfold fetchUnit at h
  cases hs : s0.stall <;> cases hh : s0.hold <;> simp only [hs, hh, Bool.false_eq_true, ↓reduceIte] at h
  case false.false =>
    refine ⟨rfl, rfl, ?_⟩
    cases feed with
    | idle => cases h
    | present f =>
      simp only at h
      split at h
      · cases h
      · injection h with h; exact .inr ⟨f, rfl, by omega, h.symm⟩
    | memory =>
      simp only at h
      split at h
      · rename_i r hp; injection h with h; exact .inl ⟨r, rfl, hp, h.symm⟩
      · cases h
  all_goals cases h

end Sys2Proof.Machine
end

