-- ==== Sys2Proof/Laws/Cycle.lean ====
section
/-! SUPPORT. What one cycle can do, said once: the chain of the five units, where it ends, and the status that results. -/

namespace Sys2Proof.Machine

variable {s s0 n1 n2 n3 n4 n5 : State} {feed : Feed} {k : FaultKind}

/-! ### The squash phase -/

theorem State.squash_of_not_mispred (h : s.mispred = false) : s.squash = s := by simp [State.squash, h]

theorem State.squash_of_mispred (h : s.mispred = true) :
    s.squash = s.redirect s.mispredPC (LockTable.putAll s.lock false s.D.dests) := by simp [State.squash, h]

@[simp] theorem State.squash_mispred (s : State) : s.squash.mispred = false := by
  unfold State.squash; split
  · rfl
  · simpa using ‹¬ s.mispred = true›

@[simp] theorem State.squash_x (s : State) : s.squash.x = s.x := by unfold State.squash; split <;> rfl
@[simp] theorem State.squash_ZF (s : State) : s.squash.ZF = s.ZF := by unfold State.squash; split <;> rfl
@[simp] theorem State.squash_SF (s : State) : s.squash.SF = s.SF := by unfold State.squash; split <;> rfl
@[simp] theorem State.squash_OF (s : State) : s.squash.OF = s.OF := by unfold State.squash; split <;> rfl
@[simp] theorem State.squash_halted (s : State) : s.squash.halted = s.halted := by unfold State.squash; split <;> rfl
@[simp] theorem State.squash_mispredPC (s : State) : s.squash.mispredPC = s.mispredPC := by unfold State.squash; split <;> rfl
@[simp] theorem State.squash_status (s : State) : s.squash.status = s.status := by unfold State.squash; split <;> rfl
@[simp] theorem State.squash_E (s : State) : s.squash.E = s.E := by unfold State.squash; split <;> rfl
@[simp] theorem State.squash_M (s : State) : s.squash.M = s.M := by unfold State.squash; split <;> rfl
@[simp] theorem State.squash_W (s : State) : s.squash.W = s.W := by unfold State.squash; split <;> rfl
@[simp] theorem State.squash_mem (s : State) : s.squash.mem = s.mem := by unfold State.squash; split <;> rfl

/-! ### Taking a fault -/

theorem State.takeFault_of_halted (n : State) (r : Option FaultKind) (h : n.halted = true) :
    n.takeFault r = n.setStatus .Halted := by simp [State.takeFault, h]

theorem State.takeFault_some (n : State) (k : FaultKind) (h : n.halted = false) :
    n.takeFault (some k) = n.setStatus k.code := by simp [State.takeFault, h]

theorem State.takeFault_none (n : State) (h : n.halted = false) :
    n.takeFault none = n.setStatus .Continue := by simp [State.takeFault, h]

theorem FaultKind.code_ne_continue (k : FaultKind) : k.code ≠ .Continue := by cases k <;> decide

theorem FaultKind.code_ne_halted (k : FaultKind) : k.code ≠ .Halted := by cases k <;> decide

/-- Taking a fault writes `status` and nothing else. -/
theorem State.takeFault_eq (n : State) (r : Option FaultKind) : n.takeFault r = n.setStatus (n.takeFault r).status := by
  unfold State.takeFault; split
  · rfl
  · split <;> rfl

theorem State.takeFault_status_continue {n : State} {r : Option FaultKind} (h : (n.takeFault r).status = .Continue) :
    n.halted = false ∧ r = none := by
  unfold State.takeFault at h
  split at h
  · simp at h
  · split at h
    · exact absurd h (by simpa using FaultKind.code_ne_continue _)
    · exact ⟨by simpa using ‹¬ n.halted = true›, rfl⟩

/-! ### The chain of units -/

/-- Where the chain of units ends: at the first unit that raises a fault, or after all five (R68, R97). -/
theorem runUnits_cases (feed : Feed) (s0 : State) :
    (∃ k, writebackUnit s0 s0 = .error k ∧ runUnits feed s0 = ⟨s0, some k⟩) ∨
    ∃ n1, writebackUnit s0 s0 = .ok n1 ∧
    ((∃ k, memoryUnit s0 n1 = .error k ∧ runUnits feed s0 = ⟨n1, some k⟩) ∨
    ∃ n2, memoryUnit s0 n1 = .ok n2 ∧
    ((∃ k, executeUnit s0 n2 = .error k ∧ runUnits feed s0 = ⟨n2, some k⟩) ∨
    ∃ n3, executeUnit s0 n2 = .ok n3 ∧
    ((∃ k, decodeUnit s0 n3 = .error k ∧ runUnits feed s0 = ⟨n3, some k⟩) ∨
    ∃ n4, decodeUnit s0 n3 = .ok n4 ∧
    ((∃ k, fetchUnit feed s0 n4 = .error k ∧ runUnits feed s0 = ⟨n4, some k⟩) ∨
    ∃ n5, fetchUnit feed s0 n4 = .ok n5 ∧ runUnits feed s0 = ⟨n5, none⟩)))) := by
  unfold runUnits Progress.run
  cases h1 : writebackUnit s0 s0 with
  | error k => exact .inl ⟨k, rfl, rfl⟩
  | ok n1 =>
    refine .inr ⟨n1, rfl, ?_⟩
    cases h2 : memoryUnit s0 n1 with
    | error k => exact .inl ⟨k, rfl, rfl⟩
    | ok n2 =>
      refine .inr ⟨n2, rfl, ?_⟩
      cases h3 : executeUnit s0 n2 with
      | error k => exact .inl ⟨k, rfl, rfl⟩
      | ok n3 =>
        refine .inr ⟨n3, rfl, ?_⟩
        cases h4 : decodeUnit s0 n3 with
        | error k => exact .inl ⟨k, rfl, rfl⟩
        | ok n4 =>
          refine .inr ⟨n4, rfl, ?_⟩
          cases h5 : fetchUnit feed s0 n4 with
          | error k => exact .inl ⟨k, rfl, rfl⟩
          | ok n5 => exact .inr ⟨n5, rfl, rfl⟩

theorem runUnits_of_ok (h1 : writebackUnit s0 s0 = .ok n1) (h2 : memoryUnit s0 n1 = .ok n2)
    (h3 : executeUnit s0 n2 = .ok n3) (h4 : decodeUnit s0 n3 = .ok n4) (h5 : fetchUnit feed s0 n4 = .ok n5) :
    runUnits feed s0 = ⟨n5, none⟩ := by
  simp [runUnits, Progress.run, h1, h2, h3, h4, h5]

theorem runUnits_of_fetch_error (h1 : writebackUnit s0 s0 = .ok n1) (h2 : memoryUnit s0 n1 = .ok n2)
    (h3 : executeUnit s0 n2 = .ok n3) (h4 : decodeUnit s0 n3 = .ok n4) (h5 : fetchUnit feed s0 n4 = .error k) :
    runUnits feed s0 = ⟨n4, some k⟩ := by
  simp [runUnits, Progress.run, h1, h2, h3, h4, h5]

theorem runUnits_of_decode_error (h1 : writebackUnit s0 s0 = .ok n1) (h2 : memoryUnit s0 n1 = .ok n2)
    (h3 : executeUnit s0 n2 = .ok n3) (h4 : decodeUnit s0 n3 = .error k) :
    runUnits feed s0 = ⟨n3, some k⟩ := by
  simp [runUnits, Progress.run, h1, h2, h3, h4]

theorem runUnits_of_execute_error (h1 : writebackUnit s0 s0 = .ok n1) (h2 : memoryUnit s0 n1 = .ok n2)
    (h3 : executeUnit s0 n2 = .error k) : runUnits feed s0 = ⟨n2, some k⟩ := by
  simp [runUnits, Progress.run, h1, h2, h3]

theorem runUnits_of_memory_error (h1 : writebackUnit s0 s0 = .ok n1) (h2 : memoryUnit s0 n1 = .error k) :
    runUnits feed s0 = ⟨n1, some k⟩ := by
  simp [runUnits, Progress.run, h1, h2]

theorem runUnits_of_writeback_error (h1 : writebackUnit s0 s0 = .error k) : runUnits feed s0 = ⟨s0, some k⟩ := by
  simp [runUnits, Progress.run, h1]

/-! ### The cycle -/

theorem cycle_of_continue (feed : Feed) (h : s.status = .Continue) :
    cycle feed s = (runUnits feed s.squash).next.takeFault (runUnits feed s.squash).raised := by
  simp [cycle, h]

theorem cycle_of_terminal (feed : Feed) (h : s.status ≠ .Continue) : cycle feed s = s := by
  unfold cycle; split
  · exact absurd ‹_› h
  all_goals rfl

/-- A cycle that ends with the status `Continue` is one in which all five units wrote and none raised a fault. -/
theorem cycle_clean (hs : s.status = .Continue) (ht : (cycle feed s).status = .Continue) :
    ∃ n1 n2 n3 n4 n5, writebackUnit s.squash s.squash = .ok n1 ∧ memoryUnit s.squash n1 = .ok n2 ∧
      executeUnit s.squash n2 = .ok n3 ∧ decodeUnit s.squash n3 = .ok n4 ∧ fetchUnit feed s.squash n4 = .ok n5 ∧
      n5.halted = false ∧ cycle feed s = n5.setStatus .Continue := by
  rw [cycle_of_continue feed hs] at ht ⊢
  obtain ⟨hh, hr⟩ := State.takeFault_status_continue ht
  rcases runUnits_cases feed s.squash with ⟨k, -, h⟩ | ⟨n1, h1, ⟨k, -, h⟩ | ⟨n2, h2, ⟨k, -, h⟩ | ⟨n3, h3,
    ⟨k, -, h⟩ | ⟨n4, h4, ⟨k, -, h⟩ | ⟨n5, h5, h⟩⟩⟩⟩⟩
  iterate 5 (rw [h] at hr; simp at hr)
  rw [h] at hh
  exact ⟨n1, n2, n3, n4, n5, h1, h2, h3, h4, h5, hh, by rw [h]; exact State.takeFault_none _ hh⟩

end Sys2Proof.Machine
end

