-- ==== Sys2Proof/Laws/Passage.lean ====
section
/-! SUPPORT. The passage of one instruction through an empty pipeline, cycle by cycle. -/

namespace Sys2Proof.Machine

variable {s : State}

@[simp] theorem bubble_selA : bubble.selA = Config.noRegister := rfl
@[simp] theorem bubble_selB : bubble.selB = Config.noRegister := rfl
@[simp] theorem bubble_dests : bubble.dests = [] := rfl
@[simp] theorem bubble_registerFault : bubble.registerFault = false := by decide
@[simp] theorem bubble_access : bubble.access = .none := rfl
@[simp] theorem bubble_icode : bubble.icode = .nop := rfl

@[simp] theorem bubbleStall_selA : bubbleStall.selA = Config.noRegister := rfl
@[simp] theorem bubbleStall_selB : bubbleStall.selB = Config.noRegister := rfl
@[simp] theorem bubbleStall_dests : bubbleStall.dests = [] := rfl
@[simp] theorem bubbleStall_registerFault : bubbleStall.registerFault = false := by decide
@[simp] theorem bubbleStall_icode : bubbleStall.icode = .nop := rfl

/-! ### A bubble in a stage -/

theorem writebackUnit_bubble {s0 : State} (n : State) (h : s0.M = bubble) :
    writebackUnit s0 n = .ok { n with x := s0.x, W := bubble } := by
  rw [writebackUnit_of_valid _ _ (by simp [h])]
  obtain ⟨x, pc, ZF, SF, OF, halted, mispred, mispredPC, status, lock, F, D, E, M, W, mem⟩ := n
  cases halted <;> simp [h] <;> rfl

theorem memoryUnit_bubble {s0 : State} (n : State) (h : s0.E = bubble) :
    memoryUnit s0 n = .ok { n with M := bubble } := by
  simp [memoryUnit, h]; rfl

theorem executeUnit_bubble {s0 : State} (n : State) (h : s0.D = bubble) :
    executeUnit s0 n = .ok { n with E := bubble } := by
  simp [executeUnit, h]; rfl

theorem stall_of_empty {s0 : State} (h : s0.F = bubble ∨ s0.F = bubbleStall) : s0.stall = false := by
  rcases h with h | h <;> simp [State.stall, h, operandLocked]

theorem decodeUnit_empty {s0 : State} (n : State) (h : s0.F = bubble ∨ s0.F = bubbleStall) :
    decodeUnit s0 n = .ok { n with D := bubble } := by
  have hs := stall_of_empty h
  rcases h with h | h <;> simp [decodeUnit, h, hs] <;> rfl

theorem fetchUnit_idle {s0 : State} (n : State) (h : s0.stall = false) :
    fetchUnit .idle s0 n = .ok { n with F := if s0.hold then bubbleStall else bubble } := by
  cases hh : s0.hold <;> simp [fetchUnit, h, hh] <;> rfl

/-! ### The cycles of an instruction alone in the pipeline -/

/-- The run goes on and no misprediction is pending. -/
abbrev State.Going (s : State) : Prop := s.status = .Continue ∧ s.halted = false ∧ s.mispred = false

theorem cycle_of_units {feed : Feed} {n1 n2 n3 n4 n5 : State} (hg : s.Going)
    (h1 : writebackUnit s s = .ok n1) (h2 : memoryUnit s n1 = .ok n2) (h3 : executeUnit s n2 = .ok n3)
    (h4 : decodeUnit s n3 = .ok n4) (h5 : fetchUnit feed s n4 = .ok n5) :
    cycle feed s = n5.takeFault none := by
  rw [cycle_of_continue feed hg.1, State.squash_of_not_mispred hg.2.2, runUnits_of_ok h1 h2 h3 h4 h5]

/-- Fetch: the instruction is presented to an empty pipeline. -/
theorem cycle_present (hq : s.Quiescent) (f : Fields) (hb : s.pc.toNat + f.icode.length ≤ s.mem.capacity) :
    cycle (.present f) s =
      { s with F := fetchedLatch f s.pc, pc := predictedPc (fetchedLatch f s.pc), W := bubble } := by
  obtain ⟨x, pc, ZF, SF, OF, halted, mispred, mispredPC, status, lock, F, D, E, M, W, mem⟩ := s
  obtain ⟨h1, h2, h3, h4, h5, h6, h7, h8⟩ := hq
  simp only at h1 h2 h3 h4 h5 h6 h7 h8 hb
  subst h1 h2 h3 h4 h5 h6 h7 h8
  simp [cycle, State.squash, runUnits, Progress.run, writebackUnit, memoryUnit, executeUnit, decodeUnit, fetchUnit, hb,
    State.stall, State.hold, destinationFault, operandLocked, State.takeFault]
  rfl

/-- Decode: the instruction is alone in `F`, its registers are good and none of them is locked. -/
theorem cycle_decode (hg : s.Going) (hD : s.D = bubble) (hE : s.E = bubble) (hM : s.M = bubble)
    (hf : s.F.registerFault = false) (hs : s.stall = false) :
    cycle .idle s =
      { s with
        F := if s.F.icode = .ret then bubbleStall else bubble
        D := { s.F with
          valA := operandValue s.x s.F.selA s.F.valA, valB := operandValue s.x s.F.selB s.F.valB, stalling := false }
        lock := LockTable.putAll s.lock true s.F.dests
        W := bubble } := by
  have h4 : ∀ n, decodeUnit s n = .ok (n.accept _ _) := fun n => by simp only [decodeUnit, hf, hs]; rfl
  have hh : s.hold = decide (s.F.icode = .ret) := by simp [State.hold, hD, hE]
  rw [cycle_of_units hg (writebackUnit_bubble _ hM) (memoryUnit_bubble _ hE) (executeUnit_bubble _ hD) (h4 _)
    (fetchUnit_idle _ hs), hh]
  obtain ⟨x, pc, ZF, SF, OF, halted, mispred, mispredPC, status, lock, F, D, E, M, W, mem⟩ := s
  obtain ⟨h1, h2, h3⟩ := hg
  simp only at h1 h2 h3 hD hE hM
  subst h1 h2 h3 hD hE hM
  by_cases hr : F.icode = .ret <;> simp [hr, State.takeFault, State.accept, State.setStatus]

/-- Decode: the instruction is alone in `F` and one of its registers is bad. -/
theorem cycle_decode_fault (hg : s.Going) (hD : s.D = bubble) (hE : s.E = bubble) (hM : s.M = bubble)
    (hf : s.F.registerFault = true) :
    cycle .idle s = { s with W := bubble, status := .FaultInvalidRegister } := by
  have h4 : ∀ n, decodeUnit s n = .error .invalidRegister := fun n => by simp [decodeUnit, hf]
  rw [cycle_of_continue _ hg.1, State.squash_of_not_mispred hg.2.2, runUnits_of_decode_error (writebackUnit_bubble _ hM)
    (memoryUnit_bubble _ hE) (executeUnit_bubble _ hD) (h4 _)]
  obtain ⟨x, pc, ZF, SF, OF, halted, mispred, mispredPC, status, lock, F, D, E, M, W, mem⟩ := s
  obtain ⟨h1, h2, h3⟩ := hg
  simp only at h1 h2 h3 hD hE hM
  subst h1 h2 h3 hD hE hM
  simp [State.takeFault, State.setStatus, FaultKind.code]

/-- Execute: the instruction is alone in `D`, and Execute raises nothing. -/
theorem cycle_execute {n : State} (hg : s.Going) (hF : s.F = bubble ∨ s.F = bubbleStall) (hE : s.E = bubble)
    (hM : s.M = bubble) (hx : executeUnit s { s with M := bubble, W := bubble } = .ok n) :
    cycle .idle s =
      { n with F := if s.D.icode = .ret then bubbleStall else bubble, D := bubble } := by
  have hs := stall_of_empty hF
  have hh : s.hold = decide (s.D.icode = .ret) := by rcases hF with hF | hF <;> simp [State.hold, hF, hE]
  have h2 : memoryUnit s { s with x := s.x, W := bubble } = .ok { s with M := bubble, W := bubble } := memoryUnit_bubble _ hE
  rw [cycle_of_units hg (writebackUnit_bubble _ hM) h2 hx (decodeUnit_empty _ hF) (fetchUnit_idle _ hs), hh]
  obtain ⟨e, c, z, g, o, b, a, rfl, -, -⟩ := executeUnit_ok hx
  by_cases hr : s.D.icode = .ret <;> simp [hr, State.takeFault, State.setStatus, hg.1, hg.2.1]

/-- Memory: the instruction is alone in `E`, and Memory raises nothing. -/
theorem cycle_memory {n : State} (hg : s.Going) (hF : s.F = bubble ∨ s.F = bubbleStall) (hD : s.D = bubble)
    (hM : s.M = bubble) (hx : memoryUnit s { s with W := bubble } = .ok n) :
    cycle .idle s =
      { n with F := if s.E.icode = .ret then bubbleStall else bubble, D := bubble, E := bubble } := by
  have hs := stall_of_empty hF
  have hh : s.hold = decide (s.E.icode = .ret) := by rcases hF with hF | hF <;> simp [State.hold, hF, hD]
  rw [cycle_of_units hg (writebackUnit_bubble _ hM) hx (executeUnit_bubble _ hD) (decodeUnit_empty _ hF)
    (fetchUnit_idle _ hs), hh]
  obtain ⟨v, a, m, rfl, -, -⟩ := memoryUnit_ok hx
  by_cases hr : s.E.icode = .ret <;> simp [hr, State.takeFault, State.setStatus, hg.1, hg.2.1]

/-- Writeback: the instruction is alone in `M`, and its destinations are registers. -/
theorem cycle_writeback (hg : s.Going) (hF : s.F = bubble ∨ s.F = bubbleStall) (hD : s.D = bubble)
    (hE : s.E = bubble) (hv : ∀ r ∈ s.M.dests, r.toNat < 8) :
    cycle .idle s =
      { s with
        x := s.M.commit s.x
        lock := LockTable.putAll s.lock false s.M.dests
        halted := decide (s.M.icode = .halt)
        status := if s.M.icode = .halt then .Halted else .Continue
        F := bubble, D := bubble, E := bubble, M := bubble
        W := { s.M with stalling := false } } := by
  have hs := stall_of_empty hF
  have hh : s.hold = false := by rcases hF with hF | hF <;> simp [State.hold, hF, hD, hE]
  rw [cycle_of_units hg (writebackUnit_of_valid _ _ hv) (memoryUnit_bubble _ hE) (executeUnit_bubble _ hD)
    (decodeUnit_empty _ hF) (fetchUnit_idle _ hs), hh]
  obtain ⟨x, pc, ZF, SF, OF, halted, mispred, mispredPC, status, lock, F, D, E, M, W, mem⟩ := s
  obtain ⟨h1, h2, h3⟩ := hg
  simp only at h1 h2 h3 hD hE
  subst h1 h2 h3 hD hE
  by_cases hr : M.icode = .halt <;> simp [hr, State.takeFault, State.setStatus, State.retire]

/-! ### From cycles to the passage -/

/-- Every meaning is the passage of the instruction's fields. -/
theorem exec_eq (i : Instr) (s : State) : exec i s = .next (passThrough i.fields s) := by cases i <;> rfl

theorem drain_of_terminal (n : Nat) (h : s.status ≠ .Continue) : drain n s = s := by
  induction n with
  | zero => rfl
  | succ n ih => simp [drain, cycle_of_terminal _ h, ih]

theorem drain_of_drained (n : Nat) (h : s.drained = true) : drain n s = s := by
  cases n <;> simp [drain, h]

theorem drain_step {n : Nat} (h : s.drained = false) : drain (n + 1) s = drain n (cycle .idle s) := by simp [drain, h]

theorem Latch.isEmpty_iff (l : Latch) : l.isEmpty = true ↔ l = bubble ∨ l = bubbleStall := by
  obtain ⟨i, f, a, b, c, p, va, vb, ve, vm, cn, st⟩ := l
  cases st <;> simp [Latch.isEmpty, bubble, bubbleStall]

@[simp] theorem isEmpty_bubble : bubble.isEmpty = true := by decide

theorem quiescent_fetchReady (hq : s.Quiescent) : s.fetchReady = true := by
  obtain ⟨h1, h2, h3, h4, h5, h6, h7, h8⟩ := hq
  simp [State.fetchReady, State.squash_of_not_mispred h3, stall_of_empty (.inl h5), State.hold, h5, h6, h7]

theorem passThrough_of_ready (h : s.fetchReady = true) (f : Fields) :
    passThrough f s = drain 7 (cycle (.present f) s) := by
  simp [passThrough, issueBound, drainBound, issue, h]


theorem Latch.isEmpty_of_icode {l : Latch} (h : l.icode ≠ .nop) : l.isEmpty = false := by
  cases he : l.isEmpty with
  | false => rfl
  | true => rcases (Latch.isEmpty_iff l).1 he with rfl | rfl <;> exact absurd rfl h

theorem not_drained_F (h : s.F.isEmpty = false) : s.drained = false := by simp [State.drained, h]
theorem not_drained_D (h : s.D.isEmpty = false) : s.drained = false := by simp [State.drained, h]
theorem not_drained_E (h : s.E.isEmpty = false) : s.drained = false := by simp [State.drained, h]
theorem not_drained_M (h : s.M.isEmpty = false) : s.drained = false := by simp [State.drained, h]

/-- The latch Decode makes of a fetched instruction (R82). -/
def State.decodedLatch (s : State) (l : Latch) : Latch :=
  { l with valA := operandValue s.x l.selA l.valA, valB := operandValue s.x l.selB l.valB, stalling := false }


theorem stall_of_unlocked (h : s.lock = Vector.replicate 8 false) : s.stall = false := by
  simp [State.stall, operandLocked, h, LockTable.isLocked_none]

/-- Fetch and Decode of an instruction presented to an empty pipeline. -/
theorem passThrough_decoded (hq : s.Quiescent) {f : Fields} (hb : s.pc.toNat + f.icode.length ≤ s.mem.capacity)
    (hf : (fetchedLatch f s.pc).registerFault = false) (hl : (fetchedLatch f s.pc).isEmpty = false) :
    passThrough f s = drain 6 { s with
      F := if f.icode = .ret then bubbleStall else bubble
      pc := predictedPc (fetchedLatch f s.pc)
      D := s.decodedLatch (fetchedLatch f s.pc)
      lock := LockTable.putAll s.lock true (fetchedLatch f s.pc).dests
      W := bubble } := by
  have h1 := cycle_present hq f hb
  obtain ⟨q1, q2, q3, q4, q5, q6, q7, q8⟩ := hq
  rw [passThrough_of_ready (quiescent_fetchReady ⟨q1, q2, q3, q4, q5, q6, q7, q8⟩), h1,
    drain_step (not_drained_F hl), cycle_decode (s := { s with
      F := fetchedLatch f s.pc, pc := predictedPc (fetchedLatch f s.pc), W := bubble }) ⟨q1, q2, q3⟩ q6 q7 q8 hf
      (stall_of_unlocked q4)]
  rfl

/-- Execute, Memory and Writeback of an instruction alone in the pipeline that none of them turns away. -/
theorem drain_commit (k : Nat) (hg : s.Going) (hF : s.F = bubble ∨ s.F = bubbleStall) (hE : s.E = bubble) (hM : s.M = bubble)
    (hd : s.D.isEmpty = false) {e m : Latch} {z g o : Bool} {a : Word} {μ : Memory}
    (hx : executeUnit s { s with M := bubble, W := bubble } =
      .ok { s with M := bubble, W := bubble, E := e, ZF := z, SF := g, OF := o })
    (he : e.isEmpty = false)
    (hy : ∀ s3 : State, s3.E = e → s3.mem = s.mem → s3.pc = s.pc →
      memoryUnit s3 { s3 with W := bubble } = .ok { s3 with W := bubble, M := m, pc := a, mem := μ })
    (hm : m.isEmpty = false) (hv : ∀ r ∈ m.dests, r.toNat < 8) :
    drain (k + 3) s = { s with
      x := m.commit s.x
      pc := a
      ZF := z, SF := g, OF := o
      halted := decide (m.icode = .halt)
      status := if m.icode = .halt then .Halted else .Continue
      lock := LockTable.putAll s.lock false m.dests
      F := bubble, D := bubble, E := bubble, M := bubble
      W := { m with stalling := false }
      mem := μ } := by
  have aux : ∀ p : Prop, ∀ [Decidable p], (if p then bubbleStall else bubble) = bubble ∨ (if p then bubbleStall else bubble) = bubbleStall := by
    intro p _; by_cases hp : p <;> simp [hp]
  rw [drain_step (not_drained_D hd), cycle_execute hg hF hE hM hx]
  dsimp only
  generalize hX : (if s.D.icode = .ret then bubbleStall else bubble) = X
  have hX' := hX ▸ aux (s.D.icode = IClass.ret)
  rw [drain_step (not_drained_E he),
    cycle_memory (s := { s with
      F := X, D := bubble, E := e, M := bubble, W := bubble, ZF := z, SF := g, OF := o }) ⟨hg.1, hg.2.1, hg.2.2⟩ hX' rfl rfl
      (hy _ rfl rfl rfl)]
  dsimp only
  generalize hY : (if e.icode = .ret then bubbleStall else bubble) = Y
  have hY' := hY ▸ aux (e.icode = IClass.ret)
  rw [drain_step (not_drained_M hm),
    cycle_writeback (s := { s with
      F := Y, D := bubble, E := bubble, M := m, W := bubble, ZF := z, SF := g, OF := o, pc := a, mem := μ })
      ⟨hg.1, hg.2.1, hg.2.2⟩ hY' rfl rfl hv, drain_of_drained _ (by simp [State.drained])]

end Sys2Proof.Machine
end

