-- ==== Sys2Proof/Laws/Clean.lean ====
section
/-! SUPPORT. What a cycle does that raises no fault, and what Execute and Memory make of one instruction
whatever else the machine holds. -/

namespace Sys2Proof.Machine
variable {s t : State} {feed : Feed}

/-- What a cycle does that starts and ends running. -/
theorem cycle_shape (hs : s.status = .Continue) (ht : (cycle feed s).status = .Continue) :
    let s0 := s.squash
    let t := cycle feed s
    (∀ r ∈ s.M.dests, r.toNat < 8) ∧
    s0.F.registerFault = false ∧
    s.halted = false ∧ s.M.icode ≠ .halt ∧ t.halted = false ∧
    t.x = s.M.commit s.x ∧
    t.W = { s.M with stalling := false } ∧
    (∃ v, t.M = { s.E with valM := v, stalling := false }) ∧
    (∃ e c, t.E = { s0.D with valE := e, cnd := c, stalling := false }) ∧
    ((s0.stall = true ∧ t.D = bubbleStall ∧ t.F = { s0.F with stalling := true } ∧
        t.lock = LockTable.putAll s0.lock false s.M.dests) ∨
     (s0.stall = false ∧ t.D = s0.decodedLatch s0.F ∧
        t.lock = LockTable.putAll (LockTable.putAll s0.lock false s.M.dests) true s0.F.dests)) ∧
    (s0.stall = false → s0.hold = true → t.F = bubbleStall) ∧
    (s0.stall = false → s0.hold = false → t.F = bubble ∨ ∃ f, t.F = fetchedLatch f s0.pc ∧
      (feed = .present f ∨ (feed = .memory ∧ parse (s0.mem.fetchWindow s0.pc) = .ok f))) ∧
    ((t.mispred = false) ∨ (t.mispred = true ∧ s0.D.icode = .jump ∧ t.E.cnd = false ∧ t.mispredPC = s0.D.valP)) := by
  obtain ⟨n1, n2, n3, n4, n5, h1, h2, h3, h4, h5, hh, he⟩ := cycle_clean hs ht
  obtain ⟨hv, rfl⟩ := writebackUnit_ok h1
  obtain ⟨v, a, m, rfl, -, -⟩ := memoryUnit_ok h2
  obtain ⟨e, c, z, g, o, b, a', rfl, -, hb⟩ := executeUnit_ok h3
  obtain ⟨hf, h4⟩ := decodeUnit_ok h4
  simp only [he]
  have hM : s.squash.M = s.M := by simp
  rcases h4 with ⟨hst, rfl⟩ | ⟨hst, rfl⟩
  · rcases fetchUnit_ok h5 with ⟨-, rfl⟩ | ⟨h, -⟩ | ⟨h, -⟩ <;> simp_all
    rcases hb with ⟨rfl, rfl⟩ | ⟨h1, -, rfl, rfl, rfl⟩ <;> simp_all
  · rcases fetchUnit_ok h5 with ⟨h, -⟩ | ⟨-, hh', rfl⟩ | ⟨-, hh', ⟨-, rfl⟩ | ⟨f, rfl, -, rfl⟩ | ⟨f, rfl, hp, rfl⟩⟩
    · simp_all
    all_goals
      simp_all [State.fetched, State.decodedLatch]
      rcases hb with ⟨rfl, rfl⟩ | ⟨h1, -, rfl, rfl, rfl⟩ <;> simp_all

/-- Acting on a misprediction keeps the pipeline's invariant. -/
theorem squash_inv (h : s.PipelineInv) : s.squash.PipelineInv := by
  unfold State.squash
  split
  · rename_i hm
    exact {
      locked := fun r hr => by
        have := h.locked r hr
        have h2 := h.distinctDE r
        have h3 := h.distinctDM r
        simp [LockTable.isLocked_putAll _ _ _ _ h.validD]
        by_cases hd : r ∈ s.D.dests <;> simp_all
      distinctDE := by simp
      distinctDM := by simp
      distinctEM := h.distinctEM
      validD := by simp
      validE := h.validE
      validM := h.validM
      mispredicted := by simp
      running := h.running
      opF := by simp
      opD := by simp }
  · exact h

/-- Fetch reads no `OP` with a function above 3. -/
theorem parse_op {bytes : List Byte} {f : Fields} (h : parse bytes = .ok f) : f.icode = .op → f.ifun.toNat ≤ 3 :=
  (parse_encodable h).op

/-- Decode that does not stall found both its operands unlocked. -/
theorem operand_unlocked {s : State} (hs : s.stall = false) {r : Nibble} (hr : r = s.F.selA ∨ r = s.F.selB) (h8 : r.toNat < 8) :
    s.lock.isLocked r = false := by
  have hn : (r != Config.noRegister) = true := by clear hr; revert r; decide
  simp only [State.stall, Bool.or_eq_false_iff, operandLocked, Bool.and_eq_false_iff] at hs
  rcases hr with rfl | rfl
  · rcases hs.1 with h | h
    · rw [h] at hn; cases hn
    · exact h
  · rcases hs.2 with h | h
    · rw [h] at hn; cases hn
    · exact h

/-- Execute turns the instruction `d` into `e` under the flags `z g o`, and leaves these flags and this misprediction. -/
def ExecSpec (d : Latch) (z g o : Bool) (p : Word) (e : Latch) (z' g' o' mb : Bool) (ma : Word) : Prop :=
  ∀ s0 n : State, s0.D = d → s0.ZF = z → s0.SF = g → s0.OF = o → n.ZF = z → n.SF = g → n.OF = o →
    n.mispred = false → n.mispredPC = p →
    executeUnit s0 n = .ok { n with E := e, ZF := z', SF := g', OF := o', mispred := mb, mispredPC := ma }

/-- Memory finishes the instruction `e` on the memory `m`, loading `vm` and leaving `μ`. -/
def MemSpec (e : Latch) (m : Memory) (vm : Word) (μ : Memory) : Prop :=
  ∀ s0 n : State, s0.E = e → s0.mem = m → n.mem = m →
    memoryUnit s0 n = .ok { n with
      M := { e with valM := vm, stalling := false }
      pc := if e.icode = .ret then vm else n.pc
      mem := μ }

/-- Execute finishes every instruction, or stops it on its condition whatever the rest of the machine holds. -/
theorem execute_total (d : Latch) (z g o : Bool) (p : Word) :
    (∃ (ve : Word) (c z' g' o' mb : Bool) (ma : Word),
      (d.icode = .nop → ve = d.valE ∧ c = d.cnd) ∧ (mb = true → d.icode = .jump) ∧ (mb = false → ma = p) ∧
      (d.icode = .jump → mb = !c ∧ condition d.ifun z g o = some c) ∧
      ExecSpec d z g o p { d with valE := ve, cnd := c, stalling := false } z' g' o' mb ma) ∨
    (∀ s0 n : State, s0.D = d → s0.ZF = z → s0.SF = g → s0.OF = o → executeUnit s0 n = .error .invalidCondition) := by
  have plain : ∀ ve : Word, (d.icode = .nop → ve = d.valE) → d.icode ≠ .jump →
      (∀ s0 n : State, s0.D = d → s0.ZF = z → s0.SF = g → s0.OF = o →
        executeUnit s0 n = .ok (n.latchE { d with valE := ve, stalling := false })) →
      ∃ (ve : Word) (c z' g' o' mb : Bool) (ma : Word),
      (d.icode = .nop → ve = d.valE ∧ c = d.cnd) ∧ (mb = true → d.icode = .jump) ∧ (mb = false → ma = p) ∧
      (d.icode = .jump → mb = !c ∧ condition d.ifun z g o = some c) ∧
      ExecSpec d z g o p { d with valE := ve, cnd := c, stalling := false } z' g' o' mb ma := by
    intro ve hn hj h
    refine ⟨ve, d.cnd, z, g, o, false, p, fun x => ⟨hn x, rfl⟩, by simp, by simp, fun x => absurd x hj, ?_⟩
    intro s0 n h1 h2 h3 h4 h5 h6 h7 h8 h9
    rw [h s0 n h1 h2 h3 h4]; cases n; simp only at h5 h6 h7 h8 h9; subst h5 h6 h7 h8 h9; rfl
  suffices H : ∀ c, d.icode = c → _ from H _ rfl
  intro c hc
  cases c
  case cmov =>
    cases hx : condition d.ifun z g o with
    | none => right; intro s0 n h1 h2 h3 h4; subst h1 h2 h3 h4; simp [executeUnit, hc, hx]
    | some c =>
      left; refine ⟨d.valA, c, z, g, o, false, p, by simp [hc], by simp [hc], by simp, by simp [hc], ?_⟩
      intro s0 n h1 h2 h3 h4 h5 h6 h7 h8 h9; cases n; simp only at h5 h6 h7 h8 h9; subst h1 h2 h3 h4 h5 h6 h7 h8 h9
      simp only [executeUnit, hc, hx, State.latchE]
  case jump =>
    cases hx : condition d.ifun z g o with
    | none => right; intro s0 n h1 h2 h3 h4; subst h1 h2 h3 h4; simp [executeUnit, hc, hx]
    | some c =>
      left; refine ⟨d.valE, c, z, g, o, !c, if c then p else d.valP, by simp [hc], by simp [hc], by simp +contextual, by simp, ?_⟩
      intro s0 n h1 h2 h3 h4 h5 h6 h7 h8 h9; cases n; simp only at h5 h6 h7 h8 h9; subst h1 h2 h3 h4 h5 h6 h7 h8 h9
      cases c <;> simp [executeUnit, hc, hx, State.latchE, State.signalMispredict]
  case op =>
    cases hx : aluResult d.ifun d.valA d.valB with
    | none =>
      exact .inl (plain d.valE (fun _ => rfl) (by simp [hc]) fun s0 n h1 h2 h3 h4 => by subst h1; simp only [executeUnit, hc, hx])
    | some e =>
      left; refine ⟨e, d.cnd, zeroFlag e, signFlag e, overflowFlag d.ifun d.valA d.valB e, false, p, by simp [hc], by simp [hc], by simp, by simp [hc], ?_⟩
      intro s0 n h1 h2 h3 h4 h5 h6 h7 h8 h9; cases n; simp only at h5 h6 h7 h8 h9; subst h1 h2 h3 h4 h5 h6 h7 h8 h9
      simp only [executeUnit, hc, hx, State.latchE, State.setFlags]
  all_goals left
  case halt | nop => exact plain d.valE (fun _ => rfl) (by simp [hc]) fun s0 n h1 h2 h3 h4 => by subst h1; simp only [executeUnit, hc]
  case irmov => exact plain d.valC (by simp [hc]) (by simp [hc]) fun s0 n h1 h2 h3 h4 => by subst h1; simp only [executeUnit, hc]
  case rmmov | mrmov =>
    exact plain (d.valB + d.valC) (by simp [hc]) (by simp [hc]) fun s0 n h1 h2 h3 h4 => by subst h1; simp only [executeUnit, hc]
  case call | push => exact plain (d.valB - 8) (by simp [hc]) (by simp [hc]) fun s0 n h1 h2 h3 h4 => by subst h1; simp only [executeUnit, hc]
  case ret | pop => exact plain (d.valB + 8) (by simp [hc]) (by simp [hc]) fun s0 n h1 h2 h3 h4 => by subst h1; simp only [executeUnit, hc]

/-- Memory finishes every instruction, or stops it on its bounds whatever the rest of the machine holds. -/
theorem memory_total (e : Latch) (m : Memory) :
    (∃ (vm : Word) (μ : Memory), (e.icode = .nop → vm = e.valM ∧ μ = m) ∧ MemSpec e m vm μ) ∨
    (∀ s0 n : State, s0.E = e → s0.mem = m → memoryUnit s0 n = .error .memoryBounds) := by
  cases ha : e.access with
  | none =>
    have hr : e.icode ≠ .ret := by intro h; simp [Latch.access, h] at ha
    left; refine ⟨e.valM, m, by simp, ?_⟩
    intro s0 n h1 h2 h3; subst h1 h3; simp [memoryUnit, ha, hr, State.latchM]
  | store a v =>
    have hr : e.icode ≠ .ret := by intro h; simp [Latch.access, h] at ha
    have hn : e.icode ≠ .nop := by intro h; simp [Latch.access, h] at ha
    by_cases hb : m.dataInBounds a = true
    · left; refine ⟨e.valM, m.write64 a v, by simp [hn], ?_⟩
      intro s0 n h1 h2 h3; subst h1 h2; simp [memoryUnit, ha, hr, hb, State.latchM, State.storeMem]
    · right; intro s0 n h1 h2; subst h1 h2; simp [memoryUnit, ha, hb]
  | load a =>
    have hn : e.icode ≠ .nop := by intro h; simp [Latch.access, h] at ha
    by_cases hb : m.dataInBounds a = true
    · left; refine ⟨m.read64 a, m, by simp [hn], ?_⟩
      intro s0 n h1 h2 h3; subst h1 h2; by_cases hr : s0.E.icode = .ret <;> simp [memoryUnit, ha, hr, hb, h3, State.latchM, State.setPc]
    · right; intro s0 n h1 h2; subst h1 h2; simp [memoryUnit, ha, hb]

/-- What a cycle leaves in which nothing is fetched and nothing stands in `F`. -/
theorem idle_eq {a : State} {e : Latch} {z g o mb : Bool} {ma vm : Word} {μ : Memory} (hg : a.Going)
    (hF : a.F = bubble ∨ a.F = bubbleStall) (hv : ∀ r ∈ a.M.dests, r.toNat < 8)
    (hh : a.M.icode ≠ .halt) (hm : MemSpec a.E a.mem vm μ) (hx : ExecSpec a.D a.ZF a.SF a.OF a.mispredPC e z g o mb ma) :
    cycle .idle a = { a with
      x := a.M.commit a.x
      lock := LockTable.putAll a.lock false a.M.dests
      W := { a.M with stalling := false }
      M := { a.E with valM := vm, stalling := false }
      mem := μ
      pc := if a.E.icode = .ret then vm else a.pc
      E := e, ZF := z, SF := g, OF := o, mispred := mb, mispredPC := ma
      D := bubble
      F := if a.hold then bubbleStall else bubble } := by
  obtain ⟨g1, g2, g3⟩ := hg
  rw [cycle_of_units ⟨g1, g2, g3⟩ (writebackUnit_of_valid _ _ hv) (hm _ _ rfl rfl rfl) (hx _ _ rfl rfl rfl rfl rfl rfl rfl g3 rfl)
    (decodeUnit_empty _ hF) (fetchUnit_idle _ (stall_of_empty hF))]
  simp [State.takeFault, State.retire, State.setStatus, g1, g2, hh]

/-- Execute passes an empty latch on. -/
theorem execSpec_empty {d : Latch} (hd : d = bubble ∨ d = bubbleStall) (z g o : Bool) (p : Word) :
    ExecSpec d z g o p bubble z g o false p := by
  intro s0 n h1 h2 h3 h4 h5 h6 h7 h8 h9
  cases n
  simp only at h5 h6 h7 h8 h9
  subst h5 h6 h7 h8 h9
  rcases hd with hd | hd <;> simp [executeUnit, h1, hd, State.latchE, bubble, bubbleStall]

/-- Memory passes a bubble on. -/
theorem memSpec_bubble (m : Memory) : MemSpec bubble m 0 m := by
  intro s0 n h1 h2 h3
  cases n
  simp only at h3
  subst h3
  simp [memoryUnit, h1, State.latchM, bubble, Latch.access]

end Sys2Proof.Machine
end

