-- ==== Sys2Proof/Laws/PerInstr.lean ====
section
/-! SUPPORT. Facts about each instruction as syntax, one lemma per constructor. -/

namespace Sys2Proof.Laws

/-! ### The fields of a well-formed instruction name that instruction -/

/-- `toInstr` reads a well-formed instruction back from its fields. -/
def FieldsName.Statement (i : Instr) : Prop := i.WellFormed = true → toInstr i.fields = .ok i

theorem FieldsName.halt (fn : Nibble) : FieldsName.Statement (.halt fn) := by
  intro _; rfl

theorem FieldsName.nop (fn : Nibble) : FieldsName.Statement (.nop fn) := by
  intro _; rfl

theorem FieldsName.rrmovq (rA rB : Nibble) : FieldsName.Statement (.rrmovq rA rB) := by
  intro h; simp_all [Instr.WellFormed, toInstr, Instr.fields, Fields.registers, IClass.requiresA, IClass.requiresB, cmovOf]

theorem FieldsName.cmovle (rA rB : Nibble) : FieldsName.Statement (.cmovle rA rB) := by
  intro h; simp_all [Instr.WellFormed, toInstr, Instr.fields, Fields.registers, IClass.requiresA, IClass.requiresB, cmovOf]

theorem FieldsName.cmovl (rA rB : Nibble) : FieldsName.Statement (.cmovl rA rB) := by
  intro h; simp_all [Instr.WellFormed, toInstr, Instr.fields, Fields.registers, IClass.requiresA, IClass.requiresB, cmovOf]

theorem FieldsName.cmove (rA rB : Nibble) : FieldsName.Statement (.cmove rA rB) := by
  intro h; simp_all [Instr.WellFormed, toInstr, Instr.fields, Fields.registers, IClass.requiresA, IClass.requiresB, cmovOf]

theorem FieldsName.cmovne (rA rB : Nibble) : FieldsName.Statement (.cmovne rA rB) := by
  intro h; simp_all [Instr.WellFormed, toInstr, Instr.fields, Fields.registers, IClass.requiresA, IClass.requiresB, cmovOf]

theorem FieldsName.cmovge (rA rB : Nibble) : FieldsName.Statement (.cmovge rA rB) := by
  intro h; simp_all [Instr.WellFormed, toInstr, Instr.fields, Fields.registers, IClass.requiresA, IClass.requiresB, cmovOf]

theorem FieldsName.cmovg (rA rB : Nibble) : FieldsName.Statement (.cmovg rA rB) := by
  intro h; simp_all [Instr.WellFormed, toInstr, Instr.fields, Fields.registers, IClass.requiresA, IClass.requiresB, cmovOf]

theorem FieldsName.irmovq (fn rB : Nibble) (v : Word) : FieldsName.Statement (.irmovq fn rB v) := by
  intro h; simp_all [Instr.WellFormed, toInstr, Instr.fields, Fields.full, IClass.requiresA, IClass.requiresB]

theorem FieldsName.rmmovq (fn rA rB : Nibble) (d : Word) : FieldsName.Statement (.rmmovq fn rA rB d) := by
  intro h; simp_all [Instr.WellFormed, toInstr, Instr.fields, Fields.full, IClass.requiresA, IClass.requiresB]

theorem FieldsName.mrmovq (fn rA rB : Nibble) (d : Word) : FieldsName.Statement (.mrmovq fn rA rB d) := by
  intro h; simp_all [Instr.WellFormed, toInstr, Instr.fields, Fields.full, IClass.requiresA, IClass.requiresB]

theorem FieldsName.addq (rA rB : Nibble) : FieldsName.Statement (.addq rA rB) := by
  intro h; simp_all [Instr.WellFormed, toInstr, Instr.fields, Fields.registers, IClass.requiresA, IClass.requiresB, opOf]

theorem FieldsName.subq (rA rB : Nibble) : FieldsName.Statement (.subq rA rB) := by
  intro h; simp_all [Instr.WellFormed, toInstr, Instr.fields, Fields.registers, IClass.requiresA, IClass.requiresB, opOf]

theorem FieldsName.andq (rA rB : Nibble) : FieldsName.Statement (.andq rA rB) := by
  intro h; simp_all [Instr.WellFormed, toInstr, Instr.fields, Fields.registers, IClass.requiresA, IClass.requiresB, opOf]

theorem FieldsName.xorq (rA rB : Nibble) : FieldsName.Statement (.xorq rA rB) := by
  intro h; simp_all [Instr.WellFormed, toInstr, Instr.fields, Fields.registers, IClass.requiresA, IClass.requiresB, opOf]

theorem FieldsName.jmp (dest : Word) : FieldsName.Statement (.jmp dest) := by
  intro _; rfl

theorem FieldsName.jle (dest : Word) : FieldsName.Statement (.jle dest) := by
  intro _; rfl

theorem FieldsName.jl (dest : Word) : FieldsName.Statement (.jl dest) := by
  intro _; rfl

theorem FieldsName.je (dest : Word) : FieldsName.Statement (.je dest) := by
  intro _; rfl

theorem FieldsName.jne (dest : Word) : FieldsName.Statement (.jne dest) := by
  intro _; rfl

theorem FieldsName.jge (dest : Word) : FieldsName.Statement (.jge dest) := by
  intro _; rfl

theorem FieldsName.jg (dest : Word) : FieldsName.Statement (.jg dest) := by
  intro _; rfl

theorem FieldsName.call (fn : Nibble) (dest : Word) : FieldsName.Statement (.call fn dest) := by
  intro _; rfl

theorem FieldsName.ret (fn : Nibble) : FieldsName.Statement (.ret fn) := by
  intro _; rfl

theorem FieldsName.pushq (fn rA : Nibble) : FieldsName.Statement (.pushq fn rA) := by
  intro h; simp_all [Instr.WellFormed, toInstr, Instr.fields, Fields.registers, IClass.requiresA, IClass.requiresB]

theorem FieldsName.popq (fn rA : Nibble) : FieldsName.Statement (.popq fn rA) := by
  intro h; simp_all [Instr.WellFormed, toInstr, Instr.fields, Fields.registers, IClass.requiresA, IClass.requiresB]

/-- Every instruction. -/
theorem FieldsName.all (i : Instr) : FieldsName.Statement i := by
  cases i with
  | halt fn => exact FieldsName.halt fn
  | nop fn => exact FieldsName.nop fn
  | rrmovq rA rB => exact FieldsName.rrmovq rA rB
  | cmovle rA rB => exact FieldsName.cmovle rA rB
  | cmovl rA rB => exact FieldsName.cmovl rA rB
  | cmove rA rB => exact FieldsName.cmove rA rB
  | cmovne rA rB => exact FieldsName.cmovne rA rB
  | cmovge rA rB => exact FieldsName.cmovge rA rB
  | cmovg rA rB => exact FieldsName.cmovg rA rB
  | irmovq fn rB v => exact FieldsName.irmovq fn rB v
  | rmmovq fn rA rB d => exact FieldsName.rmmovq fn rA rB d
  | mrmovq fn rA rB d => exact FieldsName.mrmovq fn rA rB d
  | addq rA rB => exact FieldsName.addq rA rB
  | subq rA rB => exact FieldsName.subq rA rB
  | andq rA rB => exact FieldsName.andq rA rB
  | xorq rA rB => exact FieldsName.xorq rA rB
  | jmp dest => exact FieldsName.jmp dest
  | jle dest => exact FieldsName.jle dest
  | jl dest => exact FieldsName.jl dest
  | je dest => exact FieldsName.je dest
  | jne dest => exact FieldsName.jne dest
  | jge dest => exact FieldsName.jge dest
  | jg dest => exact FieldsName.jg dest
  | call fn dest => exact FieldsName.call fn dest
  | ret fn => exact FieldsName.ret fn
  | pushq fn rA => exact FieldsName.pushq fn rA
  | popq fn rA => exact FieldsName.popq fn rA

/-! ### The length of an instruction -/

/-- An instruction's bytes are as many as its length, which is 1, 2, 9 or 10 (R50). -/
def EncodeLength.Statement (i : Instr) : Prop :=
  (encode i).length = i.length ∧ (i.length = 1 ∨ i.length = 2 ∨ i.length = 9 ∨ i.length = 10)

theorem EncodeLength.halt (fn : Nibble) : EncodeLength.Statement (.halt fn) :=
  ⟨encodeFields_length _, IClass.length_cases _⟩

theorem EncodeLength.nop (fn : Nibble) : EncodeLength.Statement (.nop fn) :=
  ⟨encodeFields_length _, IClass.length_cases _⟩

theorem EncodeLength.rrmovq (rA rB : Nibble) : EncodeLength.Statement (.rrmovq rA rB) :=
  ⟨encodeFields_length _, IClass.length_cases _⟩

theorem EncodeLength.cmovle (rA rB : Nibble) : EncodeLength.Statement (.cmovle rA rB) :=
  ⟨encodeFields_length _, IClass.length_cases _⟩

theorem EncodeLength.cmovl (rA rB : Nibble) : EncodeLength.Statement (.cmovl rA rB) :=
  ⟨encodeFields_length _, IClass.length_cases _⟩

theorem EncodeLength.cmove (rA rB : Nibble) : EncodeLength.Statement (.cmove rA rB) :=
  ⟨encodeFields_length _, IClass.length_cases _⟩

theorem EncodeLength.cmovne (rA rB : Nibble) : EncodeLength.Statement (.cmovne rA rB) :=
  ⟨encodeFields_length _, IClass.length_cases _⟩

theorem EncodeLength.cmovge (rA rB : Nibble) : EncodeLength.Statement (.cmovge rA rB) :=
  ⟨encodeFields_length _, IClass.length_cases _⟩

theorem EncodeLength.cmovg (rA rB : Nibble) : EncodeLength.Statement (.cmovg rA rB) :=
  ⟨encodeFields_length _, IClass.length_cases _⟩

theorem EncodeLength.irmovq (fn rB : Nibble) (v : Word) : EncodeLength.Statement (.irmovq fn rB v) :=
  ⟨encodeFields_length _, IClass.length_cases _⟩

theorem EncodeLength.rmmovq (fn rA rB : Nibble) (d : Word) : EncodeLength.Statement (.rmmovq fn rA rB d) :=
  ⟨encodeFields_length _, IClass.length_cases _⟩

theorem EncodeLength.mrmovq (fn rA rB : Nibble) (d : Word) : EncodeLength.Statement (.mrmovq fn rA rB d) :=
  ⟨encodeFields_length _, IClass.length_cases _⟩

theorem EncodeLength.addq (rA rB : Nibble) : EncodeLength.Statement (.addq rA rB) :=
  ⟨encodeFields_length _, IClass.length_cases _⟩

theorem EncodeLength.subq (rA rB : Nibble) : EncodeLength.Statement (.subq rA rB) :=
  ⟨encodeFields_length _, IClass.length_cases _⟩

theorem EncodeLength.andq (rA rB : Nibble) : EncodeLength.Statement (.andq rA rB) :=
  ⟨encodeFields_length _, IClass.length_cases _⟩

theorem EncodeLength.xorq (rA rB : Nibble) : EncodeLength.Statement (.xorq rA rB) :=
  ⟨encodeFields_length _, IClass.length_cases _⟩

theorem EncodeLength.jmp (dest : Word) : EncodeLength.Statement (.jmp dest) :=
  ⟨encodeFields_length _, IClass.length_cases _⟩

theorem EncodeLength.jle (dest : Word) : EncodeLength.Statement (.jle dest) :=
  ⟨encodeFields_length _, IClass.length_cases _⟩

theorem EncodeLength.jl (dest : Word) : EncodeLength.Statement (.jl dest) :=
  ⟨encodeFields_length _, IClass.length_cases _⟩

theorem EncodeLength.je (dest : Word) : EncodeLength.Statement (.je dest) :=
  ⟨encodeFields_length _, IClass.length_cases _⟩

theorem EncodeLength.jne (dest : Word) : EncodeLength.Statement (.jne dest) :=
  ⟨encodeFields_length _, IClass.length_cases _⟩

theorem EncodeLength.jge (dest : Word) : EncodeLength.Statement (.jge dest) :=
  ⟨encodeFields_length _, IClass.length_cases _⟩

theorem EncodeLength.jg (dest : Word) : EncodeLength.Statement (.jg dest) :=
  ⟨encodeFields_length _, IClass.length_cases _⟩

theorem EncodeLength.call (fn : Nibble) (dest : Word) : EncodeLength.Statement (.call fn dest) :=
  ⟨encodeFields_length _, IClass.length_cases _⟩

theorem EncodeLength.ret (fn : Nibble) : EncodeLength.Statement (.ret fn) :=
  ⟨encodeFields_length _, IClass.length_cases _⟩

theorem EncodeLength.pushq (fn rA : Nibble) : EncodeLength.Statement (.pushq fn rA) :=
  ⟨encodeFields_length _, IClass.length_cases _⟩

theorem EncodeLength.popq (fn rA : Nibble) : EncodeLength.Statement (.popq fn rA) :=
  ⟨encodeFields_length _, IClass.length_cases _⟩

/-- Every instruction. -/
theorem EncodeLength.all (i : Instr) : EncodeLength.Statement i := by
  cases i with
  | halt fn => exact EncodeLength.halt fn
  | nop fn => exact EncodeLength.nop fn
  | rrmovq rA rB => exact EncodeLength.rrmovq rA rB
  | cmovle rA rB => exact EncodeLength.cmovle rA rB
  | cmovl rA rB => exact EncodeLength.cmovl rA rB
  | cmove rA rB => exact EncodeLength.cmove rA rB
  | cmovne rA rB => exact EncodeLength.cmovne rA rB
  | cmovge rA rB => exact EncodeLength.cmovge rA rB
  | cmovg rA rB => exact EncodeLength.cmovg rA rB
  | irmovq fn rB v => exact EncodeLength.irmovq fn rB v
  | rmmovq fn rA rB d => exact EncodeLength.rmmovq fn rA rB d
  | mrmovq fn rA rB d => exact EncodeLength.mrmovq fn rA rB d
  | addq rA rB => exact EncodeLength.addq rA rB
  | subq rA rB => exact EncodeLength.subq rA rB
  | andq rA rB => exact EncodeLength.andq rA rB
  | xorq rA rB => exact EncodeLength.xorq rA rB
  | jmp dest => exact EncodeLength.jmp dest
  | jle dest => exact EncodeLength.jle dest
  | jl dest => exact EncodeLength.jl dest
  | je dest => exact EncodeLength.je dest
  | jne dest => exact EncodeLength.jne dest
  | jge dest => exact EncodeLength.jge dest
  | jg dest => exact EncodeLength.jg dest
  | call fn dest => exact EncodeLength.call fn dest
  | ret fn => exact EncodeLength.ret fn
  | pushq fn rA => exact EncodeLength.pushq fn rA
  | popq fn rA => exact EncodeLength.popq fn rA

end Sys2Proof.Laws
end

