-- ==== Sys2Proof/Tests/Slice0.lean ====
section
/-! SUPPORT. The model's own tests. Every expected value is taken from the spec: the encodings from the table of R55, the results
from the worked examples and corner cases of the instruction rules (files 41 to 47), or is worked out from them by hand. The
witnesses at the end show, for each statement with hypotheses, a state and operands that meet them all. -/

namespace Sys2Proof.Tests

open Sys2Proof.Machine

-- One theorem after another: elaborated all at once, the kernel evaluations below use up the sandbox's threads.
set_option Elab.async false

/-! ### Well-formedness: an ill-formed term for each check -/

theorem test_refuses_rrmovq : (Instr.rrmovq 8 0).WellFormed = false ∧ (Instr.rrmovq 0 15).WellFormed = false := by decide
theorem test_refuses_cmovle : (Instr.cmovle 8 0).WellFormed = false ∧ (Instr.cmovle 0 15).WellFormed = false := by decide
theorem test_refuses_cmovl : (Instr.cmovl 9 0).WellFormed = false ∧ (Instr.cmovl 0 14).WellFormed = false := by decide
theorem test_refuses_cmove : (Instr.cmove 15 0).WellFormed = false ∧ (Instr.cmove 0 8).WellFormed = false := by decide
theorem test_refuses_cmovne : (Instr.cmovne 8 0).WellFormed = false ∧ (Instr.cmovne 0 15).WellFormed = false := by decide
theorem test_refuses_cmovge : (Instr.cmovge 8 0).WellFormed = false ∧ (Instr.cmovge 0 15).WellFormed = false := by decide
theorem test_refuses_cmovg : (Instr.cmovg 8 0).WellFormed = false ∧ (Instr.cmovg 0 15).WellFormed = false := by decide
theorem test_refuses_irmovq : (Instr.irmovq 0 15 5).WellFormed = false ∧ (Instr.irmovq 0 8 5).WellFormed = false := by decide
theorem test_refuses_rmmovq : (Instr.rmmovq 0 8 3 0).WellFormed = false ∧ (Instr.rmmovq 0 0 15 0).WellFormed = false := by decide
theorem test_refuses_mrmovq : (Instr.mrmovq 0 15 3 0).WellFormed = false ∧ (Instr.mrmovq 0 0 8 0).WellFormed = false := by decide
theorem test_refuses_addq : (Instr.addq 8 0).WellFormed = false ∧ (Instr.addq 0 15).WellFormed = false := by decide
theorem test_refuses_subq : (Instr.subq 8 0).WellFormed = false ∧ (Instr.subq 0 15).WellFormed = false := by decide
theorem test_refuses_andq : (Instr.andq 15 0).WellFormed = false ∧ (Instr.andq 0 8).WellFormed = false := by decide
theorem test_refuses_xorq : (Instr.xorq 8 0).WellFormed = false ∧ (Instr.xorq 0 12).WellFormed = false := by decide
theorem test_refuses_pushq : (Instr.pushq 0 8).WellFormed = false ∧ (Instr.pushq 0 15).WellFormed = false := by decide
theorem test_refuses_popq : (Instr.popq 0 8).WellFormed = false ∧ (Instr.popq 0 15).WellFormed = false := by decide

/-! ### Decoding: each constructor from a word written out from the table of R55 -/

theorem test_decode_halt : decode [0x00] = .ok (.halt 0) ∧ decode [0x0F] = .ok (.halt 15) := ⟨rfl, rfl⟩
theorem test_decode_nop : decode [0x10] = .ok (.nop 0) ∧ decode [0x1F] = .ok (.nop 15) := ⟨rfl, rfl⟩
theorem test_decode_rrmovq : decode [0x20, 0x03] = .ok (.rrmovq 0 3) := rfl
theorem test_decode_cmovle : decode [0x21, 0x03] = .ok (.cmovle 0 3) := rfl
theorem test_decode_cmovl : decode [0x22, 0x03] = .ok (.cmovl 0 3) := rfl
theorem test_decode_cmove : decode [0x23, 0x03] = .ok (.cmove 0 3) := rfl
theorem test_decode_cmovne : decode [0x24, 0x03] = .ok (.cmovne 0 3) := rfl
theorem test_decode_cmovge : decode [0x25, 0x03] = .ok (.cmovge 0 3) := rfl
theorem test_decode_cmovg : decode [0x26, 0x03] = .ok (.cmovg 0 3) := rfl
theorem test_decode_irmovq : decode [0x30, 0xF0, 0x05, 0, 0, 0, 0, 0, 0, 0x80] = .ok (.irmovq 0 0 0x8000000000000005) := rfl
theorem test_decode_rmmovq : decode [0x40, 0x03, 0x08, 0, 0, 0, 0, 0, 0, 0] = .ok (.rmmovq 0 0 3 8) := rfl
theorem test_decode_mrmovq : decode [0x50, 0x13, 0x08, 0, 0, 0, 0, 0, 0, 0] = .ok (.mrmovq 0 1 3 8) := rfl
theorem test_decode_addq : decode [0x60, 0x30] = .ok (.addq 3 0) := rfl
theorem test_decode_subq : decode [0x61, 0x03] = .ok (.subq 0 3) := rfl
theorem test_decode_andq : decode [0x62, 0x03] = .ok (.andq 0 3) := rfl
theorem test_decode_xorq : decode [0x63, 0x03] = .ok (.xorq 0 3) := rfl
theorem test_decode_jmp : decode [0x70, 0x20, 0, 0, 0, 0, 0, 0, 0] = .ok (.jmp 0x20) := rfl
theorem test_decode_jle : decode [0x71, 0x20, 0x01, 0, 0, 0, 0, 0, 0] = .ok (.jle 0x120) := rfl
theorem test_decode_jl : decode [0x72, 0x20, 0, 0, 0, 0, 0, 0, 0] = .ok (.jl 0x20) := rfl
theorem test_decode_je : decode [0x73, 0x20, 0, 0, 0, 0, 0, 0, 0] = .ok (.je 0x20) := rfl
theorem test_decode_jne : decode [0x74, 0x20, 0, 0, 0, 0, 0, 0, 0] = .ok (.jne 0x20) := rfl
theorem test_decode_jge : decode [0x75, 0x20, 0, 0, 0, 0, 0, 0, 0] = .ok (.jge 0x20) := rfl
theorem test_decode_jg : decode [0x76, 0x20, 0, 0, 0, 0, 0, 0, 0xFF] = .ok (.jg 0xFF00000000000020) := rfl
theorem test_decode_call : decode [0x80, 0x18, 0, 0, 0, 0, 0, 0, 0] = .ok (.call 0 0x18) := rfl
theorem test_decode_ret : decode [0x90] = .ok (.ret 0) := rfl
theorem test_decode_pushq : decode [0xA0, 0x0F] = .ok (.pushq 0 0) := rfl
theorem test_decode_popq : decode [0xB0, 0x3F] = .ok (.popq 0 3) := rfl

/-- R56, R41, R57, R58: each reason for rejection. -/
theorem test_decode_rejects :
    decode [0xC0] = .error .invalidOpcode ∧ decode [0x64, 0x00] = .error .invalidOpcode ∧
    decode [0x30, 0x00, 0, 0, 0, 0, 0, 0, 0, 0] = .error .invalidOpcode ∧ decode [0xA0, 0x00] = .error .invalidOpcode ∧
    decode [0xB0, 0x3E] = .error .invalidOpcode ∧ decode [] = .error .truncated ∧ decode [0x60] = .error .truncated ∧
    decode [0x60, 0x8F] = .error .invalidRegister ∧ decode [0x27, 0x00] = .error .invalidCondition ∧
    decode [0x77, 0, 0, 0, 0, 0, 0, 0, 0] = .error .invalidCondition := by
  refine ⟨rfl, rfl, rfl, rfl, rfl, rfl, rfl, rfl, rfl, rfl⟩

/-- The opcode table's numbering: bit 0 is the least significant bit of the first byte. -/
theorem test_decodeTableWord :
    decodeTableWord 8 0x00 = some (.halt 0) ∧ decodeTableWord 16 0x3060 = some (.addq 3 0) ∧
    decodeTableWord 80 0x0000000000000005F030 = some (.irmovq 0 0 5) ∧ decodeTableWord 8 0xC0 = none := by
  refine ⟨rfl, rfl, rfl, rfl⟩

/-! ### One instruction on a small state -/

/-- A small memory, `x[0] = 7`, `x[3] = 1`, `x[4] = 0x100`; nothing in flight. -/
def small : State :=
  { State.reset with x := #v[7, 0, 0, 1, 0x100, 0, 0, 0], mem := { capacity := 0x400, cells := [] } }

/-- `small` with these flags. -/
def flagged (z g o : Bool) : State := small.setFlags z g o

/-- `small` with these values in `x[0]` and `x[3]`. -/
def pair (a b : Word) : State := { small with x := #v[a, 0, 0, b, 0x100, 0, 0, 0] }

/-- The state after an instruction's meaning. -/
def after (i : Instr) (s : State) : State :=
  match exec i s with
  | .next t => t
  | .fault _ => s
  | .refused _ => s

/-- The register `r` and the flags after an instruction. -/
def outcome (i : Instr) (r : Nibble) (s : State) : Word × Bool × Bool × Bool :=
  (RegFile.read (after i s).x r, (after i s).ZF, (after i s).SF, (after i s).OF)

theorem test_halt : (after (.halt 0) small).status = .Halted ∧ (after (.halt 0) small).x = small.x := by decide +kernel
theorem test_nop : { after (.nop 0) small with pc := 0, W := bubble } = small := by decide +kernel
/-- R103, example. -/
theorem test_rrmovq : RegFile.read (after (.rrmovq 0 3) small).x 3 = 7 := by decide +kernel
/-- R104 to R109, examples: condition true, condition false, and the rows `1 0 1` where the spec's `l` and `ge` are its own. -/
theorem test_cmovle : RegFile.read (after (.cmovle 0 3) (flagged false true false)).x 3 = 7 ∧
    RegFile.read (after (.cmovle 0 3) (flagged false false false)).x 3 = 1 := by decide +kernel
theorem test_cmovl : RegFile.read (after (.cmovl 0 3) (flagged false true false)).x 3 = 7 ∧
    RegFile.read (after (.cmovl 0 3) (flagged true false true)).x 3 = 1 := by decide +kernel
theorem test_cmove : RegFile.read (after (.cmove 0 3) (flagged true false false)).x 3 = 7 ∧
    RegFile.read (after (.cmove 0 3) (flagged false false false)).x 3 = 1 := by decide +kernel
theorem test_cmovne : RegFile.read (after (.cmovne 0 3) (flagged false false false)).x 3 = 7 ∧
    RegFile.read (after (.cmovne 0 3) (flagged true false false)).x 3 = 1 := by decide +kernel
theorem test_cmovge : RegFile.read (after (.cmovge 0 3) (flagged true false true)).x 3 = 7 ∧
    RegFile.read (after (.cmovge 0 3) (flagged false true false)).x 3 = 1 := by decide +kernel
theorem test_cmovg : RegFile.read (after (.cmovg 0 3) (flagged false false false)).x 3 = 7 ∧
    RegFile.read (after (.cmovg 0 3) (flagged true false false)).x 3 = 1 := by decide +kernel
/-- R110: all ones, no extension. -/
theorem test_irmovq : RegFile.read (after (.irmovq 0 0 0xFFFFFFFFFFFFFFFF) small).x 0 = 0xFFFFFFFFFFFFFFFF := by decide +kernel
/-- R112, example. -/
theorem test_rmmovq : (after (.rmmovq 0 0 3 8) (pair 0x1122334455667788 0x200)).mem.cells =
    [(0x208, 0x88), (0x209, 0x77), (0x20A, 0x66), (0x20B, 0x55), (0x20C, 0x44), (0x20D, 0x33), (0x20E, 0x22), (0x20F, 0x11)] := by
  decide +kernel
/-- R113, example. -/
theorem test_mrmovq : RegFile.read (after (.mrmovq 0 1 3 8)
    ((pair 0 0x200).storeMem (small.mem.writeBytes 0x208 [0x88, 0x77, 0x66, 0x55, 0x44, 0x33, 0x22, 0x11]))).x 1 =
    0x1122334455667788 := by decide +kernel
/-- R116: the example, and `0x7FFFFFFFFFFFFFFF + 1`. -/
theorem test_addq : outcome (.addq 3 0) 0 (pair 5 3) = (8, false, false, false) ∧
    outcome (.addq 0 3) 3 (pair 1 0x7FFFFFFFFFFFFFFF) = (0x8000000000000000, false, true, true) := by decide +kernel
/-- R116: unsigned wrap is not overflow; two negative numbers may overflow to 0. -/
theorem test_addq_wraps : outcome (.addq 0 3) 3 (pair 1 0xFFFFFFFFFFFFFFFF) = (0, true, false, false) ∧
    outcome (.addq 0 0) 0 (pair 0x8000000000000000 0) = (0, true, false, true) := by decide +kernel
/-- R117: the example, and `0x8000000000000000 - 1`. -/
theorem test_subq : outcome (.subq 0 3) 3 (pair 1 2) = (1, false, false, false) ∧
    outcome (.subq 0 3) 3 (pair 1 0x8000000000000000) = (0x7FFFFFFFFFFFFFFF, false, false, true) := by decide +kernel
/-- R117: `0 - 1` and `0 - 0x8000000000000000`. -/
theorem test_subq_corners : outcome (.subq 0 3) 3 (pair 1 0) = (0xFFFFFFFFFFFFFFFF, false, true, false) ∧
    outcome (.subq 0 3) 3 (pair 0x8000000000000000 0) = (0x8000000000000000, false, true, true) := by decide +kernel
/-- R118, example. -/
theorem test_andq : outcome (.andq 0 3) 3 (pair 0xF0F0 0xFF00) = (0xF000, false, false, false) := by decide +kernel
/-- R119: the example, and `xorq rA, rA`. -/
theorem test_xorq : outcome (.xorq 0 3) 3 (pair 0xF0F0 0xFF00) = (0x0FF0, false, false, false) ∧
    outcome (.xorq 0 0) 0 (pair 0xF0F0 0) = (0, true, false, false) := by decide +kernel
/-- R123 to R129, examples: taken, and not taken. -/
theorem test_jmp : (after (.jmp 0x20) small).pc = 0x20 := by decide +kernel
theorem test_jle : (after (.jle 0x20) (flagged false true false)).pc = 0x20 ∧
    (after (.jle 0x20) (flagged false false false)).pc = 9 := by decide +kernel
theorem test_jl : (after (.jl 0x20) (flagged false true false)).pc = 0x20 ∧
    (after (.jl 0x20) (flagged true false true)).pc = 9 := by decide +kernel
theorem test_je : (after (.je 0x20) (flagged true false false)).pc = 0x20 ∧
    (after (.je 0x20) (flagged false false false)).pc = 9 := by decide +kernel
theorem test_jne : (after (.jne 0x20) (flagged false false false)).pc = 0x20 ∧
    (after (.jne 0x20) (flagged true false false)).pc = 9 := by decide +kernel
theorem test_jge : (after (.jge 0x20) (flagged true false true)).pc = 0x20 ∧
    (after (.jge 0x20) (flagged false true false)).pc = 9 := by decide +kernel
theorem test_jg : (after (.jg 0x20) (flagged false false false)).pc = 0x20 ∧
    (after (.jg 0x20) (flagged true false false)).pc = 9 := by decide +kernel
/-- R130, example: a call at address 0x0A. -/
theorem test_call : (after (.call 0 0x18) (small.setPc 0x0A)).mem.cells = [(0xF8, 0x13)] ∧
    RegFile.read (after (.call 0 0x18) (small.setPc 0x0A)).x 4 = 0xF8 ∧
    (after (.call 0 0x18) (small.setPc 0x0A)).pc = 0x18 := by decide +kernel
/-- R131: pops the return address of the example above, stored at 0x100 here. -/
theorem test_ret : (after (.ret 0) (small.storeMem (small.mem.writeByte 0x100 0x13))).pc = 0x13 ∧
    RegFile.read (after (.ret 0) small).x 4 = 0x108 := by decide +kernel
/-- R133: the example's slot, and `pushq %rsp` storing the old stack pointer. -/
theorem test_pushq : (after (.pushq 0 0) (pair 0xAB 0)).mem.cells = [(0xF8, 0xAB)] ∧
    (after (.pushq 0 4) small).mem.cells = [(0xF9, 0x01)] := by decide +kernel
/-- R134: the example's load, and `popq %rsp` ending with the loaded value. -/
theorem test_popq : (after (.popq 0 3) (small.storeMem (small.mem.writeByte 0x100 0xAB))).x = #v[7, 0, 0, 0xAB, 0x108, 0, 0, 0] ∧
    RegFile.read (after (.popq 0 4) (small.storeMem (small.mem.writeByte 0x100 0xAB))).x 4 = 0xAB := by decide +kernel

/-! ### One step -/

/-- The state after a step. -/
def stepped (s : State) : State := cycle .memory s

/-- R73: the fetch faults, at reset with these bytes at address 0. -/
theorem test_fetch_faults : (stepped (State.reset.load [0xC0])).status = .FaultInvalidOpcode ∧
    (stepped (State.reset.load [0x30, 0x00])).status = .FaultInvalidOpcode ∧
    (stepped { State.reset with pc := 0x100000 }).status = .FaultMemoryBounds := by decide +kernel

/-- The host's first step after reset fetches the table's word. -/
theorem test_withFetchWord : (stepped (State.reset.withFetchWord 16 0x3060)).F =
    fetchedLatch (Instr.addq 3 0).fields 0 := by decide +kernel

/-- R70: the squash of a mispredicted jump, and the fetch of the same cycle at the fall-through address. -/
theorem test_squash : (stepped { small with
      mispred := true, mispredPC := 0x40, E := { bubble with icode := .jump }, D := { bubble with icode := .irmov, regB := 2 }
      lock := #v[false, false, true, false, false, false, false, false] }).lock = Vector.replicate 8 false ∧
    (stepped { small with mispred := true, mispredPC := 0x40, E := { bubble with icode := .jump } }).pc = 0x41 := by
  decide +kernel

/-! ### Witnesses: every statement's hypotheses can be met -/

/-- `small` with these latches. -/
def piped (f d e m : Latch) : State := { small with F := f, D := d, E := e, M := m }

/-- A latch of class `c` with function `fn` and registers `a`, `b`. -/
def latch (c : IClass) (fn a b : Nibble) : Latch := { bubble with icode := c, ifun := fn, regA := a, regB := b }

/-- A state with an instruction in every latch and the locks they hold; the next fetch reads a halt. -/
def busy : State :=
  { piped (latch .op 0 1 2) (latch .irmov 0 15 3) { latch .rmmov 0 0 1 with valE := 0x20 } (latch .mrmov 0 5 1) with
    lock := #v[false, false, false, true, false, true, false, false] }

/-- `busy` with an instruction in `F` that waits for the lock of register 3. -/
def waiting : State := { busy with F := latch .op 0 3 2 }

/-- A pending misprediction, with a wrong-path instruction in `D` that holds a lock and another in `F`. -/
def mispredicted : State :=
  { piped (latch .op 0 1 2) (latch .irmov 0 15 3) { latch .jump 4 15 15 with valP := 0x40 } bubble with
    mispred := true, mispredPC := 0x40, lock := #v[false, false, false, true, false, false, false, false] }

theorem busy_sound : busy.Sound := fun _ =>
  { locked := by decide, distinctDE := by decide, distinctDM := by decide, distinctEM := by decide, validD := by decide,
    validE := by decide, validM := by decide, mispredicted := by decide, running := by decide, opF := by decide, opD := by decide }

theorem waiting_sound : waiting.Sound := fun _ =>
  { locked := by decide, distinctDE := by decide, distinctDM := by decide, distinctEM := by decide, validD := by decide,
    validE := by decide, validM := by decide, mispredicted := by decide, running := by decide, opF := by decide, opD := by decide }

theorem mispredicted_sound : mispredicted.Sound := fun _ =>
  { locked := by decide, distinctDE := by decide, distinctDM := by decide, distinctEM := by decide, validD := by decide,
    validE := by decide, validM := by decide, mispredicted := by decide, running := by decide, opF := by decide, opD := by decide }

/-- The same misprediction with nothing behind the jump and another `pc`. -/
def mispredictedAlone : State :=
  { mispredicted with F := bubble, D := bubble, pc := 0x300, lock := Vector.replicate 8 false }

theorem mispredictedAlone_sound : mispredictedAlone.Sound := fun _ =>
  { locked := by decide, distinctDE := by decide, distinctDM := by decide, distinctEM := by decide, validD := by decide,
    validE := by decide, validM := by decide, mispredicted := by decide, running := by decide, opF := by decide, opD := by decide }

theorem small_quiescent : small.Quiescent := by decide

theorem witness_DecodeOfEncode : (Instr.rmmovq 15 7 0 0xFFFFFFFFFFFFFFFF).WellFormed = true := by decide
theorem witness_DecodedIsEncoded : decode [0xB5, 0x7F, 0x00] = .ok (.popq 5 7) := rfl
/-- The last place where ten bytes fit; accepted and rejected bytes. -/
theorem witness_EncodingsFetchRejects : (small.setPc 0x3F6).Quiescent ∧ (small.setPc 0x3F6).pc.toNat + 10 ≤ 0x400 ∧
    (stepped (small.setPc 0x3F6)).status = .Continue ∧
    (stepped ((small.setPc 0x3F6).storeMem (small.mem.writeBytes 0x3F6 [0xA0, 0x0E]))).status = .FaultInvalidOpcode := by
  decide +kernel
theorem witness_InvalidConditionFaultsInExecute :
    small.Quiescent ∧ 6 < (Fields.registers .cmov 7 0 7).ifun.toNat ∧ (Fields.registers .cmov 7 0 7).regB.toNat < 8 ∧
    small.pc.toNat + (Fields.registers .cmov 7 0 7).icode.length ≤ small.mem.capacity ∧
    6 < (Fields.constant .jump 15 0).ifun.toNat ∧ small.pc.toNat + (Fields.constant .jump 15 0).icode.length ≤ small.mem.capacity := by
  decide
theorem witness_IgnoredFunctionIsIgnored : small.Quiescent ∧ (Instr.pushq 9 0).canonical ≠ .pushq 9 0 := by decide
theorem witness_RegistersHoldWhatWasWritten : (7 : Nibble).toNat < 8 := by decide
theorem witness_MemoryIsLittleEndian : (0x3F8 : Word).toNat + 8 ≤ small.mem.capacity := by decide
theorem witness_LoadSeesEarlierStore : (0x3F8 : Word).toNat + 8 ≤ small.mem.capacity ∧
    (0x3F8 : Word).toNat ≤ (0x3F1 : Word).toNat + 7 := by decide
theorem witness_CanonicalMemoriesAreEqual : (small.mem.write64 0x3F8 0x01).wf ∧ (small.mem.writeByte 0x3F8 1).wf := by
  decide +kernel
theorem witness_LoaderPlacesTheImage : [0x30, 0xF0].length ≤ small.mem.capacity := by decide
theorem witness_SquashPhase : mispredicted.mispred = true ∧ mispredicted.status = .Continue ∧
    ∀ r ∈ mispredicted.D.dests, r.toNat < 8 := by decide
/-- A fetch that is neither stalled nor held, of each length. -/
theorem witness_FetchPredictsTaken : ∀ b ∈ [(0x10 : Byte), 0x70, 0x80, 0x90], (fun s : State =>
      s.status = .Continue ∧ (stepped s).status = .Continue ∧ ¬ s.squash.MustStall ∧ ¬ s.squash.MustHold)
    (small.storeMem (small.mem.writeByte 0 b)) := by decide +kernel
theorem witness_FetchReadsTheFields : ∀ bs ∈ [[(0x00 : Byte)], [0x61, 0x03], [0x74, 0x20], [0x30, 0xF7]], (fun s : State =>
      s.status = .Continue ∧ (stepped s).status = .Continue ∧ ¬ s.squash.MustStall ∧ ¬ s.squash.MustHold)
    (small.storeMem (small.mem.writeBytes 0 bs)) := by decide +kernel
/-- A stall; and a hold by a return in `F`, in `D` and in `E`. -/
theorem witness_HoldAndStallInsertBubbles :
    (waiting.status = .Continue ∧ (stepped waiting).status = .Continue ∧ waiting.squash.MustStall) ∧
    ∀ s ∈ [piped (latch .ret 0 15 15) bubble bubble bubble, piped bubble (latch .ret 0 15 15) bubble bubble,
        piped bubble bubble (latch .ret 0 15 15) bubble],
      s.status = .Continue ∧ (stepped s).status = .Continue ∧ s.squash.MustHold ∧ ¬ s.squash.MustStall := by decide +kernel
theorem witness_ReturnHoldsFetchThreeCycles : (fun s : State =>
      s.squash.F.icode = .ret ∧ ¬ s.squash.MustStall ∧ s.status = .Continue ∧ (stepped s).status = .Continue ∧
      (stepped (stepped s)).status = .Continue ∧ (stepped (stepped (stepped s))).status = .Continue ∧
      (stepped s).mispred = false)
    (piped (latch .ret 0 15 15) bubble bubble bubble) := by decide +kernel
theorem witness_DecodeStallFreezesFetch : waiting.status = .Continue ∧ (stepped waiting).status = .Continue ∧
    waiting.squash.MustStall ∧ waiting.E.icode ≠ .ret := by decide +kernel
/-- Every class, and what it locks. -/
theorem witness_DecodeReadsAndLocks : ∀ p ∈ [(IClass.halt, ([] : List Nibble)), (.nop, []), (.cmov, [2]), (.irmov, [2]), (.rmmov, []),
      (.mrmov, [1]), (.op, [2]), (.jump, []), (.call, [4]), (.ret, [4]), (.push, [4]), (.pop, [1, 4])], (fun s : State =>
      s.status = .Continue ∧ (stepped s).status = .Continue ∧ ¬ s.squash.MustStall ∧
      ∀ r < 8, (stepped s).lock.isLocked (BitVec.ofNat 4 r) = p.2.contains (BitVec.ofNat 4 r))
    (piped (latch p.1 0 1 2) bubble bubble bubble) := by decide +kernel
theorem witness_FlagsWrittenByAluReadByConditions : busy.squash.D.icode ≠ .op ∧ busy.squash.D.icode ≠ .cmov ∧
    busy.squash.D.icode ≠ .jump ∧ (piped bubble (latch .op 3 0 1) bubble bubble).squash.D.icode = .op ∧
    (stepped (piped bubble (latch .op 3 0 1) bubble bubble)).status = .Continue := by decide +kernel
/-- Every function of the ALU. -/
theorem witness_AluResultAndFlags : ∀ fn ∈ [(0 : Nibble), 1, 2, 3], (fun s : State =>
      s.status = .Continue ∧ (stepped s).status = .Continue ∧ s.squash.D.icode = .op ∧ s.squash.D.ifun = fn)
    (piped bubble (latch .op fn 0 1) bubble bubble) := by decide +kernel
/-- The conditions 0 to 6 run, 7 and 15 do not. -/
theorem witness_ConditionEvaluator :
    (∀ fn ∈ [(0 : Nibble), 1, 2, 3, 4, 5, 6], (stepped (piped bubble (latch .cmov fn 0 1) bubble bubble)).status = .Continue) ∧
    (∀ fn ∈ [(0 : Nibble), 1, 2, 3, 4, 5, 6], (stepped (piped bubble (latch .jump fn 15 15) bubble bubble)).status = .Continue) ∧
    (stepped (piped bubble (latch .cmov 7 0 1) bubble bubble)).status = .FaultInvalidCondition ∧
    (stepped (piped bubble (latch .jump 15 15 15) bubble bubble)).status = .FaultInvalidCondition := by decide +kernel
theorem witness_ConditionsCompareAfterSub : small.Ready (.subq 0 7) ∧ (0 : Nibble).toNat < 8 ∧ (7 : Nibble).toNat < 8 := by
  decide
/-- A jump not taken, one taken, and a call. -/
theorem witness_MispredictionSignal : (fun s : State => s.status = .Continue ∧ (stepped s).status = .Continue ∧
      s.squash.D.icode = .jump ∧ (stepped s).E.cnd = false) (piped bubble (latch .jump 3 15 15) bubble bubble) ∧
    (fun s : State => s.status = .Continue ∧ (stepped s).status = .Continue ∧
      s.squash.D.icode = .jump ∧ (stepped s).E.cnd = true) (piped bubble (latch .jump 4 15 15) bubble bubble) ∧
    (fun s : State => s.status = .Continue ∧ (stepped s).status = .Continue ∧
      s.squash.D.icode ≠ .jump) (piped bubble (latch .call 0 15 15) bubble bubble) := by decide +kernel
theorem witness_ExecuteResults : ∀ c ∈ [IClass.halt, .nop, .cmov, .irmov, .rmmov, .mrmov, .op, .jump, .call, .ret, .push, .pop],
    (fun s : State => s.status = .Continue ∧ (stepped s).status = .Continue ∧ s.squash.D.icode = c)
      (piped bubble (latch c 0 0 1) bubble bubble) := by decide +kernel
/-- The last address in bounds and the first out of bounds, for a store, a return and a pop. -/
theorem witness_MemoryStage : ∀ c ∈ [IClass.rmmov, .mrmov, .call, .ret, .push, .pop],
    (fun s : State => s.status = .Continue ∧ ¬ s.M.BadDestination ∧ ¬ s.E.BadAddress s.mem.capacity)
      (piped bubble bubble { latch c 0 0 1 with valE := 0x3F8, valA := 0x3F8, valB := 0x3F8 } bubble) ∧
    (fun s : State => s.status = .Continue ∧ s.halted = false ∧ s.M.icode ≠ .halt ∧ ¬ s.M.BadDestination ∧
        s.E.BadAddress s.mem.capacity)
      (piped bubble bubble { latch c 0 0 1 with valE := 0x3F9, valA := 0x3F9, valB := 0x3F9 } bubble) := by decide +kernel
theorem witness_WritebackCommits : ∀ c ∈ [IClass.cmov, .irmov, .mrmov, .op, .call, .ret, .push, .pop],
    (piped bubble bubble bubble (latch c 0 7 7)).status = .Continue ∧
    ¬ (piped bubble bubble bubble (latch c 0 7 7)).M.BadDestination := by decide
theorem witness_WritebackRecordsAndHalts : (piped bubble bubble bubble (latch .halt 0 15 15)).status = .Continue ∧
    (piped bubble bubble bubble (latch .halt 0 15 15)).M.icode = .halt ∧ { small with halted := true }.status = .Continue ∧
    busy.status = .Continue ∧ ¬ busy.M.BadDestination ∧ busy.M.icode ≠ .halt := by decide
theorem witness_WritebackReleasesLocks : busy.Sound ∧ busy.status = .Continue ∧ busy.M.dests = [5] :=
  ⟨busy_sound, by decide⟩
/-- Each row is written: registers, memory and a lock here; `pc` by Fetch, by a return and by the squash. -/
theorem witness_WritersOfEachElement : (stepped busy).pc ≠ busy.pc ∧
    (stepped (piped bubble bubble { latch .ret 0 15 15 with valA := 0x100 } bubble)).status = .Continue ∧
    (stepped mispredicted).pc = 0x41 ∧ RegFile.read (stepped busy).x 5 = 0 ∧ (stepped busy).mem = busy.mem.write64 0x20 0 ∧
    (∀ r ∈ busy.D.dests, r.toNat < 8) ∧ (stepped busy).lock.isLocked 2 ≠ busy.lock.isLocked 2 := by decide +kernel
/-- Every fault and both other endings occur. -/
theorem witness_StatusOfACycle :
    (stepped (piped bubble bubble bubble (latch .irmov 0 15 8))).status = .FaultWriteback ∧
    (stepped (piped bubble bubble { latch .push 0 0 15 with valE := 0x3F9 } (latch .halt 0 15 15))).status = .Halted ∧
    (stepped (piped bubble bubble { latch .push 0 0 15 with valE := 0x3F9 } bubble)).status = .FaultMemoryBounds ∧
    (stepped (piped bubble (latch .jump 7 15 15) bubble bubble)).status = .FaultInvalidCondition ∧
    (stepped (piped (latch .op 0 14 0) bubble bubble bubble)).status = .FaultInvalidRegister ∧
    (stepped (small.setPc 0x400)).status = .FaultMemoryBounds ∧
    (stepped (small.storeMem (small.mem.writeByte 0 0x6F))).status = .FaultInvalidOpcode ∧
    (stepped busy).status = .Continue := by decide +kernel
/-- The hypotheses of each of its five clauses. -/
theorem witness_WhatAFaultLeaves : (piped bubble bubble bubble (latch .irmov 0 15 8)).M.BadDestination ∧
    (piped bubble bubble { latch .push 0 0 15 with valE := 0x3F9 } bubble).E.BadAddress 0x400 ∧
    (piped bubble (latch .jump 7 15 15) bubble bubble).squash.D.BadCondition ∧
    (piped (latch .op 0 14 0) bubble bubble bubble).squash.cycleFault = some .invalidRegister ∧
    (small.setPc 0x400).squash.fetchFault ≠ none ∧ ¬ (small.setPc 0x400).squash.MustStall ∧
    ¬ (small.setPc 0x400).squash.MustHold := by decide +kernel
/-- R140, with a `mrmovq` in `M`, a store in `E` and an `irmovq` in `D`: a Decode fault keeps what these three wrote, and `D`; a
Fetch fault lets Decode's instruction on too. -/
theorem test_faults_keep_older_writes : (fun s t : State =>
      t.status = .FaultInvalidRegister ∧ t.W = s.M ∧ t.mem = s.mem.write64 0x20 0 ∧ t.E.regB = 3 ∧ t.D = s.D ∧
      t.lock = #v[false, false, false, true, false, false, false, false])
      { busy with F := latch .op 0 14 0 } (stepped { busy with F := latch .op 0 14 0 }) ∧
    (fun t : State => t.status = .FaultMemoryBounds ∧ t.F = busy.F ∧ t.D.icode = .op ∧
      t.lock = #v[false, false, true, true, false, false, false, false]) (stepped (busy.setPc 0x400)) := by decide +kernel
theorem witness_StepKeepsMemoryForm : (busy.mem.write64 0 1).wf := by decide +kernel
theorem witness_StepKeepsSound : busy.Sound ∧ (stepped busy).status = .Continue := ⟨busy_sound, by decide +kernel⟩
theorem witness_WritebackFaultUnreachable : busy.Sound ∧ busy.status = .Continue := ⟨busy_sound, rfl⟩
/-- Decode stalls in three cycles in a row: the instruction in `F` waits for the one in `D`. -/
theorem witness_DecodeStallEndsWithinThreeCycles : waiting.Sound ∧ waiting.status = .Continue ∧
    (stepped waiting).status = .Continue ∧ (stepped (stepped waiting)).status = .Continue ∧
    (stepped (stepped (stepped waiting))).status = .Continue ∧ waiting.squash.MustStall ∧
    (stepped waiting).squash.MustStall ∧ (stepped (stepped waiting)).squash.MustStall := ⟨waiting_sound, by decide +kernel⟩
/-- One instruction among others, and a halt. -/
theorem witness_AcceptedInstructionCommitsInThreeCycles : (fun s : State =>
      s.status = .Continue ∧ ¬ s.squash.MustStall ∧ (stepped s).status = .Continue ∧ (stepped (stepped s)).status = .Continue ∧
      (stepped (stepped (stepped s))).status = .Continue ∧ (stepped s).mispred = false ∧ s.squash.F.icode = .halt)
      (piped (latch .halt 0 15 15) bubble bubble bubble) ∧ busy.status = .Continue ∧ ¬ busy.squash.MustStall ∧
    (stepped busy).status = .Continue ∧ (stepped (stepped busy)).status = .Continue ∧
    (stepped (stepped (stepped busy))).status = .Continue ∧ (stepped (stepped (stepped (stepped busy)))).status = .Continue ∧
    (stepped busy).mispred = false := by decide +kernel
theorem witness_WrongPathLeavesNoTrace : mispredicted.Sound ∧ mispredictedAlone.Sound ∧ mispredicted.status = .Continue ∧
    mispredicted.mispred = true ∧
    { mispredictedAlone with F := mispredicted.F, D := mispredicted.D, pc := mispredicted.pc, lock := mispredicted.lock } =
      mispredicted :=
  ⟨mispredicted_sound, mispredictedAlone_sound, by decide +kernel⟩
/-- The two cases: an instruction is fetched and survives; Decode stalls. -/
theorem witness_PipelineAgreesWithSequentialExecution :
    (busy.Sound ∧ busy.status = .Continue ∧ busy.mem.capacity < 2 ^ 64 ∧ (stepped busy).status = .Continue ∧
      (drain drainBound busy).status = .Continue ∧ busy.fetchReady = true ∧
      parse (busy.mem.fetchWindow busy.fetchAddress) = .ok (Fields.opcode .halt 0) ∧ (stepped busy).mispred = false ∧
      (stepped busy).D.icode ≠ .jump ∧ (passThrough (Fields.opcode .halt 0) (drain drainBound busy)).faulted = false) ∧
    (waiting.Sound ∧ (stepped waiting).status = .Continue ∧ (drain drainBound waiting).status = .Continue ∧
      waiting.fetchReady = false ∧ (drain drainBound (stepped waiting)).faulted = false) :=
  ⟨⟨busy_sound, by decide +kernel, by decide +kernel, by decide +kernel, by decide +kernel, by decide +kernel, rfl,
    by decide +kernel⟩, waiting_sound, by decide +kernel⟩
/-- The last place where the five halts fit. -/
theorem witness_HaltTakesFiveCycles : (small.setPc 0x3FB).Quiescent ∧ (small.setPc 0x3FB).pc.toNat + 5 ≤ 0x400 ∧
    ∀ k < 5, (small.setPc 0x3FB).mem.readByte (0x3FB + k) = 0 := by decide +kernel
theorem witness_StepRunsTheDecodedInstruction : busy.status = .Continue ∧ busy.fetchReady = true ∧
    decode (busy.mem.fetchWindow busy.fetchAddress) = .ok (.halt 0) := ⟨rfl, by decide, rfl⟩
/-- The last place where each fits. -/
theorem witness_HaltAndNopComplete : (small.setPc 0x3FF).Ready (.nop 15) ∧ (small.setPc 0x3FF).Ready (.halt 0) := by decide
theorem witness_MovesComplete : ∀ i ∈ [Instr.rrmovq 0 7, .cmovle 7 0, .cmovl 0 3, .cmove 0 0, .cmovne 0 3, .cmovge 0 3, .cmovg 0 3],
    (small.setPc 0x3FE).Ready i := by decide
theorem witness_IrmovqCompletes : (7 : Nibble).toNat < 8 ∧ (small.setPc 0x3F6).Ready (.irmovq 0 7 0) := by decide
/-- The last address in bounds, reached by wrapping. -/
theorem witness_RmmovqCompletes : small.Ready (.rmmovq 0 7 4 0x2F8) ∧
    (RegFile.read small.x 4 + 0x2F8).toNat + 8 ≤ small.mem.capacity ∧
    (RegFile.read small.x 4 + 0xFFFFFFFFFFFFFF00).toNat + 8 ≤ small.mem.capacity := by decide
theorem witness_MrmovqCompletes : small.Ready (.mrmovq 0 7 4 0x2F8) ∧
    (RegFile.read small.x 4 + 0x2F8).toNat + 8 ≤ small.mem.capacity := by decide
theorem witness_AluCompletes : ∀ i ∈ [Instr.addq 0 7, .subq 7 0, .andq 0 0, .xorq 0 3], (small.setPc 0x3FE).Ready i := by decide
theorem witness_JumpsComplete : ∀ i ∈ [Instr.jmp 0, .jle 0, .jl 0, .je 0, .jne 0, .jge 0, .jg 0],
    (small.setPc 0x3F7).Ready i := by decide
/-- A stack pointer equal to the capacity is legal for a push. -/
theorem witness_CallCompletes : { small with x := #v[0, 0, 0, 0, 0x400, 0, 0, 0] }.Ready (.call 0 0x20) ∧
    ((0x400 : Word) - 8).toNat + 8 ≤ small.mem.capacity := by decide
theorem witness_RetCompletes : small.Ready (.ret 0) ∧ (RegFile.read small.x 4).toNat + 8 ≤ small.mem.capacity := by decide
theorem witness_PushqCompletes : small.Ready (.pushq 0 4) ∧
    (RegFile.read small.x 4 - 8).toNat + 8 ≤ small.mem.capacity := by decide
theorem witness_PopqCompletes : small.Ready (.popq 0 4) ∧ (RegFile.read small.x 4).toNat + 8 ≤ small.mem.capacity := by decide
theorem witness_InstructionFrame : small.Quiescent ∧ (after (.call 0 0x20) small).faulted = false ∧
    Instr.storeAddress small.x (.call 0 0x20) = some 0xF8 ∧ (after (.popq 0 3) small).faulted = false := by decide +kernel
theorem witness_WhenAnInstructionFaults : small.Quiescent ∧ (after (.nop 0) (small.setPc 0x400)).status = .FaultMemoryBounds ∧
    (after (.addq 0 8) small).status = .FaultInvalidRegister ∧
    (after (.mrmovq 0 0 4 0x2F9) small).status = .FaultMemoryBounds := by decide +kernel
theorem witness_InstructionEndsBetweenInstructions : small.Quiescent ∧ (after (.ret 0) small).status = .Continue := by
  decide +kernel
theorem witness_CallThenRetRestores : small.Ready (.call 0 0x3FF) ∧ (0x3FF : Word).toNat + 1 ≤ small.mem.capacity ∧
    (RegFile.read small.x 4 - 8).toNat + 8 ≤ small.mem.capacity := by decide
theorem witness_PushThenPopCopies : (small.setPc 0x3FC).Ready (.pushq 0 7) ∧
    ((small.setPc 0x3FC).pc + 2).toNat + 2 ≤ small.mem.capacity ∧
    (RegFile.read small.x 4 - 8).toNat + 8 ≤ small.mem.capacity := by decide

end Sys2Proof.Tests
end

section
/-! PROOFS. What a cycle does to the flags, to `W` and to `halted` (spec/10_state.md R17, R18). -/

namespace Sys2Proof.Machine

variable {s s0 t n n' : State} {feed : Feed}

theorem cycle_eq_of_step (h : step s = .next t) : cycle .memory s = t := by
  simpa [step] using h

theorem Latch.not_badDestination_iff (l : Latch) : ¬ l.BadDestination ↔ ∀ r ∈ l.dests, r.toNat < 8 := by
  simp [Latch.BadDestination]

/-! ### What every unit keeps, the chain of units keeps -/

section Keeps

variable {P : State → Prop} {p : Progress} {unit : State → State → Except FaultKind State}

/-- A unit that raises a fault writes nothing (R97), so what its writes keep, its run keeps. -/
theorem Progress.run_keeps (hp : P p.next) (hu : ∀ {n n'}, unit s0 n = .ok n' → P n → P n') : P (p.run unit s0).next := by
  unfold Progress.run
  split
  · exact hp
  · split
    · exact hu ‹_› hp
    · exact hp

/-- What holds after Writeback and every later unit keeps, holds after all five. -/
theorem runUnits_keeps_after_writeback (hp : P ((⟨s0, none⟩ : Progress).run writebackUnit s0).next)
    (hm : ∀ {n n'}, memoryUnit s0 n = .ok n' → P n → P n') (hx : ∀ {n n'}, executeUnit s0 n = .ok n' → P n → P n')
    (hd : ∀ {n n'}, decodeUnit s0 n = .ok n' → P n → P n') (hf : ∀ {n n'}, fetchUnit feed s0 n = .ok n' → P n → P n') :
    P (runUnits feed s0).next :=
  Progress.run_keeps (Progress.run_keeps (Progress.run_keeps (Progress.run_keeps hp hm) hx) hd) hf

end Keeps

/-! ### The flags are written only by an ALU instruction -/

/-- The three condition flags (R17). -/
def State.flags (s : State) : Bool × Bool × Bool := (s.ZF, s.SF, s.OF)

theorem State.flags_eq_iff : s.flags = t.flags ↔ s.ZF = t.ZF ∧ s.SF = t.SF ∧ s.OF = t.OF := by
  simp [State.flags]

@[simp] theorem State.flags_setFlags (s : State) (z g o : Bool) : (s.setFlags z g o).flags = (z, g, o) := rfl
@[simp] theorem State.flags_setStatus (s : State) (c : Status) : (s.setStatus c).flags = s.flags := rfl
@[simp] theorem State.flags_squash (s : State) : s.squash.flags = s.flags := by simp [State.flags]

theorem State.flags_takeFault (n : State) (r : Option FaultKind) : (n.takeFault r).flags = n.flags := by
  rw [State.takeFault_eq, State.flags_setStatus]

theorem writebackUnit_flags (h : writebackUnit s0 n = .ok n') : n'.flags = n.flags := by
  obtain ⟨-, rfl⟩ := writebackUnit_ok h; rfl

theorem memoryUnit_flags (h : memoryUnit s0 n = .ok n') : n'.flags = n.flags := by
  obtain ⟨v, a, m, rfl, -, -⟩ := memoryUnit_ok h; rfl

theorem executeUnit_flags (hop : s0.D.icode ≠ .op) (h : executeUnit s0 n = .ok n') : n'.flags = n.flags := by
  obtain ⟨e, c, z, g, o, b, a, rfl, ⟨rfl, rfl, rfl⟩ | ⟨hop', -⟩, -⟩ := executeUnit_ok h
  · rfl
  · exact absurd hop' hop

theorem decodeUnit_flags (h : decodeUnit s0 n = .ok n') : n'.flags = n.flags := by
  obtain ⟨-, ⟨-, rfl⟩ | ⟨-, rfl⟩⟩ := decodeUnit_ok h <;> rfl

theorem fetchUnit_flags (h : fetchUnit feed s0 n = .ok n') : n'.flags = n.flags := by
  obtain ⟨-, rfl⟩ | ⟨-, -, rfl⟩ | ⟨-, -, ⟨-, rfl⟩ | ⟨f, -, -, rfl⟩ | ⟨f, -, -, rfl⟩⟩ := fetchUnit_ok h <;> rfl

/-- R17, the writing half: with no ALU instruction in `D`, a cycle keeps the flags, whatever fault it may raise. -/
theorem cycle_flags_of_not_op (feed : Feed) (hop : s.squash.D.icode ≠ .op) : (cycle feed s).flags = s.flags := by
  by_cases hs : s.status = .Continue
  · rw [cycle_of_continue feed hs, State.flags_takeFault]
    refine runUnits_keeps_after_writeback (P := fun n => n.flags = s.flags)
      (Progress.run_keeps (P := fun n => n.flags = s.flags) (State.flags_squash s) ?_) ?_ ?_ ?_ ?_ <;> intro n n' h hn
    · exact (writebackUnit_flags h).trans hn
    · exact (memoryUnit_flags h).trans hn
    · exact (executeUnit_flags hop h).trans hn
    · exact (decodeUnit_flags h).trans hn
    · exact (fetchUnit_flags h).trans hn
  · rw [cycle_of_terminal feed hs]

/-- The ALU has an operation for each of its four functions. -/
theorem exists_aluResult {fn : Nibble} (h : fn.toNat ≤ 3) (a b : Word) : ∃ e, aluResult fn a b = some e := by
  unfold aluResult
  rcases (by omega : fn.toNat = 0 ∨ fn.toNat = 1 ∨ fn.toNat = 2 ∨ fn.toNat = 3) with h | h | h | h <;> simp [h]

/-- The flags an ALU instruction leaves depend on its own latch only (R87, R115). -/
theorem executeUnit_flags_of_op {e : Word} (hop : s0.D.icode = .op)
    (he : aluResult s0.D.ifun s0.D.valA s0.D.valB = some e) (h : executeUnit s0 n = .ok n') :
    n'.flags = (zeroFlag e, signFlag e, overflowFlag s0.D.ifun s0.D.valA s0.D.valB e) := by
  simp only [executeUnit, hop, he, Except.ok.injEq] at h
  rw [← h, State.flags_setFlags]

/-- A cycle in which no stage raises a fault leaves the flags of the ALU instruction in `D`. -/
theorem cycle_flags_of_op {e : Word} (hop : s.squash.D.icode = .op)
    (he : aluResult s.squash.D.ifun s.squash.D.valA s.squash.D.valB = some e) (hs : s.status = .Continue)
    (ht : (cycle feed s).status = .Continue) : (cycle feed s).flags =
      (zeroFlag e, signFlag e, overflowFlag s.squash.D.ifun s.squash.D.valA s.squash.D.valB e) := by
  obtain ⟨n1, n2, n3, n4, n5, -, -, hx, hd, hf, -, hc⟩ := cycle_clean hs ht
  rw [hc, State.flags_setStatus, fetchUnit_flags hf, decodeUnit_flags hd, executeUnit_flags_of_op hop he hx]

/-! ### The flags are read only by a conditional move or a jump

Two states are equal up to their flags when they are equal once the same flags are written into both. -/

@[simp] theorem State.setFlags_setFlags (s : State) (z g o z' g' o' : Bool) :
    (s.setFlags z g o).setFlags z' g' o' = s.setFlags z' g' o' := rfl

theorem State.eq_of_setFlags_eq {a b c : Bool} (h : s.setFlags a b c = t.setFlags a b c) (hf : s.flags = t.flags) : s = t := by
  obtain ⟨hz, hg, ho⟩ := State.flags_eq_iff.1 hf
  calc s = (s.setFlags a b c).setFlags s.ZF s.SF s.OF := rfl
    _ = (t.setFlags a b c).setFlags t.ZF t.SF t.OF := by rw [h, hz, hg, ho]
    _ = t := rfl

theorem State.squash_setFlags (s : State) (z g o : Bool) : (s.setFlags z g o).squash = s.squash.setFlags z g o := by
  unfold State.squash
  rw [State.setFlags_mispred]
  split <;> rfl

theorem State.takeFault_setFlags (n : State) (r : Option FaultKind) (z g o : Bool) :
    (n.setFlags z g o).takeFault r = (n.takeFault r).setFlags z g o := by
  unfold State.takeFault
  rw [State.setFlags_halted]
  split
  · rfl
  · cases r <;> rfl

/-- Write the flags of the state the stages have built so far. -/
def Progress.setFlags (p : Progress) (z g o : Bool) : Progress := { p with next := p.next.setFlags z g o }

/-- A unit carries the flags of the post-edge state through its writes. -/
def CarriesFlags (unit : State → State → Except FaultKind State) : Prop :=
  ∀ (s0 n : State) (z g o : Bool), unit s0 (n.setFlags z g o) = (unit s0 n).map (·.setFlags z g o)

theorem carriesFlags_writebackUnit : CarriesFlags writebackUnit := by
  intro s0 n z g o
  unfold writebackUnit
  dsimp only
  split <;> rfl

theorem carriesFlags_memoryUnit : CarriesFlags memoryUnit := by
  intro s0 n z g o
  unfold memoryUnit
  dsimp only
  split
  · rfl
  · -- the stored bytes are the same on both sides, and are not to be computed
    generalize s0.mem.write64 _ _ = m
    split <;> rfl
  · split
    · split <;> rfl
    · rfl

theorem carriesFlags_decodeUnit : CarriesFlags decodeUnit := by
  intro s0 n z g o
  unfold decodeUnit
  dsimp only
  split
  · rfl
  · split <;> rfl

theorem carriesFlags_fetchUnit (feed : Feed) : CarriesFlags (fetchUnit feed) := by
  intro s0 n z g o
  unfold fetchUnit
  split
  · rfl
  · split
    · rfl
    · cases feed with
      | idle => rfl
      | present f => dsimp only; split <;> rfl
      | memory => dsimp only; split <;> rfl

/-- R17, the reading half for Execute: a class with no condition leaves states equal up to their flags, whatever the flags of
the snapshot and of the post-edge state are. -/
theorem executeUnit_setFlags (hc : s0.D.icode ≠ .cmov) (hj : s0.D.icode ≠ .jump) (n : State) (z g o z' g' o' a b c : Bool) :
    (executeUnit (s0.setFlags z g o) (n.setFlags z' g' o')).map (·.setFlags a b c) =
      (executeUnit s0 n).map (·.setFlags a b c) := by
  unfold executeUnit
  cases h : s0.D.icode
  case cmov => exact absurd h hc
  case jump => exact absurd h hj
  case op => cases h' : aluResult s0.D.ifun s0.D.valA s0.D.valB <;> simp [h, h', Except.map] <;> rfl
  all_goals
    simp only [State.setFlags_D, h, Except.map]
    rfl

theorem Progress.run_setFlags {unit : State → State → Except FaultKind State} (hu : CarriesFlags unit) (p : Progress)
    (s0 : State) (z g o : Bool) : (p.setFlags z g o).run unit s0 = (p.run unit s0).setFlags z g o := by
  obtain ⟨n, r⟩ := p
  cases r with
  | some k => rfl
  | none =>
    simp only [Progress.run, Progress.setFlags, hu s0 n z g o]
    cases unit s0 n <;> rfl

theorem Progress.run_executeUnit_setFlags (hc : s0.D.icode ≠ .cmov) (hj : s0.D.icode ≠ .jump) (p : Progress)
    (z g o a b c : Bool) : ((p.setFlags z g o).run executeUnit (s0.setFlags z g o)).setFlags a b c =
      (p.run executeUnit s0).setFlags a b c := by
  obtain ⟨n, r⟩ := p
  cases r with
  | some k => rfl
  | none =>
    have h := executeUnit_setFlags hc hj n z g o z g o a b c
    simp only [Progress.run, Progress.setFlags] at h ⊢
    cases h1 : executeUnit (s0.setFlags z g o) (n.setFlags z g o) <;> cases h2 : executeUnit s0 n <;>
      simp_all [Except.map]

/-- The other four units read no flag of the snapshot. -/
theorem runUnits_setFlags (feed : Feed) (hc : s0.D.icode ≠ .cmov) (hj : s0.D.icode ≠ .jump) (z g o a b c : Bool) :
    (runUnits feed (s0.setFlags z g o)).setFlags a b c = (runUnits feed s0).setFlags a b c := by
  have carried := fun U hU p => Progress.run_setFlags (unit := U) hU p s0
  calc (runUnits feed (s0.setFlags z g o)).setFlags a b c
      = (((((((⟨s0, none⟩ : Progress).setFlags z g o).run writebackUnit s0).run memoryUnit s0).run executeUnit
          (s0.setFlags z g o)).run decodeUnit s0).run (fetchUnit feed) s0).setFlags a b c := rfl
    _ = (runUnits feed s0).setFlags a b c := by
      simp only [runUnits, carried _ carriesFlags_writebackUnit, carried _ carriesFlags_memoryUnit,
        ← carried _ carriesFlags_decodeUnit, ← carried _ (carriesFlags_fetchUnit feed),
        Progress.run_executeUnit_setFlags hc hj]

/-- R17, the reading half: with no conditional move and no jump in `D`, a cycle does the same up to the flags, whatever they
are. -/
theorem cycle_setFlags (feed : Feed) (hc : s.squash.D.icode ≠ .cmov) (hj : s.squash.D.icode ≠ .jump) (z g o a b c : Bool) :
    (cycle feed (s.setFlags z g o)).setFlags a b c = (cycle feed s).setFlags a b c := by
  by_cases hs : s.status = .Continue
  · have h := runUnits_setFlags feed hc hj z g o a b c
    rw [cycle_of_continue feed hs, cycle_of_continue feed (s := s.setFlags z g o) hs, State.squash_setFlags,
      ← State.takeFault_setFlags, ← State.takeFault_setFlags]
    rw [Progress.mk.injEq] at h
    exact congrArg₂ State.takeFault h.1 h.2
  · rw [cycle_of_terminal feed hs, cycle_of_terminal feed (s := s.setFlags z g o) hs, State.setFlags_setFlags]

/-- Settles O21: the cycle of the state with other flags is equal to that of the state itself up to the flags, and after an ALU
instruction that passes Execute the flags agree too. -/
theorem flagsWrittenByAluReadByConditions : Obligations.FlagsWrittenByAluReadByConditions := by
  intro s t ht
  obtain rfl := cycle_eq_of_step ht
  refine ⟨fun hop => State.flags_eq_iff.1 (cycle_flags_of_not_op .memory hop), fun hc hj z g o => ?_⟩
  have same := cycle_setFlags .memory hc hj z g o
  refine ⟨cycle .memory (s.setFlags z g o), rfl, same _ _ _, fun hop hfn hcont => ?_⟩
  by_cases hs : s.status = .Continue
  · obtain ⟨e, he⟩ := exists_aluResult hfn s.squash.D.valA s.squash.D.valB
    have hD : (s.setFlags z g o).squash.D = s.squash.D := by rw [State.squash_setFlags, State.setFlags_D]
    have hu : (cycle .memory (s.setFlags z g o)).status = .Continue :=
      (congrArg State.status (same false false false)).trans hcont
    refine State.eq_of_setFlags_eq (same false false false) ?_
    rw [cycle_flags_of_op hop he hs hcont, ← hD]
    rw [← hD] at hop he
    exact cycle_flags_of_op hop he hs hu
  · exact absurd (cycle_of_terminal .memory hs ▸ hcont) hs

/-! ### `W` and `halted`: written by Writeback, and `W` read by no stage -/

/-- Writeback's work stands while nothing writes the registers, `W` or the halted flag. -/
theorem State.WritebackDone.of_fields (h : s.WritebackDone n) (hx : n'.x = n.x) (hW : n'.W = n.W)
    (hh : n'.halted = n.halted) : s.WritebackDone n' :=
  ⟨hx.trans h.registers, hW.trans h.record, hh.trans h.halted⟩

/-- With valid destinations in `M`, every running cycle commits, records and marks its instruction, whatever a younger stage
may raise (R92, R95, R96). -/
theorem cycle_writebackDone (feed : Feed) (hs : s.status = .Continue) (hv : ∀ r ∈ s.M.dests, r.toNat < 8) :
    s.squash.WritebackDone (cycle feed s) := by
  rw [cycle_of_continue feed hs, State.takeFault_eq]
  refine State.WritebackDone.of_fields (runUnits_keeps_after_writeback (feed := feed) ?_ ?_ ?_ ?_ ?_) rfl rfl rfl
  · rw [Progress.run, writebackUnit_of_valid _ _ (by rwa [State.squash_M])]
    exact ⟨rfl, rfl, rfl⟩
  all_goals intro n n' h hn
  · obtain ⟨v, a, m, rfl, -, -⟩ := memoryUnit_ok h; exact hn.of_fields rfl rfl rfl
  · obtain ⟨e, c, z, g, o, b, a, rfl, -, -⟩ := executeUnit_ok h; exact hn.of_fields rfl rfl rfl
  · obtain ⟨-, ⟨-, rfl⟩ | ⟨-, rfl⟩⟩ := decodeUnit_ok h <;> exact hn.of_fields rfl rfl rfl
  · obtain ⟨-, rfl⟩ | ⟨-, -, rfl⟩ | ⟨-, -, ⟨-, rfl⟩ | ⟨f, -, -, rfl⟩ | ⟨f, -, -, rfl⟩⟩ := fetchUnit_ok h <;>
      exact hn.of_fields rfl rfl rfl

/-- A Writeback that raises a fault ends the cycle at once: only `status` changes after the squash phase (R93, R97). -/
theorem cycle_of_writeback_error (feed : Feed) (hs : s.status = .Continue) {k : FaultKind}
    (h : writebackUnit s.squash s.squash = .error k) : cycle feed s = s.squash.takeFault (some k) := by
  rw [cycle_of_continue feed hs, runUnits_of_writeback_error h]

/-- The halted flag is set for a halt in `M`, and kept for every other instruction (R18). -/
theorem cycle_halted (feed : Feed) (hs : s.status = .Continue) :
    (cycle feed s).halted = (s.halted || decide (s.M.icode = .halt)) := by
  cases h : writebackUnit s.squash s.squash with
  | ok n =>
    obtain ⟨hv, -⟩ := writebackUnit_ok h
    rw [State.squash_M] at hv
    simpa using (cycle_writebackDone feed hs hv).halted
  | error k =>
    obtain ⟨-, r, hr, -⟩ := writebackUnit_error h
    have hM : s.M.icode ≠ .halt := by
      intro hM
      simp [Latch.dests, hM] at hr
    rw [cycle_of_writeback_error feed hs h, State.takeFault_eq]
    simp [hM]

theorem State.squash_withW (s : State) (w : Latch) : ({ s with W := w } : State).squash = { s.squash with W := w } := by
  unfold State.squash
  dsimp only
  split <;> rfl

/-- Writeback reads no `W` and writes its own. -/
theorem writebackUnit_withW (s0 n : State) (w : Latch) :
    writebackUnit { s0 with W := w } { n with W := w } = writebackUnit s0 n := rfl

/-- Writeback replaces `W`, and no unit reads it: the old record does not matter to the cycle (R96). -/
theorem runUnits_withW (feed : Feed) (hv : ∀ r ∈ s0.M.dests, r.toNat < 8) (w : Latch) :
    runUnits feed { s0 with W := w } = runUnits feed s0 := by
  have first : (⟨{ s0 with W := w }, none⟩ : Progress).run writebackUnit { s0 with W := w } =
      (⟨s0, none⟩ : Progress).run writebackUnit s0 := by
    simp only [Progress.run, writebackUnit_withW, writebackUnit_of_valid s0 s0 hv]
  calc runUnits feed { s0 with W := w }
      = (((((⟨{ s0 with W := w }, none⟩ : Progress).run writebackUnit { s0 with W := w }).run memoryUnit s0).run executeUnit
          s0).run decodeUnit s0).run (fetchUnit feed) s0 := rfl
    _ = runUnits feed s0 := by rw [first]; rfl

theorem cycle_withW (feed : Feed) (hs : s.status = .Continue) (hv : ∀ r ∈ s.M.dests, r.toNat < 8) (w : Latch) :
    cycle feed { s with W := w } = cycle feed s := by
  rw [cycle_of_continue feed hs, cycle_of_continue feed (s := { s with W := w }) hs, State.squash_withW,
    runUnits_withW feed (by rwa [State.squash_M])]

/-- Settles O29: Writeback's record and the halted flag are those of the instruction in `M`, the old record is overwritten
unread, and the flag of the next state is the old one or that of a halt. -/
theorem writebackRecordsAndHalts : Obligations.WritebackRecordsAndHalts := by
  intro s t hs ht
  obtain rfl := cycle_eq_of_step ht
  have hh := cycle_halted .memory hs
  refine ⟨fun hb => ?_, fun hM => by simp [hh, hM], fun hM => by simp [hh, hM], fun h => by simp [hh, h], rfl⟩
  have hv := s.M.not_badDestination_iff.1 hb
  refine ⟨by simpa using (cycle_writebackDone .memory hs hv).record, fun w => ?_⟩
  exact congrArg Host.Outcome.next (cycle_withW .memory hs hv w)

end Sys2Proof.Machine
end

section
/-! PROOFS. The bytes of an 8-byte access (spec/20_memory.md R36). -/

namespace Sys2Proof.Machine

theorem Memory.bytesOfWord_read64 (m : Memory) (a : Word) :
    bytesOfWord (m.read64 a) = (List.range 8).map fun k => m.readByte (a.toNat + k) :=
  bytesOfWord_wordOfBytes ..

theorem bytesOfWord_eq_map (v : Word) : bytesOfWord v = (List.range 8).map (byteOfWord v) := rfl

theorem Memory.byteOfWord_read64 (m : Memory) (a : Word) {k : Nat} (hk : k < 8) :
    byteOfWord (m.read64 a) k = m.readByte (a.toNat + k) := by
  have h := m.bytesOfWord_read64 a
  rw [bytesOfWord_eq_map] at h
  exact List.map_inj_left.1 h k (List.mem_range.2 hk)

/-- Settles O8: a store is read back byte by byte inside its 8 bytes and leaves the bytes outside them, and a load is made of
the bytes at its 8 addresses. -/
theorem memoryIsLittleEndian : Obligations.MemoryIsLittleEndian := by
  intro m a v h
  refine ⟨fun k hk => ?_, fun b hb => ?_, fun k hk => ?_⟩
  · exact Memory.readByte_write64_inside m a v k hk ((m.dataInBounds_iff a).2 h)
  · exact Memory.readByte_write64_outside m a v b hb
  · exact m.byteOfWord_read64 a hk

end Sys2Proof.Machine
end

section
/-! PROOFS. The decoder's tables in plain numbers (spec/30_encoding.md R50 to R56). -/

namespace Sys2Proof

open Sys2Proof.Machine

theorem highNibble_toNat (b : Byte) : (highNibble b).toNat = b.toNat / 16 := by
  have h := b.isLt
  simp [highNibble, BitVec.extractLsb'_toNat, Nat.shiftRight_eq_div_pow]
  omega

theorem lowNibble_toNat (b : Byte) : (lowNibble b).toNat = b.toNat % 16 := by
  simp [lowNibble, BitVec.extractLsb'_toNat]

theorem eq_noRegister_iff (r : Nibble) : r = Config.noRegister ↔ r.toNat = 15 := by
  revert r; decide

theorem IClass.ofCode_eq_none_iff (n : Nibble) : IClass.ofCode n = none ↔ 11 < n.toNat := by
  revert n; decide

theorem IClass.code_toNat_le (c : IClass) : c.code.toNat ≤ 11 := by cases c <;> decide

theorem IClass.length_eq_lengthOfCode (c : IClass) : c.length = lengthOfCode c.code.toNat := by cases c <;> rfl

theorem IClass.eq_op_iff (c : IClass) : c = .op ↔ c.code.toNat = 6 := by cases c <;> decide

theorem IClass.reservesA_iff (c : IClass) : c.reservesA = true ↔ c.code.toNat = 3 := by cases c <;> decide

theorem IClass.reservesB_iff (c : IClass) : c.reservesB = true ↔ c.code.toNat = 10 ∨ c.code.toNat = 11 := by
  cases c <;> decide

/-- A class that reserves a register field has a register byte (R50, R56). -/
theorem IClass.two_le_length_of_reserves {c : IClass} (h : c.reservesA = true ∨ c.reservesB = true) :
    c.hasRegisters = true ∧ 2 ≤ c.length := by
  revert h; cases c <;> decide

theorem lengthOfCode_le (n : Nat) : lengthOfCode n ≤ 10 := by
  unfold lengthOfCode
  split_ifs <;> omega

end Sys2Proof
end

section
/-! PROOFS. What Fetch makes of the bytes at `pc` (spec/30_encoding.md R56, spec/40_pipeline_cycle.md R73 to R76). -/

namespace Sys2Proof.Machine

variable {s : State} {f : Fields} {c : IClass}

theorem State.stall_iff (s : State) : s.stall = true ↔ s.MustStall := by
  simp [State.stall, State.MustStall, operandLocked, Config.noRegister]

theorem State.hold_iff (s : State) : s.hold = true ↔ s.MustHold := by
  simp [State.hold, or_assoc]

/-! ### The bytes Fetch has before it -/

theorem Memory.fetchWindow_getD (m : Memory) {a : Word} {k : Nat} (hk : k < 10) (h : a.toNat + k < m.capacity) :
    (m.fetchWindow a).getD k 0 = m.readByte (a.toNat + k) :=
  m.bytesUpTo_getD _ _ k hk h

theorem Memory.fetchWindow_of_lt (m : Memory) {a : Word} (h : a.toNat < m.capacity) :
    m.fetchWindow a = m.readByte a.toNat :: m.bytesUpTo (a.toNat + 1) 9 :=
  if_pos h

theorem Memory.fetchWindow_of_le (m : Memory) {a : Word} (h : m.capacity ≤ a.toNat) : m.fetchWindow a = [] :=
  if_neg (Nat.not_lt.2 h)

/-- The bytes before Fetch end before an instruction of class `c` does, exactly when memory does (R41). -/
theorem Memory.fetchWindow_length_lt_iff (m : Memory) {a : Word} (c : IClass) (h : a.toNat < m.capacity) :
    (m.fetchWindow a).length < c.length ↔ m.capacity < a.toNat + c.length := by
  have hc := c.length_le
  rw [m.fetchWindow_length]
  omega

/-- The register fields Fetch reads are those of byte 1 at `pc` (R52). -/
theorem fieldsOf_fetchWindow_registers (hr : c.hasRegisters = true) (h : s.pc.toNat + 1 < s.mem.capacity) :
    (fieldsOf c (s.mem.fetchWindow s.pc)).regA.toNat = s.regAAtPc ∧
    (fieldsOf c (s.mem.fetchWindow s.pc)).regB.toNat = s.regBAtPc := by
  have h1 := s.mem.fetchWindow_getD (k := 1) (by decide) h
  simp only [fieldsOf, hr, h1, ↓reduceIte, highNibble_toNat, lowNibble_toNat]
  exact ⟨rfl, rfl⟩

/-- The class Fetch selects has the code at `pc` (R51). -/
theorem code_eq_codeAtPc (hc : IClass.ofCode (highNibble (s.mem.readByte s.pc.toNat)) = some c) :
    c.code.toNat = s.codeAtPc := by
  rw [IClass.code_of_ofCode hc, highNibble_toNat, State.codeAtPc]

/-! ### Fetch's checks -/

/-- R56 items 1 and 2 for a byte that selects a class: only the ALU function is left to check. -/
theorem badOpcodeByte_iff (hc : c.code.toNat = s.codeAtPc) :
    s.BadOpcodeByte ↔ c = .op ∧ 3 < (lowNibble (s.mem.readByte s.pc.toNat)).toNat := by
  have hle := c.code_toNat_le
  rw [c.eq_op_iff, lowNibble_toNat, hc, ← State.functionAtPc]
  omega

/-- R56 items 3 and 4 for an instruction whose bytes are all there. -/
theorem badReservedField_iff (hc : c.code.toNat = s.codeAtPc) (hl : s.pc.toNat + c.length ≤ s.mem.capacity) :
    s.BadReservedField ↔
      (c.reservesA = true ∧ (fieldsOf c (s.mem.fetchWindow s.pc)).regA ≠ Config.noRegister) ∨
      (c.reservesB = true ∧ (fieldsOf c (s.mem.fetchWindow s.pc)).regB ≠ Config.noRegister) := by
  by_cases hres : c.reservesA = true ∨ c.reservesB = true
  · obtain ⟨hr, h2⟩ := IClass.two_le_length_of_reserves hres
    obtain ⟨hA, hB⟩ := fieldsOf_fetchWindow_registers hr (s := s) (by omega)
    rw [Ne, Ne, eq_noRegister_iff, eq_noRegister_iff, hA, hB, c.reservesA_iff, c.reservesB_iff, hc]
  · have hcode := hres
    rw [c.reservesA_iff, c.reservesB_iff, hc] at hcode
    unfold State.BadReservedField
    tauto

/-- Fetch's checks behind byte 0, with the two reserved fields in one (R73). -/
theorem parse_of_class {w tail : List Byte} {b0 : Byte} (hw : w = b0 :: tail)
    (hc : IClass.ofCode (highNibble b0) = some c) : parse w =
      if c = .op ∧ 3 < (lowNibble b0).toNat then .error .invalidOpcode
      else if w.length < c.length then .error .truncated
      else if (c.reservesA = true ∧ (fieldsOf c w).regA ≠ Config.noRegister) ∨
          (c.reservesB = true ∧ (fieldsOf c w).regB ≠ Config.noRegister) then .error .invalidOpcode
      else .ok (fieldsOf c w) := by
  subst hw
  simp only [parse, hc, ite_or]

/-- Fetch's parse of the bytes at `pc` raises the fault that `fetchFault` states from the text of R56 and R73, and reads an
instruction when it states none. -/
theorem parse_fetchWindow (s : State) :
    (∃ f, parse (s.mem.fetchWindow s.pc) = .ok f ∧ s.fetchFault = none) ∨
    ∃ r, parse (s.mem.fetchWindow s.pc) = .error r ∧ s.fetchFault = some (FaultKind.ofReject r) := by
  unfold State.fetchFault
  by_cases hpc : s.mem.capacity ≤ s.pc.toNat
  · rw [if_pos hpc, s.mem.fetchWindow_of_le hpc]
    exact .inr ⟨.truncated, rfl, rfl⟩
  have hlt := Nat.lt_of_not_le hpc
  have hw := s.mem.fetchWindow_of_lt hlt
  rw [if_neg hpc]
  cases hc : IClass.ofCode (highNibble (s.mem.readByte s.pc.toNat)) with
  | none =>
    have hbad : s.BadOpcodeByte := by
      rw [IClass.ofCode_eq_none_iff, highNibble_toNat] at hc
      exact .inl hc
    rw [if_pos hbad]
    exact .inr ⟨.invalidOpcode, by rw [hw]; simp only [parse, hc], rfl⟩
  | some c =>
    have hcode := code_eq_codeAtPc hc
    have hlen : c.length = lengthOfCode s.codeAtPc := by rw [c.length_eq_lengthOfCode, hcode]
    have hres := badReservedField_iff hcode
    rw [parse_of_class hw hc, if_congr (badOpcodeByte_iff hcode).symm rfl
      (if_congr (s.mem.fetchWindow_length_lt_iff c hlt) rfl rfl), ← hlen]
    split_ifs with hO hL hF hR hR
    · exact .inr ⟨.invalidOpcode, rfl, rfl⟩
    · exact .inr ⟨.truncated, rfl, rfl⟩
    · exact .inr ⟨.invalidOpcode, rfl, rfl⟩
    · exact absurd ((hres (Nat.le_of_not_lt hL)).2 hF) hR
    · exact absurd ((hres (Nat.le_of_not_lt hL)).1 hR) hF
    · exact .inl ⟨_, rfl, rfl⟩

/-- Far enough from the end of memory, the fetch at `pc` raises a fault exactly for the list of R56. -/
theorem fetchFault_eq_invalidOpcode_iff (h : s.pc.toNat + 10 ≤ s.mem.capacity) :
    s.fetchFault = some .invalidOpcode ↔ s.BadOpcodeByte ∨ s.BadReservedField := by
  have hl := lengthOfCode_le s.codeAtPc
  rw [State.fetchFault, if_neg (by omega)]
  split_ifs with hO hL hR
  · exact iff_of_true rfl (.inl hO)
  · omega
  · exact iff_of_true rfl (.inr hR)
  · exact iff_of_false nofun (not_or.2 ⟨hO, hR⟩)

/-! ### Fetch into an empty pipeline -/

/-- With nothing in flight, the four units before Fetch pass bubbles on and raise nothing. -/
theorem units_before_fetch_of_quiescent (hq : s.Quiescent) : ∃ n1 n2 n3 n4, writebackUnit s s = .ok n1 ∧
    memoryUnit s n1 = .ok n2 ∧ executeUnit s n2 = .ok n3 ∧ decodeUnit s n3 = .ok n4 ∧ n4.halted = false := by
  obtain ⟨-, hh, -, -, hF, hD, hE, hM⟩ := hq
  exact ⟨_, _, _, _, writebackUnit_bubble s hM, memoryUnit_bubble _ hE, executeUnit_bubble _ hD, decodeUnit_empty _ (.inl hF), hh⟩

theorem not_stall_hold_of_quiescent (hq : s.Quiescent) : s.stall = false ∧ s.hold = false := by
  obtain ⟨-, -, -, -, hF, hD, hE, -⟩ := hq
  exact ⟨stall_of_empty (.inl hF), by simp [State.hold, hF, hD, hE]⟩

theorem State.takeFault_status {n : State} (r : Option FaultKind) (h : n.halted = false) :
    (n.takeFault r).status = r.elim .Continue FaultKind.code := by
  cases r <;> simp [State.takeFault, h]

/-- In a cycle with nothing in flight only Fetch can raise a fault. -/
theorem cycle_status_of_quiescent (hq : s.Quiescent) :
    (cycle .memory s).status = s.fetchFault.elim .Continue FaultKind.code := by
  obtain ⟨n1, n2, n3, n4, h1, h2, h3, h4, hh⟩ := units_before_fetch_of_quiescent hq
  obtain ⟨hst, hho⟩ := not_stall_hold_of_quiescent hq
  obtain ⟨hs, -, hm, -⟩ := hq
  rw [cycle_of_continue _ hs, s.squash_of_not_mispred hm]
  rcases parse_fetchWindow s with ⟨f, hp, hf⟩ | ⟨r, hp, hf⟩
  · have h5 : fetchUnit .memory s n4 = .ok (n4.fetched (fetchedLatch f s.pc)) := by simp [fetchUnit, hst, hho, hp]
    rw [runUnits_of_ok h1 h2 h3 h4 h5, hf]
    exact State.takeFault_status _ hh
  · have h5 : fetchUnit .memory s n4 = .error (FaultKind.ofReject r) := by simp [fetchUnit, hst, hho, hp]
    rw [runUnits_of_fetch_error h1 h2 h3 h4 h5, hf]
    exact State.takeFault_status _ hh

theorem elim_code_eq_invalidOpcode_iff (o : Option FaultKind) :
    o.elim Status.Continue FaultKind.code = .FaultInvalidOpcode ↔ o = some .invalidOpcode := by
  rcases o with - | k
  · decide
  · cases k <;> decide

/-- Settles O4: with nothing in flight the status is that of the fetch, whose checks are `fetchFault`, and ten bytes before the
end of memory leave of these the four items of R56. -/
theorem encodingsFetchRejects : Obligations.EncodingsFetchRejects := by
  intro s t hq hpc ht
  rw [← cycle_eq_of_step ht, cycle_status_of_quiescent hq, elim_code_eq_invalidOpcode_iff,
    fetchFault_eq_invalidOpcode_iff hpc, or_assoc]

/-! ### What a fetch writes -/

/-- A cycle that raises nothing, with Fetch neither stalled nor held, latches the fields of the bytes at `pc` and predicts
(R72 to R76). -/
theorem cycle_fetches (hs : s.status = .Continue) (ht : (cycle .memory s).status = .Continue) (hst : ¬ s.squash.MustStall)
    (hho : ¬ s.squash.MustHold) : ∃ f, parse (s.squash.mem.fetchWindow s.squash.pc) = .ok f ∧
      (cycle .memory s).F = fetchedLatch f s.squash.pc ∧ (cycle .memory s).pc = predictedPc (cycle .memory s).F := by
  obtain ⟨n1, n2, n3, n4, n5, -, -, -, -, h5, -, hc⟩ := cycle_clean hs ht
  rw [← State.stall_iff] at hst
  rw [← State.hold_iff] at hho
  rcases fetchUnit_ok h5 with ⟨h, -⟩ | ⟨-, h, -⟩ | ⟨-, -, ⟨h, -⟩ | ⟨f, h, -⟩ | ⟨f, -, hp, rfl⟩⟩
  · exact absurd h hst
  · exact absurd h hho
  · cases h
  · cases h
  · exact ⟨f, hp, by rw [hc]; rfl, by rw [hc]; rfl⟩

theorem code_of_parse_fetchWindow (h : parse (s.mem.fetchWindow s.pc) = .ok f) : f.icode.code.toNat = s.codeAtPc := by
  obtain ⟨hc, -, hl, -⟩ := parse_ok h
  have hpos := f.icode.length_pos
  rw [s.mem.fetchWindow_length] at hl
  rw [s.mem.fetchWindow_getD (k := 0) (by decide) (by omega)] at hc
  exact code_eq_codeAtPc hc

theorem fetchedLatch_valP (f : Fields) (a : Word) :
    (fetchedLatch f a).valP = a + BitVec.ofNat 64 (lengthOfCode f.icode.code.toNat) := by
  rw [← f.icode.length_eq_lengthOfCode, fetchedLatch]

/-- The static predictor by opcode numbers (R76). -/
theorem predictedPc_eq (l : Latch) :
    predictedPc l = if l.icode.code.toNat = 7 ∨ l.icode.code.toNat = 8 then l.valC else l.valP := by
  unfold predictedPc
  cases l.icode <;> rfl

/-- Settles O15: the latched class has the code at `pc`, which fixes the length in `valP` and what the predictor takes. -/
theorem fetchPredictsTaken : Obligations.FetchPredictsTaken := by
  intro s t hs ht hcont hst hho
  obtain rfl := cycle_eq_of_step ht
  obtain ⟨f, hp, hF, hpc⟩ := cycle_fetches hs hcont hst hho
  rw [hpc, predictedPc_eq, hF, fetchedLatch_valP, ← code_of_parse_fetchWindow hp]
  exact ⟨rfl, rfl⟩

end Sys2Proof.Machine
end

section
/-! PROOFS. The locks and the misprediction signal in one cycle (spec/40_pipeline_cycle.md R77, R81, R88, R94). -/

namespace Sys2Proof.Machine

variable {s s0 n n' : State} {r : Nibble} {feed : Feed}

/-! ### Decode waits for a locked register -/

/-- While Decode stalls, only a return in `E` writes `pc`: Fetch does not run, whatever fault an older stage may raise (R77,
R90). -/
theorem cycle_pc_of_stall (feed : Feed) (hs : s.status = .Continue) (hst : s.squash.stall = true) (hret : s.E.icode ≠ .ret) :
    (cycle feed s).pc = s.squash.pc := by
  rw [← State.squash_E] at hret
  rw [cycle_of_continue feed hs, State.takeFault_eq, State.setStatus_pc]
  refine runUnits_keeps_after_writeback (P := fun n => n.pc = s.squash.pc)
    (Progress.run_keeps (P := fun n => n.pc = s.squash.pc) rfl ?_) ?_ ?_ ?_ ?_ <;> intro n n' h hn
  · obtain ⟨-, rfl⟩ := writebackUnit_ok h; exact hn
  · obtain ⟨v, a, m, rfl, -, ha⟩ := memoryUnit_ok h; exact (ha.resolve_right hret).trans hn
  · obtain ⟨e, c, z, g, o, b, a, rfl, -, -⟩ := executeUnit_ok h; exact hn
  · obtain ⟨-, ⟨-, rfl⟩ | ⟨-, rfl⟩⟩ := decodeUnit_ok h <;> exact hn
  · obtain ⟨-, rfl⟩ := (fetchUnit_ok h).resolve_right (by simp [hst]); exact hn

/-- Settles O19: with Decode stalling, `F` is only marked, Fetch leaves `pc` alone, and the only lock writes are Writeback's
releases. -/
theorem decodeStallFreezesFetch : Obligations.DecodeStallFreezesFetch := by
  intro s t hs ht hcont hst
  obtain rfl := cycle_eq_of_step ht
  rw [← State.stall_iff] at hst
  obtain ⟨hv, -, -, -, -, -, -, -, -, ⟨-, -, hF, hlock⟩ | ⟨hno, -⟩, -⟩ := cycle_shape hs hcont
  · refine ⟨hF, cycle_pc_of_stall .memory hs hst, fun r hr => ?_⟩
    rw [hlock, LockTable.isLocked_putAll _ _ _ _ hv] at hr
    split at hr
    · cases hr
    · exact hr
  · rw [hno] at hst; cases hst

/-! ### Execute signals a jump that is not taken -/

/-- Execute on a jump signals exactly when the condition it leaves in `E` is false, with the jump's own `valP` (R88). -/
theorem executeUnit_jump (hj : s0.D.icode = .jump) (h : executeUnit s0 n = .ok n') :
    n'.mispred = (n.mispred || !n'.E.cnd) ∧ n'.mispredPC = if n'.E.cnd then n.mispredPC else s0.D.valP := by
  simp only [executeUnit, hj] at h
  split at h
  · cases h
  · rename_i c _
    obtain rfl := Except.ok.inj h
    cases c <;> simp

/-- Execute on any other class signals nothing (R88). -/
theorem executeUnit_not_jump (hj : s0.D.icode ≠ .jump) (h : executeUnit s0 n = .ok n') :
    n'.mispred = n.mispred ∧ n'.mispredPC = n.mispredPC := by
  obtain ⟨e, c, z, g, o, b, a, rfl, -, hm | ⟨hj', -⟩⟩ := executeUnit_ok h
  · exact hm
  · exact absurd hj' hj

/-- In a cycle that raises nothing, `E` and the misprediction registers are as Execute leaves them, and Execute finds no signal
pending: the squash phase has cleared it (R70, R88). -/
theorem cycle_executes (hs : s.status = .Continue) (ht : (cycle feed s).status = .Continue) :
    ∃ n n', executeUnit s.squash n = .ok n' ∧ n.mispred = false ∧ n.mispredPC = s.mispredPC ∧
      (cycle feed s).E = n'.E ∧ (cycle feed s).mispred = n'.mispred ∧ (cycle feed s).mispredPC = n'.mispredPC := by
  obtain ⟨n1, n2, n3, n4, n5, h1, h2, h3, h4, h5, -, hc⟩ := cycle_clean hs ht
  have before : n2.mispred = false ∧ n2.mispredPC = s.mispredPC := by
    obtain ⟨-, rfl⟩ := writebackUnit_ok h1
    obtain ⟨v, a, m, rfl, -, -⟩ := memoryUnit_ok h2
    exact ⟨s.squash_mispred, s.squash_mispredPC⟩
  have decoded : n4.E = n3.E ∧ n4.mispred = n3.mispred ∧ n4.mispredPC = n3.mispredPC := by
    obtain ⟨-, ⟨-, rfl⟩ | ⟨-, rfl⟩⟩ := decodeUnit_ok h4 <;> exact ⟨rfl, rfl, rfl⟩
  have fetched : n5.E = n4.E ∧ n5.mispred = n4.mispred ∧ n5.mispredPC = n4.mispredPC := by
    obtain ⟨-, rfl⟩ | ⟨-, -, rfl⟩ | ⟨-, -, ⟨-, rfl⟩ | ⟨f, -, -, rfl⟩ | ⟨f, -, -, rfl⟩⟩ := fetchUnit_ok h5 <;>
      exact ⟨rfl, rfl, rfl⟩
  obtain ⟨hE4, hm4, hp4⟩ := decoded
  obtain ⟨hE5, hm5, hp5⟩ := fetched
  rw [hc]
  exact ⟨n2, n3, h3, before.1, before.2, hE5.trans hE4, hm5.trans hm4, hp5.trans hp4⟩

/-- Settles O25: the next state's signal is Execute's, which for a jump follows the recorded condition and for every other
class is absent. -/
theorem mispredictionSignal : Obligations.MispredictionSignal := by
  intro s t hs ht hcont
  obtain rfl := cycle_eq_of_step ht
  obtain ⟨n, n', hx, hm, hp, hE, hm', hp'⟩ := cycle_executes hs hcont
  rw [hE, hm', hp', ← hp]
  refine ⟨fun hj hc => ?_, fun hj hc => ?_, fun hj => ?_⟩
  · simpa [hc] using executeUnit_jump hj hx
  · simpa [hc, hm] using executeUnit_jump hj hx
  · simpa [hm] using executeUnit_not_jump hj hx

/-! ### Writeback's releases stand -/

/-- Decode takes no lock that the snapshot already holds: every destination it locks is an operand it has found free. -/
theorem decodeUnit_isLocked_of_locked (hl : s0.lock.isLocked r = true) (h : decodeUnit s0 n = .ok n') :
    n'.lock.isLocked r = n.lock.isLocked r := by
  obtain ⟨hf, ⟨-, rfl⟩ | ⟨hst, rfl⟩⟩ := decodeUnit_ok h
  · rfl
  · have hd := dests_of_no_registerFault hf
    have hr : r ∉ s0.F.dests := by
      intro hm
      obtain ⟨h8, hop⟩ := hd r hm
      rw [operand_unlocked hst hop h8] at hl
      cases hl
    rw [State.accept_lock, LockTable.isLocked_putAll _ _ _ _ fun q hq => (hd q hq).1, if_neg hr]

/-- Writeback frees the destinations of its instruction (R94). -/
theorem writebackUnit_releases (hr : r ∈ s0.M.dests) (h : writebackUnit s0 n = .ok n') : n'.lock.isLocked r = false := by
  obtain ⟨hv, rfl⟩ := writebackUnit_ok h
  rw [State.retire_lock, LockTable.isLocked_putAll _ _ _ _ hv, if_pos hr]

/-- The locks of a retiring instruction are free after the cycle, whatever fault it may raise: the snapshot holds them, so
Decode, which sees the snapshot, does not take them again in the same cycle (R71, R94). -/
theorem cycle_releases (feed : Feed) (hs : s.status = .Continue) (hi : s.squash.PipelineInv) (hr : r ∈ s.squash.M.dests) :
    (cycle feed s).lock.isLocked r = false := by
  have hl : s.squash.lock.isLocked r = true := (hi.locked r (hi.validM r hr)).2 (.inr (.inr hr))
  rw [cycle_of_continue feed hs, State.takeFault_eq, State.setStatus_lock]
  refine runUnits_keeps_after_writeback (P := fun n => n.lock.isLocked r = false) ?_ ?_ ?_ ?_ ?_
  · have hw := writebackUnit_of_valid s.squash s.squash hi.validM
    rw [Progress.run, hw]
    exact writebackUnit_releases hr hw
  all_goals intro n n' h hn
  · obtain ⟨v, a, m, rfl, -, -⟩ := memoryUnit_ok h; exact hn
  · obtain ⟨e, c, z, g, o, b, a, rfl, -, -⟩ := executeUnit_ok h; exact hn
  · exact (decodeUnit_isLocked_of_locked hl h).trans hn
  · obtain ⟨-, rfl⟩ | ⟨-, -, rfl⟩ | ⟨-, -, ⟨-, rfl⟩ | ⟨f, -, -, rfl⟩ | ⟨f, -, -, rfl⟩⟩ := fetchUnit_ok h <;> exact hn

/-- Settles O30: soundness gives the snapshot the lock invariant, under which what the instruction in `M` held is free after
the cycle. -/
theorem writebackReleasesLocks : Obligations.WritebackReleasesLocks := by
  intro s t hsound hs ht r hr
  obtain rfl := cycle_eq_of_step ht
  exact cycle_releases .memory hs (squash_inv (hsound hs)) (by rwa [State.squash_M])

end Sys2Proof.Machine
end

section
/-! PROOFS. The condition a conditional move or a jump records (spec/42_moves.md R102, spec/30_encoding.md R58). -/

namespace Sys2Proof.Machine

variable {s s0 n n' : State} {feed : Feed}

/-! ### The source's formulas, as relations between the flags

One lemma per function code; `l` and `ge` carry the extra `ZF` terms of the source (R102). -/

section Formulas

variable {z g o c : Bool}

/-- A condition whose value is the Boolean form of `p` is recorded as true exactly when `p` holds. -/
theorem condition_eq_some_iff {fn : Nibble} {b : Bool} {p : Prop} (h : condition fn z g o = some b) (hb : b = true ↔ p) :
    condition fn z g o = some c ↔ (c = true ↔ p) := by
  rw [h, Option.some_inj, eq_comm, Bool.eq_iff_iff, hb]

theorem condition_always_iff : condition 0 z g o = some c ↔ c = true := by
  simp [condition, eq_comm]

theorem condition_le_iff : condition 1 z g o = some c ↔ (c = true ↔ z = true ∨ g ≠ o) :=
  condition_eq_some_iff rfl (by simp)

theorem condition_l_iff : condition 2 z g o = some c ↔ (c = true ↔ z = false ∧ g ≠ o) :=
  condition_eq_some_iff rfl (by simp)

theorem condition_e_iff : condition 3 z g o = some c ↔ (c = true ↔ z = true) :=
  condition_eq_some_iff rfl (by simp)

theorem condition_ne_iff : condition 4 z g o = some c ↔ (c = true ↔ z = false) :=
  condition_eq_some_iff rfl (by simp)

theorem condition_ge_iff : condition 5 z g o = some c ↔ (c = true ↔ z = true ∨ g = o) :=
  condition_eq_some_iff rfl (by simp)

theorem condition_g_iff : condition 6 z g o = some c ↔ (c = true ↔ z = false ∧ g = o) :=
  condition_eq_some_iff rfl (by simp)

theorem condition_eq_none_of_lt {fn : Nibble} (h : 6 < fn.toNat) (z g o : Bool) : condition fn z g o = none := by
  unfold condition
  split
  case h_8 => rfl
  all_goals omega

end Formulas

/-! ### From Execute to the cycle -/

/-- Execute answers for a conditional move or a jump only if the condition has a value over the snapshot's flags, which it
records (R86, R88). -/
theorem executeUnit_cnd (hd : s0.D.icode = .cmov ∨ s0.D.icode = .jump) (h : executeUnit s0 n = .ok n') :
    condition s0.D.ifun s0.ZF s0.SF s0.OF = some n'.E.cnd := by
  rcases hd with hd | hd <;> simp only [executeUnit, hd] at h <;> split at h
  · cases h
  · obtain rfl := Except.ok.inj h
    assumption
  · cases h
  · rename_i c hc
    obtain rfl := Except.ok.inj h
    cases c <;> exact hc

/-- What a cycle that raises nothing records for a conditional move or a jump: the squash phase keeps the flags, so those of the
state before the cycle decide (R70, R102). -/
theorem cycle_cnd (hs : s.status = .Continue) (ht : (cycle feed s).status = .Continue)
    (hd : s.squash.D.icode = .cmov ∨ s.squash.D.icode = .jump) :
    condition s.squash.D.ifun s.ZF s.SF s.OF = some (cycle feed s).E.cnd := by
  obtain ⟨n, n', hx, -, -, hE, -, -⟩ := cycle_executes hs ht
  simpa [hE] using executeUnit_cnd hd hx

/-- Settles O23: a cycle that goes on has recorded a value of the condition, which there is none of for a function code above 6
and which is the source's formula for the codes up to 6. -/
theorem conditionEvaluator : Obligations.ConditionEvaluator := by
  intro s t hs ht hd
  obtain rfl := cycle_eq_of_step ht
  refine ⟨fun hfn hcont => ?_, fun hcont => ?_⟩
  · have hc := cycle_cnd hs hcont hd
    rw [condition_eq_none_of_lt hfn] at hc
    cases hc
  · have hc := cycle_cnd hs hcont hd
    exact ⟨fun h => condition_always_iff.1 (h ▸ hc), fun h => condition_le_iff.1 (h ▸ hc),
      fun h => condition_l_iff.1 (h ▸ hc), fun h => condition_e_iff.1 (h ▸ hc), fun h => condition_ne_iff.1 (h ▸ hc),
      fun h => condition_ge_iff.1 (h ▸ hc), fun h => condition_g_iff.1 (h ▸ hc)⟩

end Sys2Proof.Machine
end

section
/-! PROOFS. Encoding and decoding undo each other (spec/30_encoding.md sections 1 to 3). -/

namespace Sys2Proof

open Sys2Proof.Machine

/-- Settles O1: Fetch reads back the fields that were written, and the fields of a well-formed instruction name it. -/
theorem decodeOfEncode : Obligations.DecodeOfEncode := by
  intro i rest h
  rw [decode, encode, parse_encodeFields _ i.fields_encodable]
  exact Laws.FieldsName.all i h

/-! ### What Fetch accepts are the bytes of its fields -/

theorem constantAt_cons (b : Byte) (bs : List Byte) (k : Nat) : constantAt (b :: bs) (k + 1) = constantAt bs k := by
  simp only [constantAt, Nat.add_right_comm k 1, List.getD_cons_succ]

/-- Eight bytes are those of the constant they stand for (R53). -/
theorem eq_bytesOfWord_constantAt {bs : List Byte} (h : 8 ≤ bs.length) :
    bs = bytesOfWord (constantAt bs 0) ++ bs.drop 8 := by
  match bs, h with
  | b0 :: b1 :: b2 :: b3 :: b4 :: b5 :: b6 :: b7 :: rest, _ =>
    exact congrArg (· ++ rest) (bytesOfWord_wordOfBytes b0 b1 b2 b3 b4 b5 b6 b7).symm

/-- The bytes behind the opcode byte, by the format of the class (R50). -/
theorem eq_encodeFields_tail {c : IClass} {b0 : Byte} {tail : List Byte} (h : c.length ≤ (b0 :: tail).length) :
    ∃ rest, tail =
      ((if c.hasRegisters then [byteOfNibbles (fieldsOf c (b0 :: tail)).regA (fieldsOf c (b0 :: tail)).regB] else []) ++
        (if c.hasConstant then bytesOfWord (fieldsOf c (b0 :: tail)).valC else [])) ++ rest := by
  rw [IClass.length, List.length_cons] at h
  cases hr : c.hasRegisters <;> cases hc : c.hasConstant <;> simp only [hr, hc, Bool.false_eq_true, ↓reduceIte] at h
  · exact ⟨tail, rfl⟩
  · refine ⟨tail.drop 8, ?_⟩
    simpa [fieldsOf, hr, hc, constantAt_cons] using eq_bytesOfWord_constantAt (bs := tail) (by omega)
  all_goals
    cases tail with
    | nil => simp at h
    | cons b1 tail => ?_
  · exact ⟨tail, by simp [fieldsOf, hr]⟩
  · rw [List.length_cons] at h
    refine ⟨tail.drop 8, ?_⟩
    simpa [fieldsOf, hr, hc, constantAt_cons] using eq_bytesOfWord_constantAt (bs := tail) (by omega)

/-- What Fetch accepts begins with the bytes of the fields it reads (R50 to R53). -/
theorem eq_encodeFields_of_parse {bytes : List Byte} {f : Fields} (h : parse bytes = .ok f) :
    ∃ rest, bytes = encodeFields f ++ rest := by
  obtain ⟨hc, hf, hl, -⟩ := parse_ok h
  cases bytes with
  | nil => cases h
  | cons b0 tail =>
    obtain ⟨rest, ht⟩ := eq_encodeFields_tail hl
    have hcode : f.icode.code = highNibble b0 := IClass.code_of_ofCode hc
    have hfn : f.ifun = lowNibble b0 := by rw [hf]; rfl
    rw [← hf] at ht
    refine ⟨rest, ?_⟩
    rw [encodeFields, List.cons_append, ← ht, hcode, hfn, byteOfNibbles_nibbles]

/-! ### The fields of what they name -/

theorem cmovOf_fields {fn a b : Nibble} {i : Instr} (h : cmovOf fn a b = .ok i) :
    i.fields = .registers .cmov fn a b ∧ i.WellFormed = (registerOk a && registerOk b) := by
  unfold cmovOf at h
  split at h
  case h_8 => cases h
  all_goals
    rename_i hfn
    obtain rfl := Except.ok.inj h
    exact ⟨congrArg (Fields.registers .cmov · a b) (BitVec.eq_of_toNat_eq hfn.symm), rfl⟩

theorem opOf_fields {fn a b : Nibble} {i : Instr} (h : opOf fn a b = .ok i) :
    i.fields = .registers .op fn a b ∧ i.WellFormed = (registerOk a && registerOk b) := by
  unfold opOf at h
  split at h
  case h_5 => cases h
  all_goals
    rename_i hfn
    obtain rfl := Except.ok.inj h
    exact ⟨congrArg (Fields.registers .op · a b) (BitVec.eq_of_toNat_eq hfn.symm), rfl⟩

theorem jumpOf_fields {fn : Nibble} {dest : Word} {i : Instr} (h : jumpOf fn dest = .ok i) :
    i.fields = .constant .jump fn dest ∧ i.WellFormed = true := by
  unfold jumpOf at h
  split at h
  case h_8 => cases h
  all_goals
    rename_i hfn
    obtain rfl := Except.ok.inj h
    exact ⟨congrArg (Fields.constant .jump · dest) (BitVec.eq_of_toNat_eq hfn.symm), rfl⟩

/-- An instruction that encodable fields name is well formed and has these fields (R55, R57). -/
theorem toInstr_fields {f : Fields} {i : Instr} (he : f.Encodable) (h : toInstr f = .ok i) :
    i.fields = f ∧ i.WellFormed = true := by
  obtain ⟨c, fn, a, b, v⟩ := f
  obtain ⟨hr, hv, -, hA, hB⟩ := he
  unfold toInstr at h
  split at h
  · cases h
  · rename_i hok
    cases c
    case cmov =>
      obtain ⟨hi, hw⟩ := cmovOf_fields h
      simp_all [IClass.requiresA, IClass.requiresB, IClass.hasConstant, Fields.registers]
    case op =>
      obtain ⟨hi, hw⟩ := opOf_fields h
      simp_all [IClass.requiresA, IClass.requiresB, IClass.hasConstant, Fields.registers]
    case jump =>
      obtain ⟨hi, hw⟩ := jumpOf_fields h
      simp_all [IClass.hasRegisters, Fields.constant]
    all_goals
      obtain rfl := Except.ok.inj h
      simp_all [IClass.requiresA, IClass.requiresB, IClass.hasRegisters, IClass.hasConstant, IClass.reservesA,
        IClass.reservesB, Instr.fields, Instr.WellFormed, Fields.opcode, Fields.registers, Fields.constant, Fields.full]

/-- Settles O2: the bytes Fetch accepts are those of the fields it reads, and the decoder keeps these fields. -/
theorem decodedIsEncoded : Obligations.DecodedIsEncoded := by
  intro bytes i h
  unfold decode at h
  cases hp : parse bytes with
  | error r => simp [hp] at h
  | ok f =>
    rw [hp] at h
    obtain ⟨hf, hw⟩ := toInstr_fields (parse_encodable hp) h
    rw [encode, hf]
    exact ⟨hw, eq_encodeFields_of_parse hp⟩

/-- Settles O3: each word is evaluated. -/
theorem sampleWords : Obligations.SampleWords := by
  unfold Obligations.SampleWords
  decide

end Sys2Proof
end

section
/-! PROOFS. Which unit raises a fault, in the words of the spec, and the status of a cycle (spec/60_exceptions.md). -/

namespace Sys2Proof.Machine

variable {s s0 n n' : State} {feed : Feed} {k : FaultKind}

/-! ### When a unit raises its fault -/

/-- R93: Writeback raises its fault for a bad destination. -/
theorem writebackUnit_error_iff : writebackUnit s0 n = .error k ↔ k = .writeback ∧ s0.M.BadDestination := by
  refine ⟨writebackUnit_error, ?_⟩
  rintro ⟨rfl, hb⟩
  have : destinationFault s0.M = true := by simpa [destinationFault] using hb
  simp [writebackUnit, this]

theorem Latch.badAddress_iff (e : Latch) (m : Memory) : e.BadAddress m.capacity ↔
    ∃ addr, m.dataInBounds addr = false ∧ (e.access = .load addr ∨ ∃ v, e.access = .store addr v) := by
  have hb (addr : Word) : m.dataInBounds addr = false ↔ m.capacity < addr.toNat + 8 := by
    rw [← Bool.not_eq_true, m.dataInBounds_iff, Nat.not_le]
  unfold Latch.BadAddress Latch.access
  cases e.icode <;> simp [hb]

/-- R90: Memory raises its fault for an address that leaves fewer than 8 bytes. -/
theorem memoryUnit_error_iff : memoryUnit s0 n = .error k ↔ k = .memoryBounds ∧ s0.E.BadAddress s0.mem.capacity := by
  rw [Latch.badAddress_iff]
  refine ⟨memoryUnit_error, ?_⟩
  rintro ⟨rfl, addr, hb, ha | ⟨v, ha⟩⟩ <;> simp [memoryUnit, ha, hb]

theorem condition_eq_none_iff (fn : Nibble) (z g o : Bool) : condition fn z g o = none ↔ 6 < fn.toNat := by
  revert fn z g o; decide

/-- R58: Execute raises its fault for a condition outside 0 to 6. -/
theorem executeUnit_error_iff : executeUnit s0 n = .error k ↔ k = .invalidCondition ∧ s0.D.BadCondition := by
  constructor
  · intro h
    obtain ⟨hk, hd, hc⟩ := executeUnit_error h
    exact ⟨hk, hd, (condition_eq_none_iff ..).1 hc⟩
  · rintro ⟨rfl, hd, hfn⟩
    have hc := condition_eq_none_of_lt hfn s0.ZF s0.SF s0.OF
    rcases hd with hd | hd <;> simp [executeUnit, hd, hc]

theorem badIndex_iff (r : Nibble) : badIndex r = true ↔ 8 ≤ r.toNat ∧ r.toNat < 15 := by
  revert r; decide

theorem Latch.registerFault_iff (l : Latch) : l.registerFault = true ↔ l.BadRegister := by
  have hsp : badIndex Config.stackPointer = false := by decide
  unfold Latch.registerFault Latch.missingRegister Latch.BadRegister Latch.selA Latch.selB
  cases l.icode <;>
    simp [IClass.requiresA, IClass.requiresB, eq_noRegister_iff, badIndex_iff, hsp, or_assoc]

/-- R79, R80: Decode raises its fault for a bad register. -/
theorem decodeUnit_error_iff : decodeUnit s0 n = .error k ↔ k = .invalidRegister ∧ s0.F.BadRegister := by
  rw [← Latch.registerFault_iff]
  refine ⟨decodeUnit_error, ?_⟩
  rintro ⟨rfl, hf⟩
  simp [decodeUnit, hf]

/-- R73: Fetch raises the fault of its checks when it runs. -/
theorem fetchUnit_memory_error_iff : fetchUnit .memory s0 n = .error k ↔
    ¬ (s0.MustStall ∨ s0.MustHold) ∧ s0.fetchFault = some k := by
  rw [← State.stall_iff, ← State.hold_iff]
  unfold fetchUnit
  cases s0.stall <;> cases s0.hold <;> simp
  rcases parse_fetchWindow s0 with ⟨f, hp, hf⟩ | ⟨r, hp, hf⟩ <;> simp [hp, hf]

/-! ### The fault of a cycle -/

/-- What a unit that raises nothing says about its fault condition. -/
theorem not_of_ok {α : Type} {u : Except FaultKind α} {a : α} {j : FaultKind} {p : Prop}
    (hu : ∀ k, u = .error k ↔ k = j ∧ p) (h : u = .ok a) : ¬ p := by
  intro hp
  have := (hu j).2 ⟨rfl, hp⟩
  rw [h] at this
  cases this

/-- R97, R142: the chain of units raises the fault of the oldest instruction that has one. -/
theorem runUnits_raised (s0 : State) : (runUnits .memory s0).raised = s0.cycleFault := by
  unfold State.cycleFault
  rcases runUnits_cases .memory s0 with ⟨k, h, hr⟩ | ⟨n1, h1, ⟨k, h, hr⟩ | ⟨n2, h2, ⟨k, h, hr⟩ | ⟨n3, h3,
    ⟨k, h, hr⟩ | ⟨n4, h4, ⟨k, h, hr⟩ | ⟨n5, h5, hr⟩⟩⟩⟩⟩ <;> rw [hr]
  · obtain ⟨rfl, hb⟩ := writebackUnit_error_iff.1 h
    rw [if_pos hb]
  all_goals rw [if_neg (not_of_ok (fun _ => writebackUnit_error_iff) h1)]
  · obtain ⟨rfl, hb⟩ := memoryUnit_error_iff.1 h
    rw [if_pos hb]
  all_goals rw [if_neg (not_of_ok (fun _ => memoryUnit_error_iff) h2)]
  · obtain ⟨rfl, hb⟩ := executeUnit_error_iff.1 h
    rw [if_pos hb]
  all_goals rw [if_neg (not_of_ok (fun _ => executeUnit_error_iff) h3)]
  · obtain ⟨rfl, hb⟩ := decodeUnit_error_iff.1 h
    rw [if_pos hb]
  all_goals rw [if_neg (not_of_ok (fun _ => decodeUnit_error_iff) h4)]
  · obtain ⟨hrun, hf⟩ := fetchUnit_memory_error_iff.1 h
    rw [if_neg hrun, hf]
  · split
    · rfl
    · rename_i hrun
      cases hf : s0.fetchFault with
      | none => rfl
      | some k =>
        rw [fetchUnit_memory_error_iff.2 ⟨hrun, hf⟩] at h5
        cases h5

/-- The status a cycle ends with: the halted flag wins over the fault raised (R68, R136). -/
theorem cycle_status (hs : s.status = .Continue) : (cycle .memory s).status =
    if (cycle .memory s).halted = true then .Halted else s.squash.cycleFault.elim .Continue FaultKind.code := by
  rw [cycle_of_continue .memory hs, runUnits_raised, State.takeFault_eq, State.setStatus_halted, State.setStatus_status]
  split
  · rw [State.takeFault_of_halted _ _ ‹_›]; rfl
  · rename_i hh
    exact State.takeFault_status _ (by simpa using hh)

/-- Settles O32: the status is that of the halted flag, which a halt in `M` sets, or that of the oldest fault. -/
theorem statusOfACycle : Obligations.StatusOfACycle := by
  intro s t hs ht
  obtain rfl := cycle_eq_of_step ht
  rw [cycle_status hs, cycle_halted .memory hs]
  simp only [Bool.or_eq_true, decide_eq_true_eq]
  split
  · rfl
  · cases s.squash.cycleFault <;> rfl

/-- A cycle in whose snapshot every destination in `M` is a register raises no Writeback fault. -/
theorem cycleFault_ne_writeback (h : ¬ s0.M.BadDestination) : s0.cycleFault ≠ some .writeback := by
  rw [State.cycleFault, if_neg h, State.fetchFault]
  split_ifs <;> simp

/-- Settles O37: soundness makes every destination in `M` a register, and no other stage raises this fault. -/
theorem writebackFaultUnreachable : Obligations.WritebackFaultUnreachable := by
  intro s t hsound hs ht
  obtain rfl := cycle_eq_of_step ht
  have hv : ¬ s.squash.M.BadDestination := by
    rw [State.squash_M, Latch.not_badDestination_iff]
    exact (hsound hs).validM
  have hne := cycleFault_ne_writeback hv
  rw [cycle_status hs]
  split
  · decide
  · revert hne
    cases s.squash.cycleFault with
    | none => decide
    | some k => cases k <;> decide

end Sys2Proof.Machine
end

section
/-! PROOFS. What Writeback, Memory and Execute write (spec/40_pipeline_cycle.md sections 5 to 7, spec/44_alu.md). -/

namespace Sys2Proof.Machine

variable {s s0 t n n' : State} {feed : Feed} {k : FaultKind}

/-! ### Overflow: the sign bits say whether the exact result is a signed number (decision D15) -/

theorem Word.sign_eq_msb (v : Word) : Word.sign v = v.msb := (BitVec.msb_eq_getLsbD_last v).symm

theorem outsideSigned64_add (b a : Word) : outsideSigned64 (b.toInt + a.toInt) = BitVec.saddOverflow b a := by
  rw [outsideSigned64, BitVec.saddOverflow, Bool.decide_or, Bool.or_comm]

theorem outsideSigned64_sub (b a : Word) : outsideSigned64 (b.toInt - a.toInt) = BitVec.ssubOverflow b a := by
  rw [outsideSigned64, BitVec.ssubOverflow, Bool.decide_or, Bool.or_comm]

theorem overflowFlag_add (a b : Word) : overflowFlag 0 a b (b + a) = outsideSigned64 (b.toInt + a.toInt) := by
  rw [outsideSigned64_add, BitVec.saddOverflow_eq]
  simp only [overflowFlag, Word.sign_eq_msb]
  cases a.msb <;> cases b.msb <;> cases (b + a).msb <;> rfl

theorem overflowFlag_sub (a b : Word) : overflowFlag 1 a b (b - a) = outsideSigned64 (b.toInt - a.toInt) := by
  rw [outsideSigned64_sub, BitVec.ssubOverflow_eq]
  simp only [overflowFlag, Word.sign_eq_msb]
  cases a.msb <;> cases b.msb <;> cases (b - a).msb <;> rfl

/-! ### Execute -/

/-- Execute's work stands while nothing writes `E`, the flags or the misprediction signal. -/
theorem State.ExecuteDone.of_fields (h : s.ExecuteDone n) (hE : n'.E = n.E) (hf : n'.flags = n.flags)
    (hm : n'.mispred = n.mispred) (hp : n'.mispredPC = n.mispredPC) : s.ExecuteDone n' := by
  obtain ⟨hz, hg, ho⟩ := State.flags_eq_iff.1 hf
  cases n'
  simp only at hE hz hg ho hm hp
  subst hE hz hg ho hm hp
  exact { h with }

/-- An ALU instruction of a function the encoding knows leaves its result and its flags (R87, R115 to R119). -/
theorem executeUnit_op {e : Word} (hop : s0.D.icode = .op) (he : aluResult s0.D.ifun s0.D.valA s0.D.valB = some e) :
    executeUnit s0 n = .ok ((n.latchE { s0.D with valE := e, stalling := false }).setFlags (zeroFlag e) (signFlag e)
      (overflowFlag s0.D.ifun s0.D.valA s0.D.valB e)) := by
  simp only [executeUnit, hop, he]

/-- What Execute leaves of an instruction it does not turn away (R85 to R88). -/
theorem executeUnit_done (h : executeUnit s0 n = .ok n') (hf : n.flags = s0.flags) (hm : n.mispred = false)
    (hp : n.mispredPC = s0.mispredPC) : s0.ExecuteDone n' := by
  obtain ⟨hz, hg, ho⟩ := State.flags_eq_iff.1 hf
  cases hd : s0.D.icode
  case op =>
    cases he : aluResult s0.D.ifun s0.D.valA s0.D.valB with
    | none =>
      have hfn : ¬ s0.D.ifun.toNat ≤ 3 := fun hle => by
        obtain ⟨e, he'⟩ := exists_aluResult hle s0.D.valA s0.D.valB
        rw [he] at he'; cases he'
      simp only [executeUnit, hd, he, Except.ok.injEq] at h
      subst h
      have hne : ∀ c : Nibble, c.toNat ≤ 3 → s0.D.ifun ≠ c := fun c hc e => hfn (e ▸ hc)
      constructor <;> simp [hd, hm, hp, hfn, hne]
    | some e =>
      rw [executeUnit_op hd he] at h
      obtain rfl := Except.ok.inj h
      constructor <;> simp [hd, hm, hp]
      case add => intro hfn; simp_all [aluResult, ← overflowFlag_add]
      case sub => intro hfn; simp_all [aluResult, ← overflowFlag_sub]
      case and => intro hfn; simp_all [aluResult, overflowFlag]
      case xor => intro hfn; simp_all [aluResult, overflowFlag]
      case signs => intro _; exact ⟨by simp [zeroFlag, beq_eq_decide], rfl⟩
  case cmov | jump =>
    cases hc : condition s0.D.ifun s0.ZF s0.SF s0.OF with
    | none => simp [executeUnit, hd, hc] at h
    | some c =>
      simp only [executeUnit, hd, hc, Except.ok.injEq] at h
      subst h
      cases c <;> constructor <;> simp [hd, hc, hz, hg, ho, hm, hp]
  all_goals
    simp only [executeUnit, hd, Except.ok.injEq] at h
    subst h
    constructor <;> simp [hd, hz, hg, ho, hm, hp]

/-! ### Memory -/

/-- Memory's work stands while nothing writes `M`, the memory or `pc`. -/
theorem State.MemoryDone.of_fields (h : s.MemoryDone n) (hM : n'.M = n.M) (hm : n'.mem = n.mem) (hpc : n'.pc = n.pc) :
    s.MemoryDone n' := by
  cases n'
  simp only at hM hm hpc
  subst hM hm hpc
  exact { h with }

/-- What Memory leaves of an instruction it does not turn away (R89 to R91). -/
theorem memoryUnit_done (h : memoryUnit s0 n = .ok n') (hm : n.mem = s0.mem) (hpc : n.pc = s0.pc) : s0.MemoryDone n' := by
  unfold memoryUnit at h
  cases he : s0.E.icode <;> simp only [Latch.access, he, reduceCtorEq, ↓reduceIte] at h
  case halt | nop | cmov | irmov | op | jump =>
    obtain rfl := Except.ok.inj h
    constructor <;> simp [he, hm, hpc]
  all_goals
    split at h
    · obtain rfl := Except.ok.inj h
      constructor <;> simp [he, hm, hpc]
    · cases h

/-! ### The stages in a cycle -/

theorem exists_ok_of_not {α : Type} {u : Except FaultKind α} {j : FaultKind} {p : Prop}
    (hu : ∀ k, u = .error k ↔ k = j ∧ p) (hp : ¬ p) : ∃ a, u = .ok a := by
  cases u with
  | ok a => exact ⟨a, rfl⟩
  | error k => exact absurd ((hu k).1 rfl).2 hp

/-- Memory runs in a cycle in which Writeback raises nothing, and finds the snapshot's memory and `pc`. -/
theorem memoryUnit_after_writeback (h1 : writebackUnit s0 s0 = .ok n) (h2 : memoryUnit s0 n = .ok n') : s0.MemoryDone n' := by
  obtain ⟨-, rfl⟩ := writebackUnit_ok h1
  exact memoryUnit_done h2 rfl rfl

/-- Execute runs in a cycle in which Writeback and Memory raise nothing, and finds the snapshot's flags. -/
theorem executeUnit_after_memory {n1 n2 n3 : State} (hp : s0.mispred = false) (h1 : writebackUnit s0 s0 = .ok n1)
    (h2 : memoryUnit s0 n1 = .ok n2) (h3 : executeUnit s0 n2 = .ok n3) : s0.ExecuteDone n3 ∧ s0.MemoryDone n3 := by
  have hm := memoryUnit_after_writeback h1 h2
  obtain ⟨-, rfl⟩ := writebackUnit_ok h1
  obtain ⟨v, a, m, rfl, -, -⟩ := memoryUnit_ok h2
  refine ⟨executeUnit_done h3 rfl hp rfl, ?_⟩
  obtain ⟨e, c, z, g, o, b, a', rfl, -, -⟩ := executeUnit_ok h3
  exact hm.of_fields rfl rfl rfl

theorem decodeUnit_executeDone (h : decodeUnit s0 n = .ok n') (hn : s.ExecuteDone n) : s.ExecuteDone n' := by
  obtain ⟨-, ⟨-, rfl⟩ | ⟨-, rfl⟩⟩ := decodeUnit_ok h <;> exact hn.of_fields rfl rfl rfl rfl

theorem fetchUnit_executeDone (h : fetchUnit feed s0 n = .ok n') (hn : s.ExecuteDone n) : s.ExecuteDone n' := by
  obtain ⟨-, rfl⟩ | ⟨-, -, rfl⟩ | ⟨-, -, ⟨-, rfl⟩ | ⟨f, -, -, rfl⟩ | ⟨f, -, -, rfl⟩⟩ := fetchUnit_ok h <;>
    exact hn.of_fields rfl rfl rfl rfl

/-- Execute's work in a cycle that raises nothing. -/
theorem cycle_executeDone (hs : s.status = .Continue) (ht : (cycle feed s).status = .Continue) :
    s.squash.ExecuteDone (cycle feed s) := by
  obtain ⟨n1, n2, n3, n4, n5, h1, h2, h3, h4, h5, -, hc⟩ := cycle_clean hs ht
  have h := (executeUnit_after_memory s.squash_mispred h1 h2 h3).1
  rw [hc]
  exact (fetchUnit_executeDone h5 (decodeUnit_executeDone h4 h)).of_fields rfl rfl rfl rfl

/-- Settles O22: these are the clauses of Execute's work for the ALU. -/
theorem aluResultAndFlags : Obligations.AluResultAndFlags := by
  intro s t hs ht hcont hop
  obtain rfl := cycle_eq_of_step ht
  have h := cycle_executeDone hs hcont
  exact ⟨h.add hop, h.sub hop, h.and hop, h.xor hop, h.signs hop⟩

/-- Settles O26: these are the clauses of Execute's work for the other classes. -/
theorem executeResults : Obligations.ExecuteResults := by
  intro s t hs ht hcont
  obtain rfl := cycle_eq_of_step ht
  have h := cycle_executeDone hs hcont
  exact ⟨h.fields, h.cmov, h.irmov, h.address, h.down, h.up, h.kept, h.noCondition⟩

/-! ### Memory, whatever a younger stage raises -/

/-- What no unit behind Memory writes: `M`, the memory, and `pc` while a return in `E` holds Fetch (R75, R91). -/
structure State.KeepsMemoryOf (s0 m n : State) : Prop where
  M : n.M = m.M
  mem : n.mem = m.mem
  pc : s0.E.icode = .ret → n.pc = m.pc

/-- Memory has done its work in every cycle in which it raises nothing; `pc` is as it leaves it when a return has written it. -/
theorem cycle_memoryDone (feed : Feed) (hs : s.status = .Continue) (hv : ¬ s.M.BadDestination)
    (hb : ¬ s.E.BadAddress s.mem.capacity) :
    ∃ n, s.squash.MemoryDone n ∧ s.squash.KeepsMemoryOf n (cycle feed s) := by
  obtain ⟨n1, h1⟩ := exists_ok_of_not (fun _ => writebackUnit_error_iff (s0 := s.squash) (n := s.squash)) (by simpa using hv)
  obtain ⟨n2, h2⟩ := exists_ok_of_not (fun _ => memoryUnit_error_iff (s0 := s.squash) (n := n1)) (by simpa using hb)
  refine ⟨n2, memoryUnit_after_writeback h1 h2, ?_⟩
  have hrun : runUnits feed s.squash =
      (((⟨n2, none⟩ : Progress).run executeUnit s.squash).run decodeUnit s.squash).run (fetchUnit feed) s.squash := by
    simp only [runUnits, Progress.run, h1, h2]
  have keep : s.squash.KeepsMemoryOf n2 (runUnits feed s.squash).next := by
    rw [hrun]
    refine Progress.run_keeps (Progress.run_keeps (Progress.run_keeps ⟨rfl, rfl, fun _ => rfl⟩ ?_) ?_) ?_ <;>
      intro n n' h hn
    · obtain ⟨e, c, z, g, o, b, a, rfl, -, -⟩ := executeUnit_ok h; exact ⟨hn.M, hn.mem, hn.pc⟩
    · obtain ⟨-, ⟨-, rfl⟩ | ⟨-, rfl⟩⟩ := decodeUnit_ok h <;> exact ⟨hn.M, hn.mem, hn.pc⟩
    · obtain ⟨-, rfl⟩ | ⟨-, -, rfl⟩ | ⟨-, hho, ⟨-, rfl⟩ | ⟨f, -, -, rfl⟩ | ⟨f, -, -, rfl⟩⟩ := fetchUnit_ok h
      iterate 3 exact ⟨hn.M, hn.mem, hn.pc⟩
      all_goals
        refine ⟨hn.M, hn.mem, fun hr => ?_⟩
        rw [s.squash.hold_iff.2 (.inr (.inr hr))] at hho
        cases hho
  rw [cycle_of_continue feed hs, State.takeFault_eq]
  exact ⟨keep.M, keep.mem, keep.pc⟩

/-- Settles O27: after a bad address nothing is written, and otherwise Memory's work stands. -/
theorem memoryStage : Obligations.MemoryStage := by
  intro s t hs hv ht
  obtain rfl := cycle_eq_of_step ht
  refine ⟨fun hb => ?_, fun hb => ?_⟩
  · have hv0 : ¬ s.squash.M.BadDestination := by rwa [State.squash_M]
    have hb0 : s.squash.E.BadAddress s.squash.mem.capacity := by rwa [State.squash_E, State.squash_mem]
    refine ⟨fun hh hM => ?_, ?_⟩
    · rw [cycle_status hs, cycle_halted .memory hs, State.cycleFault, if_neg hv0, if_pos hb0]
      simp [hh, hM, FaultKind.code]
    · obtain ⟨n1, h1⟩ := exists_ok_of_not (fun _ => writebackUnit_error_iff (n := s.squash)) hv0
      rw [cycle_of_continue .memory hs, runUnits_of_memory_error h1 (memoryUnit_error_iff.2 ⟨rfl, hb0⟩), State.takeFault_eq]
      obtain ⟨-, rfl⟩ := writebackUnit_ok h1
      simp
  · obtain ⟨n, hn, hk⟩ := cycle_memoryDone .memory hs hv hb
    obtain ⟨hM, hm, hpc⟩ := hk
    obtain ⟨hf, hl, hst, hp⟩ := hn
    rw [hM, hm, hl, hst]
    simp only [State.squash_E, State.squash_mem] at hf hp hpc ⊢
    refine ⟨hf, fun h => if_pos h, fun h => ?_, fun h => ?_, fun h => if_pos h, fun h => ⟨?_, ?_⟩, fun h => ?_, fun h => ?_⟩
    · simp [h]
    · simp only [List.mem_cons, List.not_mem_nil, or_false, not_or] at h
      simp [h]
    · simp [h]
    · rw [hpc h, hp, if_pos h]
    · simp [h]
    · simp only [List.mem_cons, List.not_mem_nil, or_false, not_or] at h
      simp [h]

/-! ### Writeback's registers -/

/-- The registers a commit leaves, class by class (R92; pop's order by decision D11). -/
theorem Latch.read_commit {m : Latch} (hv : ∀ r ∈ m.dests, r.toNat < 8) (x : RegFile) (q : Nibble) :
    RegFile.read (m.commit x) q =
      match m.icode with
      | .cmov => if m.cnd = true ∧ q = m.regB then m.valE else RegFile.read x q
      | .irmov | .op => if q = m.regB then m.valE else RegFile.read x q
      | .mrmov => if q = m.regA then m.valM else RegFile.read x q
      | .call | .ret | .push => if q = 4 then m.valE else RegFile.read x q
      | .pop => if q = m.regA then m.valM else if q = 4 then m.valE else RegFile.read x q
      | .halt | .nop | .rmmov | .jump => RegFile.read x q := by
  unfold Latch.dests at hv
  unfold Latch.commit
  cases hc : m.icode <;> simp only [hc, List.mem_cons, List.not_mem_nil, or_false, forall_eq, forall_eq_or_imp] at hv ⊢
  case cmov => cases m.cnd <;> simp [RegFile.read_write _ _ _ hv]
  case pop => rw [RegFile.read_write _ _ _ hv.2, RegFile.read_write _ _ _ hv.1]; rfl
  all_goals exact RegFile.read_write _ _ _ hv

/-- Settles O28: with valid destinations the next registers are those of the commit. -/
theorem writebackCommits : Obligations.WritebackCommits := by
  intro s t hs hb ht q _
  obtain rfl := cycle_eq_of_step ht
  have hv := s.M.not_badDestination_iff.1 hb
  rw [(cycle_writebackDone .memory hs hv).registers, State.squash_M, State.squash_x]
  exact Latch.read_commit hv s.x q

/-- Settles O7: a register write is seen at its own register only. -/
theorem registersHoldWhatWasWritten : Obligations.RegistersHoldWhatWasWritten :=
  fun x _ q v hr => RegFile.read_write x q v hr

end Sys2Proof.Machine
end

section
/-! PROOFS. What every step keeps: memory's form, the locks and the pipeline's invariant (spec/10_state.md R22,
spec/20_memory.md sections 1 and 3, spec/40_pipeline_cycle.md section 9). -/

namespace Sys2Proof.Machine

variable {s s0 t u n n' : State} {feed : Feed} {r : Nibble}

/-! ### Memory -/

/-- Only Memory writes memory, and it writes words: what every word written keeps, every cycle keeps (R89). -/
theorem cycle_keeps_memory {P : Memory → Prop} (hw : ∀ m a v, P m → P (m.write64 a v)) (feed : Feed) (h : P s.mem) :
    P (cycle feed s).mem := by
  by_cases hs : s.status = .Continue
  · have h0 : P s.squash.mem := by rwa [State.squash_mem]
    rw [cycle_of_continue feed hs, State.takeFault_eq, State.setStatus_mem]
    refine runUnits_keeps_after_writeback (P := fun n => P n.mem) (Progress.run_keeps (P := fun n => P n.mem) h0 ?_)
      ?_ ?_ ?_ ?_ <;> intro n n' h hn
    · obtain ⟨-, rfl⟩ := writebackUnit_ok h; exact hn
    · obtain ⟨v, a, m, rfl, hm | ⟨addr, w, -, -, hm⟩, -⟩ := memoryUnit_ok h <;> change P m <;> rw [hm]
      · exact hn
      · exact hw _ addr w h0
    · obtain ⟨e, c, z, g, o, b, a, rfl, -, -⟩ := executeUnit_ok h; exact hn
    · obtain ⟨-, ⟨-, rfl⟩ | ⟨-, rfl⟩⟩ := decodeUnit_ok h <;> exact hn
    · obtain ⟨-, rfl⟩ | ⟨-, -, rfl⟩ | ⟨-, -, ⟨-, rfl⟩ | ⟨f, -, -, rfl⟩ | ⟨f, -, -, rfl⟩⟩ := fetchUnit_ok h <;> exact hn
  · rwa [cycle_of_terminal feed hs]

theorem cycle_mem_capacity (feed : Feed) (s : State) : (cycle feed s).mem.capacity = s.mem.capacity := by
  refine cycle_keeps_memory (P := fun m => m.capacity = s.mem.capacity) (fun m a v h => ?_) feed rfl
  rw [Memory.write64_capacity]
  exact h

/-- Settles O34: a cycle writes memory only by whole words, which keep its form and its capacity. -/
theorem stepKeepsMemoryForm : Obligations.StepKeepsMemoryForm := by
  intro s t hwf ht
  obtain rfl := cycle_eq_of_step ht
  exact ⟨cycle_keeps_memory (P := Memory.wf) (fun _ a v h => Memory.wf_write64 h a v) .memory hwf,
    cycle_mem_capacity .memory s⟩

/-! ### `pc` -/

/-- Where Fetch reads nothing only a return in `E` writes `pc`, whatever fault a stage may raise (R75 to R77, R90). -/
theorem cycle_pc_of_no_fetch (hs : s.status = .Continue) (hret : s.E.icode ≠ .ret)
    (hno : feed = .idle ∨ s.squash.stall = true ∨ s.squash.hold = true) : (cycle feed s).pc = s.squash.pc := by
  rw [← State.squash_E] at hret
  rw [cycle_of_continue feed hs, State.takeFault_eq, State.setStatus_pc]
  refine runUnits_keeps_after_writeback (P := fun n => n.pc = s.squash.pc)
    (Progress.run_keeps (P := fun n => n.pc = s.squash.pc) rfl ?_) ?_ ?_ ?_ ?_ <;> intro n n' h hn
  · obtain ⟨-, rfl⟩ := writebackUnit_ok h; exact hn
  · obtain ⟨v, a, m, rfl, -, ha⟩ := memoryUnit_ok h; exact (ha.resolve_right hret).trans hn
  · obtain ⟨e, c, z, g, o, b, a, rfl, -, -⟩ := executeUnit_ok h; exact hn
  · obtain ⟨-, ⟨-, rfl⟩ | ⟨-, rfl⟩⟩ := decodeUnit_ok h <;> exact hn
  · obtain ⟨-, rfl⟩ | ⟨-, -, rfl⟩ | ⟨hst, hho, ⟨-, rfl⟩ | ⟨f, rfl, -, -⟩ | ⟨f, rfl, -, -⟩⟩ := fetchUnit_ok h
    iterate 3 exact hn
    all_goals simp [hst, hho] at hno

/-! ### The locks after a cycle -/

/-- The instruction Decode hands on has destinations that are registers, free in the snapshot (R79 to R83). -/
theorem cycle_dests_free (hs : s.status = .Continue) (ht : (cycle feed s).status = .Continue) :
    ∀ r ∈ (cycle feed s).D.dests, r.toNat < 8 ∧ s.squash.lock.isLocked r = false := by
  obtain ⟨-, hf, -, -, -, -, -, -, -, ⟨-, hD, -⟩ | ⟨hst, hD, -⟩, -⟩ := cycle_shape hs ht <;> rw [hD]
  · simp
  · intro r hr
    obtain ⟨h8, hop⟩ := dests_of_no_registerFault hf r hr
    exact ⟨h8, operand_unlocked hst hop h8⟩

/-- After a cycle that raises nothing a register is locked for the instruction Decode has accepted, or was locked and is not a
destination of the retired instruction (R82, R94). -/
theorem cycle_isLocked_iff (hs : s.status = .Continue) (ht : (cycle feed s).status = .Continue) (r : Nibble) :
    (cycle feed s).lock.isLocked r = true ↔
      r ∈ (cycle feed s).D.dests ∨ (s.squash.lock.isLocked r = true ∧ r ∉ s.M.dests) := by
  have hd := fun q hq => (cycle_dests_free hs ht q hq).1
  obtain ⟨hv, -, -, -, -, -, -, -, -, ⟨-, hD, -, hl⟩ | ⟨-, hD, hl⟩, -⟩ := cycle_shape hs ht
  · rw [hl, hD, LockTable.isLocked_putAll _ _ _ _ hv]
    by_cases hr : r ∈ s.M.dests <;> simp [hr]
  · have hds : (cycle feed s).D.dests = s.squash.F.dests := by rw [hD]; rfl
    rw [hds] at hd ⊢
    rw [hl, LockTable.isLocked_putAll _ _ _ _ hd, LockTable.isLocked_putAll _ _ _ _ hv]
    by_cases hr : r ∈ s.squash.F.dests <;> by_cases hr' : r ∈ s.M.dests <;> simp [hr, hr']

/-- The destinations move on with their instructions (R83). -/
theorem cycle_dests (hs : s.status = .Continue) (ht : (cycle feed s).status = .Continue) :
    (cycle feed s).E.dests = s.squash.D.dests ∧ (cycle feed s).M.dests = s.squash.E.dests := by
  obtain ⟨-, -, -, -, -, -, -, ⟨v, hM⟩, ⟨e, c, hE⟩, -⟩ := cycle_shape hs ht
  rw [State.squash_E]
  exact ⟨by rw [hE]; rfl, by rw [hM]; rfl⟩

/-! ### The invariant -/

/-- A feed that presents no ALU instruction of a function Fetch would reject (R56 item 2). -/
def Feed.Admissible (feed : Feed) : Prop := ∀ f, feed = .present f → f.icode = .op → f.ifun.toNat ≤ 3

theorem Feed.admissible_memory : Feed.memory.Admissible := nofun
theorem Feed.admissible_idle : Feed.idle.Admissible := nofun

theorem cycle_opF (hfeed : feed.Admissible) (hs : s.status = .Continue) (ht : (cycle feed s).status = .Continue)
    (h : s.squash.PipelineInv) : (cycle feed s).F.icode = .op → (cycle feed s).F.ifun.toNat ≤ 3 := by
  obtain ⟨-, -, -, -, -, -, -, -, -, hD, hhold, hfetch, -⟩ := cycle_shape hs ht
  cases hst : s.squash.stall with
  | true =>
    obtain ⟨-, -, hF, -⟩ | ⟨hno, -⟩ := hD
    · rw [hF]; exact h.opF
    · rw [hst] at hno; cases hno
  | false =>
    cases hho : s.squash.hold with
    | true => rw [hhold hst hho]; nofun
    | false =>
      obtain hF | ⟨f, hF, rfl | ⟨-, hp⟩⟩ := hfetch hst hho <;> rw [hF]
      · nofun
      · exact hfeed f rfl
      · exact parse_op hp

/-- A cycle that goes on keeps the invariant (R22, R98 items 6 and 7). -/
theorem cycle_keeps_inv (hfeed : feed.Admissible) (hs : s.status = .Continue) (ht : (cycle feed s).status = .Continue)
    (h : s.PipelineInv) : (cycle feed s).PipelineInv := by
  have h0 := squash_inv h
  have hfree := cycle_dests_free hs ht
  have hlock := cycle_isLocked_iff hs ht
  obtain ⟨hEd, hMd⟩ := cycle_dests hs ht
  have held : ∀ r : Nibble, r ∈ s.squash.D.dests ∨ r ∈ s.squash.E.dests → r ∉ (cycle feed s).D.dests := by
    intro r hr hm
    obtain ⟨h8, hl⟩ := hfree r hm
    rw [(h0.locked r h8).2 (hr.imp_right .inl)] at hl
    cases hl
  have opD : (cycle feed s).D.icode = .op → (cycle feed s).D.ifun.toNat ≤ 3 := by
    obtain ⟨-, -, -, -, -, -, -, -, -, ⟨-, hD, -⟩ | ⟨-, hD, -⟩, -⟩ := cycle_shape hs ht <;> rw [hD]
    · nofun
    · exact h0.opF
  obtain ⟨-, -, -, -, hrun, -, -, -, ⟨e, c, hE⟩, -, -, -, hmis⟩ := cycle_shape hs ht
  refine ⟨fun r h8 => ?_, fun r hr hm => ?_, fun r hr hm => ?_, fun r hr hm => ?_, fun r hr => (hfree r hr).1, ?_, ?_,
    fun hm => ?_, hrun, cycle_opF hfeed hs ht h0, opD⟩
  · have hDM := h0.distinctDM r
    have hEM := h0.distinctEM r
    rw [State.squash_M] at hDM hEM
    rw [hlock, h0.locked r h8, hEd, hMd, State.squash_M]
    tauto
  · exact held r (.inl (hEd ▸ hm)) hr
  · exact held r (.inr (hMd ▸ hm)) hr
  · rw [hEd] at hr; rw [hMd] at hm; exact h0.distinctDE r hr hm
  · rw [hEd]; exact h0.validD
  · rw [hMd]; exact h0.validE
  · obtain hno | ⟨-, hj, hc, hp⟩ := hmis
    · rw [hm] at hno; cases hno
    · exact ⟨by rw [hE]; exact hj, hc, by rw [hp, hE]⟩

/-- Settles O35: a cycle that goes on keeps the invariant, and one that ends the run leaves nothing to keep. -/
theorem stepKeepsSound : Obligations.StepKeepsSound := by
  intro s t hsound ht hcont
  obtain rfl := cycle_eq_of_step ht
  by_cases hs : s.status = .Continue
  · exact cycle_keeps_inv Feed.admissible_memory hs hcont (hsound hs)
  · exact absurd (cycle_of_terminal .memory hs ▸ hcont) hs

/-- Nothing in flight and no lock held is a sound pipeline. -/
theorem State.Quiescent.inv (h : s.Quiescent) : s.PipelineInv := by
  obtain ⟨-, hh, hm, hl, hF, hD, hE, hM⟩ := h
  constructor <;> simp [hh, hm, hl, hF, hD, hE, hM]

theorem quiescent_reset : State.reset.Quiescent := by decide

theorem quiescent_init (s : State) : s.init.Quiescent := quiescent_reset

/-- Settles O36: reset and every initialised state are between two instructions, which is sound. -/
theorem resetMeetsTheInvariants : Obligations.ResetMeetsTheInvariants :=
  ⟨Memory.unloaded_wf, fun _ => quiescent_reset.inv, quiescent_reset,
    fun s => ⟨fun _ => (quiescent_init s).inv, quiescent_init s⟩⟩

/-! ### The wrong path -/

theorem squash_lock_of_inv (h : s.PipelineInv) (hm : s.mispred = true) (h8 : r.toNat < 8) :
    s.squash.lock.isLocked r = true ↔ r ∈ s.E.dests ∨ r ∈ s.M.dests := by
  have hl := (squash_inv h).locked r h8
  rw [State.squash_E, State.squash_M] at hl
  rw [hl, State.squash_of_mispred hm]
  simp

/-- Under the invariant the snapshot of a pending misprediction does not depend on what stands in `F`, `D`, `pc` and the locks. -/
theorem squash_eq_of_wrong_path (hs : s.PipelineInv) (hu : u.PipelineInv) (hm : s.mispred = true)
    (h : { u with F := s.F, D := s.D, pc := s.pc, lock := s.lock } = s) : u.squash = s.squash := by
  have hum : u.mispred = true := (congrArg State.mispred h).trans hm
  have hEs : u.E = s.E := by rw [← h]
  have hMs : u.M = s.M := by rw [← h]
  have hlock : u.squash.lock = s.squash.lock := LockTable.ext_isLocked fun r h8 =>
    Bool.eq_iff_iff.2 (by rw [squash_lock_of_inv hs hm h8, squash_lock_of_inv hu hum h8, hEs, hMs])
  rw [State.squash_of_mispred hum, State.squash_of_mispred hm] at hlock ⊢
  rw [State.redirect_lock, State.redirect_lock] at hlock
  rw [hlock, ← h]
  rfl

theorem cycle_squash (feed : Feed) (hs : s.status = .Continue) : cycle feed s.squash = cycle feed s := by
  rw [cycle_of_continue feed hs, cycle_of_continue feed ((s.squash_status).trans hs),
    s.squash.squash_of_not_mispred s.squash_mispred]

/-- Settles O40: the two states have the same snapshot. -/
theorem wrongPathLeavesNoTrace : Obligations.WrongPathLeavesNoTrace := by
  intro s u hs hu hcont hm h
  have hucont : u.status = .Continue := (congrArg State.status h).trans hcont
  have hsq := squash_eq_of_wrong_path (hs hcont) (hu hucont) hm h
  rw [step, step, ← cycle_squash .memory hcont, ← cycle_squash .memory hucont, hsq]

/-- Settles O14: these are the writes of the redirection, after which no misprediction is pending. -/
theorem squashPhase : Obligations.SquashPhase := by
  intro s hm
  refine ⟨?_, ?_, ?_, s.squash_mispred, fun hv r => ?_, ?_, fun hs => congrArg Host.Outcome.next (cycle_squash .memory hs).symm⟩
  all_goals rw [State.squash_of_mispred hm]
  · rfl
  · rfl
  · rfl
  · rw [State.redirect_lock, LockTable.isLocked_putAll _ _ _ _ hv]
    by_cases hr : r ∈ s.D.dests <;> simp [hr]
  · rw [← hm]; rfl

end Sys2Proof.Machine
end

section
/-! PROOFS. Instructions move on: a Decode stall ends, and the pipeline empties (spec/40_pipeline_cycle.md section 9,
spec/70_reset_and_hazards.md section 4). -/

namespace Sys2Proof.Machine

variable {s t n n' : State} {feed : Feed} {r : Nibble} {k j : Nat}

/-! ### A stall waits for an instruction that holds the lock -/

/-- Decode waits for nothing where no instruction in flight has a destination (R22, R81). -/
theorem not_stall_of_no_dests (h : s.PipelineInv) (hD : s.D.dests = []) (hE : s.E.dests = []) (hM : s.M.dests = []) :
    s.stall = false := by
  have free : ∀ r : Nibble, s.lock.isLocked r = false := by
    intro r
    by_cases h8 : r.toNat < 8
    · have := h.locked r h8
      simpa [hD, hE, hM] using this
    · exact LockTable.isLocked_of_ge _ h8
  simp [State.stall, operandLocked, free]

theorem squash_D_dests (h : s.D.dests = []) : s.squash.D.dests = [] := by
  unfold State.squash
  split
  · rfl
  · exact h

/-- A stall puts a bubble behind the instructions it waits for (R84). -/
theorem cycle_D_of_stall (hs : s.status = .Continue) (ht : (cycle feed s).status = .Continue) (hst : s.squash.stall = true) :
    (cycle feed s).D = bubbleStall := by
  obtain ⟨-, -, -, -, -, -, -, -, -, ⟨-, hD, -⟩ | ⟨hno, -⟩, -⟩ := cycle_shape hs ht
  · exact hD
  · rw [hst] at hno; cases hno

/-- Settles O38: three stalls put three bubbles into `D`, `E` and `M`, behind which no lock is held. -/
theorem decodeStallEndsWithinThreeCycles : Obligations.DecodeStallEndsWithinThreeCycles := by
  intro s t u v hsound hs ht hu hv h1 h2 h3 hst htst hust
  obtain rfl := cycle_eq_of_step h1
  obtain rfl := cycle_eq_of_step h2
  obtain rfl := cycle_eq_of_step h3
  rw [← State.stall_iff] at hst htst hust ⊢
  have hinv := cycle_keeps_inv Feed.admissible_memory hu hv (cycle_keeps_inv Feed.admissible_memory ht hu
    (cycle_keeps_inv Feed.admissible_memory hs ht (hsound hs)))
  have hDt := congrArg Latch.dests (cycle_D_of_stall hs ht hst)
  have hDu := congrArg Latch.dests (cycle_D_of_stall ht hu htst)
  have hDv := congrArg Latch.dests (cycle_D_of_stall hu hv hust)
  obtain ⟨hEu, -⟩ := cycle_dests ht hu
  obtain ⟨hEv, hMv⟩ := cycle_dests hu hv
  rw [squash_D_dests hDt] at hEu
  rw [squash_D_dests hDu] at hEv
  rw [State.squash_E, hEu] at hMv
  have hno := not_stall_of_no_dests (squash_inv hinv) (squash_D_dests hDv) (by rw [State.squash_E, hEv])
    (by rw [State.squash_M, hMv])
  simp [hno]

/-! ### An accepted instruction reaches Writeback -/

/-- What an instruction keeps from stage to stage (R23). -/
def Latch.identity (l : Latch) : IClass × Nibble × Nibble × Nibble × Word × Word :=
  (l.icode, l.ifun, l.regA, l.regB, l.valC, l.valP)

/-- In a cycle that raises nothing the instructions in `D` and `E` move on. -/
theorem cycle_identity (hs : s.status = .Continue) (ht : (cycle feed s).status = .Continue) :
    (cycle feed s).E.identity = s.squash.D.identity ∧ (cycle feed s).M.identity = s.E.identity := by
  obtain ⟨-, -, -, -, -, -, -, ⟨v, hM⟩, ⟨e, c, hE⟩, -⟩ := cycle_shape hs ht
  rw [hE, hM]
  exact ⟨rfl, rfl⟩

theorem cycle_identity_accepted (hs : s.status = .Continue) (ht : (cycle feed s).status = .Continue)
    (hst : s.squash.stall = false) : (cycle feed s).D.identity = s.squash.F.identity := by
  obtain ⟨-, -, -, -, -, -, -, -, -, ⟨hno, -⟩ | ⟨-, hD, -⟩, -⟩ := cycle_shape hs ht
  · rw [hst] at hno; cases hno
  · rw [hD]; rfl

/-- The destinations of an instruction are part of what it keeps. -/
theorem Latch.dests_congr {l m : Latch} (h : l.identity = m.identity) : l.dests = m.dests := by
  simp only [Latch.identity, Prod.mk.injEq] at h
  obtain ⟨hc, -, hA, hB, -, -⟩ := h
  simp only [Latch.dests, hc, hA, hB]

/-- With valid destinations in `M`, the status of a cycle that was not halted is `Halted` exactly for a halt in `M` (R95, R136). -/
theorem cycle_status_halted_iff (hs : s.status = .Continue) (hh : s.halted = false) :
    (cycle .memory s).status = .Halted ↔ s.M.icode = .halt := by
  rw [cycle_status hs, cycle_halted .memory hs, hh, Bool.false_or]
  by_cases hM : s.M.icode = .halt
  · simp [hM]
  · rw [if_neg (by simpa using hM)]
    refine iff_of_false ?_ hM
    cases s.squash.cycleFault with
    | none => decide
    | some k => exact k.code_ne_halted

/-- Settles O39: the accepted instruction stands in `D`, `E` and `M` after the three cycles, and Writeback commits what stands in
`M` whatever a younger stage raises. -/
theorem acceptedInstructionCommitsInThreeCycles : Obligations.AcceptedInstructionCommitsInThreeCycles := by
  intro s t u v w hs hst h1 h2 h3 h4 ht hu hv hm
  obtain rfl := cycle_eq_of_step h1
  obtain rfl := cycle_eq_of_step h2
  obtain rfl := cycle_eq_of_step h3
  obtain rfl := cycle_eq_of_step h4
  have hD := cycle_identity_accepted hs ht (by simpa [← State.stall_iff] using hst)
  have hE := (cycle_identity ht hu).1
  have hM := (cycle_identity hu hv).2
  rw [State.squash_of_not_mispred hm, hD] at hE
  rw [hE] at hM
  obtain ⟨-, -, -, -, hh, -⟩ := cycle_shape hu hv
  have hvalid : ∀ r ∈ (cycle .memory (cycle .memory (cycle .memory s))).M.dests, r.toNat < 8 := by
    rw [Latch.dests_congr (hM.trans hD.symm)]
    exact fun r hr => (cycle_dests_free hs ht r hr).1
  have hW := (cycle_writebackDone .memory hv hvalid).record
  rw [State.squash_M] at hW
  rw [hW, cycle_status_halted_iff hv hh]
  simp only [Latch.identity, Prod.mk.injEq] at hM
  obtain ⟨hc, hrest⟩ := hM
  simp [hc, hrest]

/-! ### Draining comes to an end -/

/-- Nothing is left to do: nothing is in flight, or the run has ended. -/
def State.settled (s : State) : Prop := s.drained = true ∨ s.status ≠ .Continue

/-- `n` cycles with Fetch idle are enough. -/
def Settles (n : Nat) (s : State) : Prop := (drain n s).settled

theorem drain_of_settled (n : Nat) (h : s.settled) : drain n s = s :=
  h.elim (drain_of_drained n) (drain_of_terminal n)

theorem settles_of_settled (n : Nat) (h : s.settled) : Settles n s := by
  rwa [Settles, drain_of_settled n h]

/-- More cycles change nothing once they are enough. -/
theorem drain_add (h : Settles k s) (j : Nat) : drain (k + j) s = drain k s := by
  induction k generalizing s with
  | zero => exact drain_of_settled _ h
  | succ k ih =>
    cases hd : s.drained with
    | true => rw [drain_of_drained _ hd, drain_of_drained _ hd]
    | false =>
      rw [Settles, drain_step hd] at h
      rw [Nat.add_right_comm, drain_step hd, drain_step hd, ih h]

theorem drain_of_le (h : Settles k s) (hk : k ≤ j) : drain j s = drain k s := by
  obtain ⟨d, rfl⟩ := Nat.exists_eq_add_of_le hk
  exact drain_add h d

theorem Settles.mono (h : Settles k s) (hk : k ≤ j) : Settles j s := by
  rwa [Settles, drain_of_le h hk]

theorem Settles.of_cycle (h : Settles k (cycle .idle s)) : Settles (k + 1) s := by
  cases hd : s.drained with
  | true => exact settles_of_settled _ (.inl hd)
  | false => rwa [Settles, drain_step hd]

/-- It is enough to look at cycles that go on. -/
theorem Settles.of_running (h : s.status = .Continue → (cycle .idle s).status = .Continue → Settles k (cycle .idle s)) :
    Settles (k + 1) s := by
  by_cases hs : s.status = .Continue
  · by_cases ht : (cycle .idle s).status = .Continue
    · exact (h hs ht).of_cycle
    · exact (settles_of_settled k (.inr ht)).of_cycle
  · exact settles_of_settled _ (.inr hs)

/-- An empty `D` makes an empty `E`, and an empty `E` an empty `M`. -/
theorem cycle_empties (hs : s.status = .Continue) (ht : (cycle feed s).status = .Continue) :
    (s.squash.D.isEmpty = true → (cycle feed s).E.isEmpty = true) ∧ (s.E.isEmpty = true → (cycle feed s).M.isEmpty = true) := by
  have hx := cycle_executeDone hs ht
  have hv := (s.M.not_badDestination_iff).2 (cycle_shape hs ht).1
  have hb : ¬ s.E.BadAddress s.mem.capacity := by
    obtain ⟨n1, n2, -, -, -, -, h2, -⟩ := cycle_clean hs ht
    simpa using not_of_ok (fun _ => memoryUnit_error_iff) h2
  obtain ⟨n, hn, hk⟩ := cycle_memoryDone feed hs hv hb
  obtain ⟨-, -, -, -, -, -, -, ⟨v, hM⟩, ⟨e, c, hE⟩, -⟩ := cycle_shape hs ht
  refine ⟨fun hd => ?_, fun he => ?_⟩
  · have hnop : s.squash.D.icode = .nop := by rcases (Latch.isEmpty_iff _).1 hd with h | h <;> rw [h] <;> rfl
    have hve := hx.kept (.inr (.inl hnop))
    have hcnd := hx.noCondition (by simp [hnop]) (by simp [hnop])
    rw [hE] at hve hcnd
    rw [hE, Latch.isEmpty, hve, hcnd]
    exact hd
  · have hnop : s.E.icode = .nop := by rcases (Latch.isEmpty_iff _).1 he with h | h <;> rw [h] <;> rfl
    have hvm := hn.loaded
    rw [← hk.M, hM, State.squash_E] at hvm
    simp only [hnop, reduceCtorEq, ↓reduceIte] at hvm
    rw [hM, Latch.isEmpty, hvm]
    exact he

/-- An instruction Decode accepts leaves `F` empty behind it, since Fetch is idle; and an empty `F` makes an empty `D`. -/
theorem cycle_idle_empties (hs : s.status = .Continue) (ht : (cycle .idle s).status = .Continue)
    (hst : s.squash.stall = false) :
    (cycle .idle s).F.isEmpty = true ∧ (s.squash.F.isEmpty = true → (cycle .idle s).D.isEmpty = true) := by
  obtain ⟨-, -, -, -, -, -, -, -, -, ⟨hno, -⟩ | ⟨-, hD, -⟩, hhold, hfetch, -⟩ := cycle_shape hs ht
  · rw [hst] at hno; cases hno
  · constructor
    · cases hho : s.squash.hold with
      | true => rw [hhold hst hho]; rfl
      | false =>
        obtain hF | ⟨f, -, h | ⟨h, -⟩⟩ := hfetch hst hho
        · rw [hF]; rfl
        · cases h
        · cases h
    · intro hF
      rw [hD]
      rcases (Latch.isEmpty_iff _).1 hF with h | h <;> rw [h] <;> rfl

theorem squash_isEmpty : (s.F.isEmpty = true → s.squash.F.isEmpty = true) ∧ (s.D.isEmpty = true → s.squash.D.isEmpty = true) := by
  unfold State.squash
  split
  · exact ⟨fun _ => rfl, fun _ => rfl⟩
  · exact ⟨id, id⟩

theorem squash_stall_of_isEmpty (h : s.F.isEmpty = true) : s.squash.stall = false :=
  stall_of_empty ((Latch.isEmpty_iff _).1 (squash_isEmpty.1 h))

/-- Behind an empty `F` three cycles are enough. -/
theorem settles_three (hF : s.F.isEmpty = true) : Settles 3 s := by
  refine Settles.of_running fun hs ht => ?_
  obtain ⟨hF1, hD1⟩ := cycle_idle_empties hs ht (squash_stall_of_isEmpty hF)
  have hD1 := hD1 (squash_isEmpty.1 hF)
  refine Settles.of_running fun _ hu => ?_
  obtain ⟨hF2, hD2⟩ := cycle_idle_empties ht hu (squash_stall_of_isEmpty hF1)
  have hD2 := hD2 (squash_isEmpty.1 hF1)
  have hE2 := (cycle_empties ht hu).1 (squash_isEmpty.2 hD1)
  refine Settles.of_running fun _ hv => ?_
  obtain ⟨hF3, hD3⟩ := cycle_idle_empties hu hv (squash_stall_of_isEmpty hF2)
  have hD3 := hD3 (squash_isEmpty.1 hF2)
  obtain ⟨hE3, hM3⟩ := cycle_empties hu hv
  exact settles_of_settled 0 (.inl (by simp [State.drained, hF3, hD3, hE3 (squash_isEmpty.2 hD2), hM3 hE2]))

/-- With Decode not stalling four cycles are enough, and with a stall one more than after it. -/
theorem settles_succ (hk : 3 ≤ k) (h : s.status = .Continue → (cycle .idle s).status = .Continue → s.squash.stall = true →
    Settles k (cycle .idle s)) : Settles (k + 1) s := by
  refine Settles.of_running fun hs ht => ?_
  cases hst : s.squash.stall with
  | true => exact h hs ht hst
  | false => exact (settles_three (cycle_idle_empties hs ht hst).1).mono hk

/-- Seven cycles empty every sound pipeline: three of stall at most, then Decode, Execute, Memory and Writeback (R99, R173). -/
theorem settles_of_inv (h : s.PipelineInv) : Settles 7 s := by
  refine settles_succ (by decide) fun hs ht hst => ?_
  have hDt := congrArg Latch.dests (cycle_D_of_stall hs ht hst)
  have hit := cycle_keeps_inv Feed.admissible_idle hs ht h
  refine settles_succ (by decide) fun _ hu htst => ?_
  have hDu := congrArg Latch.dests (cycle_D_of_stall ht hu htst)
  have hiu := cycle_keeps_inv Feed.admissible_idle ht hu hit
  have hEu := (cycle_dests ht hu).1.trans (squash_D_dests hDt)
  refine settles_succ (by decide) fun _ hv hust => ?_
  have hDv := congrArg Latch.dests (cycle_D_of_stall hu hv hust)
  have hiv := cycle_keeps_inv Feed.admissible_idle hu hv hiu
  obtain ⟨hEv, hMv⟩ := cycle_dests hu hv
  rw [State.squash_E, hEu] at hMv
  refine settles_succ (by decide) fun _ _ hvst => ?_
  have hno := not_stall_of_no_dests (squash_inv hiv) (squash_D_dests hDv)
    (by rw [State.squash_E, hEv, squash_D_dests hDu]) (by rw [State.squash_M, hMv])
  rw [hno] at hvst
  cases hvst

end Sys2Proof.Machine
end

section
/-! PROOFS. The pipeline agrees with executing one instruction at a time (spec/70_reset_and_hazards.md sections 2 and 4).

The idea: an instruction may wait. If the instructions in front of it move on by one cycle while it stands still, it comes to the
same end. So it may wait in `F` until the pipeline in front of it is empty, which is sequential execution. -/

namespace Sys2Proof.Machine

variable {s t a b c : State} {feed : Feed} {k : Nat} {l : Latch} {p : Word} {f : Fields}

/-! ### What the stages behind Decode do in one cycle -/

/-- What Execute and Memory make of the instructions in `D` and `E`: the `E` latch, the flags, the misprediction signal, the
loaded word and the memory. -/
structure Backend where
  e : Latch
  z : Bool
  g : Bool
  o : Bool
  mb : Bool
  ma : Word
  vm : Word
  μ : Memory

/-- In `a` Writeback, Memory and Execute raise nothing, no halt commits, and they come to the results `β`. -/
structure Backend.Of (β : Backend) (a : State) : Prop where
  going : a.Going
  valid : ∀ r ∈ a.M.dests, r.toNat < 8
  noHalt : a.M.icode ≠ .halt
  mem : MemSpec a.E a.mem β.vm β.μ
  exec : ExecSpec a.D a.ZF a.SF a.OF a.mispredPC β.e β.z β.g β.o β.mb β.ma

/-- What can be said of the results whatever they are. -/
structure Backend.Fits (β : Backend) (a : State) : Prop extends β.Of a where
  shape : ∃ ve cnd, β.e = { a.D with valE := ve, cnd := cnd, stalling := false }
  emptyE : a.E.icode = .nop → β.vm = a.E.valM
  emptyD : a.D.icode = .nop → β.e = { a.D with stalling := false }
  signal : β.mb = true → a.D.icode = .jump
  jump : a.D.icode = .jump → condition a.D.ifun a.ZF a.SF a.OF = some (!β.mb)

/-- The writes of Writeback, Memory and Execute. -/
def State.advance (a : State) (β : Backend) : State :=
  { a with
    x := a.M.commit a.x
    lock := LockTable.putAll a.lock false a.M.dests
    W := { a.M with stalling := false }
    M := { a.E with valM := β.vm, stalling := false }
    mem := β.μ
    pc := if a.E.icode = .ret then β.vm else a.pc
    E := β.e, ZF := β.z, SF := β.g, OF := β.o, mispred := β.mb, mispredPC := β.ma }

theorem Progress.run_ok {unit : State → State → Except FaultKind State} {s0 n n' : State} (h : unit s0 n = .ok n') :
    (⟨n, none⟩ : Progress).run unit s0 = ⟨n', none⟩ := by
  simp only [Progress.run, h]

theorem runUnits_of_backend {β : Backend} (h : β.Of a) (feed : Feed) :
    runUnits feed a = ((⟨a.advance β, none⟩ : Progress).run decodeUnit a).run (fetchUnit feed) a := by
  obtain ⟨⟨-, -, hm⟩, hv, hM, hmem, hexec⟩ := h
  have h1 := writebackUnit_of_valid a a hv
  rw [decide_eq_false hM, Bool.or_false] at h1
  obtain ⟨n2, h2, h3⟩ : ∃ n2, memoryUnit a (a.retire (a.M.commit a.x) (LockTable.putAll a.lock false a.M.dests) a.halted
      { a.M with stalling := false }) = .ok n2 ∧ executeUnit a n2 = .ok (a.advance β) :=
    ⟨_, hmem a _ rfl rfl rfl, hexec a _ rfl rfl rfl rfl rfl rfl rfl hm rfl⟩
  rw [runUnits, Progress.run_ok h1, Progress.run_ok h2, Progress.run_ok h3]

theorem takeFault_none_eq (hs : c.status = .Continue) (hh : c.halted = false) : c.takeFault none = c := by
  rw [State.takeFault_none _ hh, State.setStatus, ← hs]

theorem cycle_of_backend {β : Backend} {n4 n5 : State} (h : β.Of a) (h4 : decodeUnit a (a.advance β) = .ok n4)
    (h5 : fetchUnit feed a n4 = .ok n5) : cycle feed a = n5.takeFault none := by
  rw [cycle_of_continue feed h.going.1, a.squash_of_not_mispred h.going.2.2, runUnits_of_backend h]
  simp only [Progress.run, h4, h5]

theorem decodeUnit_accepts (hf : a.F.registerFault = false) (hst : a.stall = false) (n : State) :
    decodeUnit a n = .ok (n.accept (a.decodedLatch a.F) (LockTable.putAll n.lock true a.F.dests)) := by
  simp only [decodeUnit, hf, hst, Bool.false_eq_true, ↓reduceIte]
  rfl

/-- A cycle with Fetch idle in which Decode accepts the instruction in `F`. -/
theorem cycle_idle_accepts {β : Backend} (h : β.Of a) (hf : a.F.registerFault = false) (hst : a.stall = false) :
    cycle .idle a = { a.advance β with
      D := a.decodedLatch a.F
      lock := LockTable.putAll (a.advance β).lock true a.F.dests
      F := if a.hold then bubbleStall else bubble } := by
  rw [cycle_of_backend h (decodeUnit_accepts hf hst _) (fetchUnit_idle _ hst)]
  exact takeFault_none_eq h.going.1 h.going.2.1

/-- A cycle with Fetch idle in which Decode stalls. -/
theorem cycle_idle_stalls {β : Backend} (h : β.Of a) (hf : a.F.registerFault = false) (hst : a.stall = true) :
    cycle .idle a = { a.advance β with D := bubbleStall, F := { a.F with stalling := true } } := by
  have h4 : decodeUnit a (a.advance β) = .ok ((a.advance β).holdBack a.F) := by simp [decodeUnit, hf, hst]
  have h5 (n : State) : fetchUnit .idle a n = .ok n := by simp [fetchUnit, hst]
  rw [cycle_of_backend h h4 (h5 _)]
  exact takeFault_none_eq h.going.1 h.going.2.1

/-- A cycle with Fetch idle and nothing in `F`. -/
theorem cycle_idle_empty {β : Backend} (h : β.Of a) (hF : a.F = bubble ∨ a.F = bubbleStall) :
    cycle .idle a = { a.advance β with D := bubble, F := if a.hold then bubbleStall else bubble } :=
  idle_eq h.going hF h.valid h.noHalt h.mem h.exec

/-- A cycle that goes on has such results. -/
theorem exists_backend (hg : a.Going) (ht : (cycle feed a).status = .Continue) : ∃ β : Backend, β.Fits a := by
  obtain ⟨hv, -, -, hM, -⟩ := cycle_shape hg.1 ht
  obtain ⟨n1, n2, n3, -, -, h1, h2, h3, -⟩ := cycle_clean hg.1 ht
  rw [a.squash_of_not_mispred hg.2.2] at h2 h3
  obtain ⟨vm, μ, hn, hm⟩ | herr := memory_total a.E a.mem
  · obtain ⟨ve, cnd, z, g, o, mb, ma, hnop, hsig, -, hj, hx⟩ | herr := execute_total a.D a.ZF a.SF a.OF a.mispredPC
    · refine ⟨⟨_, z, g, o, mb, ma, vm, μ⟩, ⟨hg, hv, hM, hm, hx⟩, ⟨ve, cnd, rfl⟩, fun h => (hn h).1, fun h => ?_, hsig,
        fun h => ?_⟩
      · obtain ⟨rfl, rfl⟩ := hnop h; rfl
      · obtain ⟨rfl, hc⟩ := hj h
        rw [hc, Bool.not_not]
    · rw [herr _ _ rfl rfl rfl rfl] at h3; cases h3
  · rw [herr _ _ rfl rfl] at h2; cases h2

/-! ### Emptiness -/

theorem Latch.isEmpty_withValM {v : Word} (h : l.isEmpty = false) (hv : l.icode = .nop → v = l.valM) :
    ({ l with valM := v, stalling := false } : Latch).isEmpty = false := by
  by_cases hc : l.icode = .nop
  · rw [hv hc]; exact h
  · exact Latch.isEmpty_of_icode hc

theorem Backend.Fits.e_isEmpty {β : Backend} (h : β.Fits a) (hD : a.D.isEmpty = false) : β.e.isEmpty = false := by
  by_cases hc : a.D.icode = .nop
  · rw [h.emptyD hc]; exact hD
  · obtain ⟨ve, cnd, he⟩ := h.shape
    rw [he]; exact Latch.isEmpty_of_icode hc

theorem decodedLatch_isEmpty (s : State) (h : l.isEmpty = false) : (s.decodedLatch l).isEmpty = false := by
  by_cases hc : l.icode = .nop
  · rw [← Bool.not_eq_true] at h ⊢
    intro he
    apply h
    simp only [Latch.isEmpty, State.decodedLatch, bubble, Latch.mk.injEq, decide_eq_true_eq, Latch.selA, Latch.selB, hc] at he ⊢
    obtain ⟨-, h1, hA, hB, h2, h3, hvA, hvB, h4⟩ := he
    rw [operandValue, if_pos hA] at hvA
    rw [operandValue, if_pos hB] at hvB
    exact ⟨trivial, h1, hA, hB, h2, h3, hvA, hvB, h4⟩
  · exact Latch.isEmpty_of_icode hc

theorem drained_latches (h : s.drained = true) :
    s.F.isEmpty = true ∧ s.D.isEmpty = true ∧ s.E.isEmpty = true ∧ s.M.isEmpty = true := by
  simpa [State.drained, and_assoc] using h

theorem Latch.icode_of_isEmpty (h : l.isEmpty = true) : l.icode = .nop := by
  rcases (Latch.isEmpty_iff _).1 h with rfl | rfl <;> rfl

/-- An empty latch that does not stall is the bubble. -/
theorem Latch.eq_bubble (h : l.isEmpty = true) (hs : l.stalling = false) : l = bubble := by
  rcases (Latch.isEmpty_iff _).1 h with rfl | rfl
  · rfl
  · cases hs

/-! ### How a run that is drained can go wrong -/

theorem cycle_status_of_not_faulted (hs : s.status = .Continue) (hh : (cycle feed s).halted = false)
    (hf : (cycle feed s).faulted = false) : (cycle feed s).status = .Continue := by
  rw [cycle_of_continue feed hs, State.takeFault_eq, State.setStatus_halted] at hh
  have hst := State.takeFault_status (runUnits feed s.squash).raised hh
  rw [cycle_of_continue feed hs] at hf ⊢
  cases hr : (runUnits feed s.squash).raised with
  | none => rw [hr] at hst; exact hst
  | some k =>
    rw [hr] at hst hf
    rw [State.faulted, hst] at hf
    cases k <;> cases hf

/-- With no halt in `M`, a run that does not end in a fault goes on for a cycle. -/
theorem cycle_continues (hs : s.status = .Continue) (hh : s.halted = false) (hM : s.M.icode ≠ .halt)
    (hd : s.drained = false) (hf : (drain (k + 1) s).faulted = false) : (cycle .idle s).status = .Continue := by
  rw [drain_step hd] at hf
  by_cases ht : (cycle .idle s).status = .Continue
  · exact ht
  · rw [drain_of_terminal _ ht] at hf
    exact cycle_status_of_not_faulted hs (by rw [cycle_halted .idle hs, hh]; simpa using hM) hf

/-- A run that ends with nothing in flight has no halt in it. -/
theorem no_halt_of_drained (hd : (drain k s).drained = true) (hc : (drain k s).status = .Continue) :
    s.M.icode ≠ .halt ∧ s.E.icode ≠ .halt ∧ s.squash.D.icode ≠ .halt := by
  have base (s : State) (h : s.drained = true) : s.M.icode ≠ .halt ∧ s.E.icode ≠ .halt ∧ s.squash.D.icode ≠ .halt := by
    obtain ⟨-, hD, hE, hM⟩ := drained_latches h
    rw [Latch.icode_of_isEmpty hM, Latch.icode_of_isEmpty hE, Latch.icode_of_isEmpty (squash_isEmpty.2 hD)]
    exact ⟨nofun, nofun, nofun⟩
  induction k generalizing s with
  | zero => exact base s hd
  | succ k ih =>
    cases hs : s.drained with
    | true => exact base s hs
    | false =>
      rw [drain_step hs] at hd hc
      have ht : (cycle .idle s).status = .Continue := by
        by_contra ht
        exact ht (drain_of_terminal k ht ▸ hc)
      have hs' : s.status = .Continue := by
        by_contra hs'
        exact hs' (cycle_of_terminal .idle hs' ▸ ht)
      obtain ⟨hM, hE, -⟩ := ih hd hc
      obtain ⟨-, -, -, hMs, -, -, -, ⟨v, hM'⟩, ⟨e, c, hE'⟩, -⟩ := cycle_shape hs' ht
      rw [hM'] at hM
      rw [hE'] at hE
      exact ⟨hMs, hM, hE⟩

/-! ### An instruction may wait in `E`, and in `D` -/

/-- The instruction in `M` has committed, and the others have stood still. -/
def State.retireM (a : State) (w : Latch) : State :=
  { a with
    x := a.M.commit a.x
    lock := LockTable.putAll a.lock false a.M.dests
    M := bubble
    W := w }

/-- The old record does not matter to what is drained (R96). -/
theorem drain_withW (hs : s.status = .Continue) (hd : s.drained = false) (hv : ∀ r ∈ s.M.dests, r.toNat < 8) (w : Latch) :
    drain (k + 1) { s with W := w } = drain (k + 1) s := by
  rw [drain_step hd, drain_step (s := { s with W := w }) hd, cycle_withW .idle hs hv]

/-- The squash phase may be done beforehand. -/
theorem drain_squash (hs : s.status = .Continue) (hE : s.E.isEmpty = false) : drain (k + 1) s.squash = drain (k + 1) s := by
  rw [drain_step (not_drained_E hE), drain_step (not_drained_E (by rwa [State.squash_E])), cycle_squash .idle hs]

theorem slide_E_of_going (hg : a.Going) (hF : a.F = bubble ∨ a.F = bubbleStall)
    (hE : a.E.isEmpty = false) (hv : ∀ r ∈ a.M.dests, r.toNat < 8) (hM : a.M.icode ≠ .halt)
    (hvE : ∀ r ∈ a.E.dests, r.toNat < 8) (w : Latch) (hok : (drain (k + 2) (a.retireM w)).faulted = false) :
    drain (k + 2) a = drain (k + 2) (a.retireM w) := by
  have hcE : (a.retireM w).drained = false := not_drained_E hE
  have hgc : (a.retireM w).Going := hg
  obtain ⟨β, hβ⟩ := exists_backend hgc (cycle_continues hg.1 hg.2.1 nofun hcE hok)
  have hβa : β.Of a := ⟨hg, hv, hM, hβ.mem, hβ.exec⟩
  have hnext : cycle .idle (a.retireM w) = { cycle .idle a with W := bubble } := by
    rw [cycle_idle_empty hβa hF, cycle_idle_empty hβ.toOf hF]
    rfl
  have hM1 : (cycle .idle a).M = { a.E with valM := β.vm, stalling := false } := by rw [cycle_idle_empty hβa hF]; rfl
  have hs1 : (cycle .idle a).status = .Continue := by rw [cycle_idle_empty hβa hF]; exact hg.1
  have hd1 : (cycle .idle a).drained = false := not_drained_M (by rw [hM1]; exact Latch.isEmpty_withValM hE hβ.emptyE)
  rw [drain_step (not_drained_E hE), drain_step hcE, hnext]
  exact (drain_withW hs1 hd1 (by rw [hM1]; exact hvE) _).symm

/-- An instruction may wait in `E` while the one in `M` commits. A misprediction it has signalled may be pending. -/
theorem slide_E (hs : a.status = .Continue) (hh : a.halted = false) (hF : a.F = bubble ∨ a.F = bubbleStall)
    (hD : a.D = bubble) (hE : a.E.isEmpty = false) (hv : ∀ r ∈ a.M.dests, r.toNat < 8) (hM : a.M.icode ≠ .halt)
    (hvE : ∀ r ∈ a.E.dests, r.toNat < 8) (w : Latch) (hok : (drain (k + 2) (a.retireM w)).faulted = false) :
    drain (k + 2) a = drain (k + 2) (a.retireM w) := by
  cases hm : a.mispred with
  | false => exact slide_E_of_going ⟨hs, hh, hm⟩ hF hE hv hM hvE w hok
  | true =>
    have hsq : (a.retireM w).squash = a.squash.retireM w := by
      rw [State.squash_of_mispred hm, State.squash_of_mispred (s := a.retireM w) hm]
      simp only [State.retireM, State.redirect, hD]
      rfl
    rw [← drain_squash hs hE, ← drain_squash (s := a.retireM w) hs hE, hsq]
    rw [← drain_squash (s := a.retireM w) hs hE, hsq] at hok
    exact slide_E_of_going ⟨a.squash_status.trans hs, a.squash_halted.trans hh, a.squash_mispred⟩
      (.inl (by rw [State.squash_of_mispred hm]; rfl)) (by rwa [State.squash_E])
      (by rwa [State.squash_M]) (by rwa [State.squash_M]) (by rwa [State.squash_E]) w hok

/-- The instruction in `M` has committed, the one in `E` has done its access, and the others have stood still. -/
def State.retireE (a : State) (vm : Word) (μ : Memory) (w : Latch) : State :=
  { a with
    x := a.M.commit a.x
    lock := LockTable.putAll a.lock false a.M.dests
    M := { a.E with valM := vm, stalling := false }
    mem := μ
    E := bubble
    W := w }

/-- An instruction may wait in `D` while those in `E` and `M` move on. -/
theorem slide_D (hg : a.Going) (hF : a.F = bubble ∨ a.F = bubbleStall) (hD : a.D.isEmpty = false)
    (hv : ∀ r ∈ a.M.dests, r.toNat < 8) (hM : a.M.icode ≠ .halt) (hvE : ∀ r ∈ a.E.dests, r.toNat < 8)
    (hE : a.E.icode ≠ .halt) (hret : a.E.icode ≠ .ret) (hvD : ∀ r ∈ a.D.dests, r.toNat < 8) {vm : Word} {μ : Memory}
    (hmem : MemSpec a.E a.mem vm μ) (w : Latch) (hok : (drain (k + 3) (a.retireE vm μ w)).faulted = false) :
    drain (k + 3) a = drain (k + 3) (a.retireE vm μ w) := by
  have hcD : (a.retireE vm μ w).drained = false := not_drained_D hD
  have hgc : (a.retireE vm μ w).Going := hg
  obtain ⟨β, hβ⟩ := exists_backend hgc (cycle_continues hg.1 hg.2.1 hE hcD hok)
  have hβa : Backend.Of { β with vm := vm, μ := μ } a := ⟨hg, hv, hM, hmem, hβ.exec⟩
  have hβc : Backend.Of { β with vm := 0, μ := μ } (a.retireE vm μ w) := ⟨hg, hvE, hE, memSpec_bubble μ, hβ.exec⟩
  have hhold : (a.retireE vm μ w).hold = a.hold := by
    rw [State.hold, State.hold, decide_eq_false hret]; rfl
  have ha1 := cycle_idle_empty hβa hF
  have hnext : cycle .idle (a.retireE vm μ w) = (cycle .idle a).retireM { a.E with valM := vm, stalling := false } := by
    rw [ha1, cycle_idle_empty hβc hF, hhold]
    simp only [State.advance, State.retireM, hret, ↓reduceIte]
    rfl
  obtain ⟨ve, cnd, he⟩ := hβ.shape
  rw [drain_step (not_drained_D hD), drain_step hcD, hnext]
  rw [drain_step hcD, hnext] at hok
  refine slide_E ?_ ?_ ?_ ?_ ?_ ?_ ?_ ?_ _ hok <;> rw [ha1]
  · exact hg.1
  · exact hg.2.1
  · by_cases h : a.hold = true <;> simp [h]
  · exact hβ.e_isEmpty hD
  · exact hvE
  · exact hE
  · change ∀ r ∈ β.e.dests, _
    rw [he]
    exact hvD

end Sys2Proof.Machine
end

section
/-! PROOFS. An instruction may wait in `F`, and what follows from it (spec/70_reset_and_hazards.md sections 2 and 4). -/

namespace Sys2Proof.Machine

variable {s t a b c q : State} {feed : Feed} {k : Nat} {l : Latch} {p : Word} {f : Fields}

/-! ### Instructions with nothing fetched behind them -/

/-- Instructions in `D`, `E` and `M` that drain away: nothing is fetched behind them, and none of them is a return or a halt or
turns out to be a mispredicted jump. -/
structure State.Trailing (b : State) : Prop where
  going : b.Going
  inv : b.PipelineInv
  empty : b.F = bubble
  plain : ∀ l ∈ [b.D, b.E, b.M], l.icode ≠ .ret ∧ l.icode ≠ .halt ∧ l.stalling = false
  taken : b.D.icode = .jump → condition b.D.ifun b.ZF b.SF b.OF = some true

theorem State.Trailing.hold (h : b.Trailing) : b.hold = false := by
  have hD := (h.plain b.D (by simp)).1
  have hE := (h.plain b.E (by simp)).1
  simp [State.hold, h.empty, hD, hE]

/-- They move on by one cycle. -/
theorem State.Trailing.next (h : b.Trailing) (ht : (cycle .idle b).status = .Continue) :
    ∃ β : Backend, β.Fits b ∧ β.mb = false ∧ cycle .idle b = { b.advance β with D := bubble } ∧ (cycle .idle b).Trailing := by
  obtain ⟨β, hβ⟩ := exists_backend h.going ht
  have hmb : β.mb = false := by
    cases hm : β.mb with
    | false => rfl
    | true =>
      have hj := hβ.signal hm
      have hc := hβ.jump hj
      rw [h.taken hj, hm] at hc
      cases hc
  have heq : cycle .idle b = { b.advance β with D := bubble } := by
    rw [cycle_idle_empty hβ.toOf (.inl h.empty), h.hold]
    simp only [State.advance, h.empty, Bool.false_eq_true, ↓reduceIte]
  have hinv := cycle_keeps_inv Feed.admissible_idle h.going.1 ht h.inv
  obtain ⟨ve, cnd, he⟩ := hβ.shape
  refine ⟨β, hβ, hmb, heq, ⟨ht, hinv.running, ?_⟩, hinv, ?_, fun l hl => ?_, ?_⟩
  · rw [heq]; exact hmb
  · rw [heq]; exact h.empty
  · rw [heq] at hl
    simp only [List.mem_cons, List.not_mem_nil, or_false] at hl
    rcases hl with rfl | rfl | rfl
    · exact ⟨nofun, nofun, rfl⟩
    · obtain ⟨hr, hh, -⟩ := h.plain b.D (by simp)
      change β.e.icode ≠ _ ∧ β.e.icode ≠ _ ∧ β.e.stalling = _
      rw [he]
      exact ⟨hr, hh, rfl⟩
    · obtain ⟨hr, hh, -⟩ := h.plain b.E (by simp)
      exact ⟨hr, hh, rfl⟩
  · rw [heq]; nofun

/-- Once they have drained away, the machine is between two instructions. -/
theorem State.Trailing.quiescent (h : b.Trailing) (hd : b.drained = true) : b.Quiescent := by
  obtain ⟨-, hD, hE, hM⟩ := drained_latches hd
  have hD := Latch.eq_bubble hD (h.plain b.D (by simp)).2.2
  have hE := Latch.eq_bubble hE (h.plain b.E (by simp)).2.2
  have hM := Latch.eq_bubble hM (h.plain b.M (by simp)).2.2
  refine ⟨h.going.1, h.going.2.1, h.going.2.2, LockTable.ext_isLocked fun r h8 => ?_, h.empty, hD, hE, hM⟩
  rw [LockTable.isLocked_none, ← Bool.not_eq_true, h.inv.locked r h8, hD, hE, hM]
  simp

/-! ### An instruction waits in `F` -/

/-- An instruction stands in `F` behind the others. -/
def State.behind (b : State) (l : Latch) (p : Word) : State := { b with F := l, pc := p }

theorem behind_not_drained (hl : l.isEmpty = false) : (b.behind l p).drained = false := not_drained_F hl

/-- In a cycle that goes on Decode has found good registers in `F`. -/
theorem registerFault_of_cycle (hg : a.Going) (ht : (cycle feed a).status = .Continue) : a.F.registerFault = false := by
  obtain ⟨-, hf, -⟩ := cycle_shape hg.1 ht
  rwa [a.squash_of_not_mispred hg.2.2] at hf

/-- The results where Execute has nothing to do. -/
def Backend.quiet (c : State) (vm : Word) (μ : Memory) : Backend :=
  { e := bubble, z := c.ZF, g := c.SF, o := c.OF, mb := false, ma := c.mispredPC, vm := vm, μ := μ }

theorem Backend.Of.quiet {β : Backend} (h : β.Of c) (hD : c.D = bubble ∨ c.D = bubbleStall) :
    (Backend.quiet c β.vm β.μ).Of c :=
  ⟨h.going, h.valid, h.noHalt, h.mem, execSpec_empty hD _ _ _ _⟩

/-- The `stalling` bits an earlier stall has left in `D` and `F` do not matter to the next cycle. -/
theorem cycle_idle_stalling_bits (hg : c.Going) (hD : c.D = bubble) (ht : (cycle .idle c).status = .Continue) :
    cycle .idle { c with D := bubbleStall, F := { c.F with stalling := true } } = cycle .idle c := by
  obtain ⟨β, hβ⟩ := exists_backend hg ht
  have hf := registerFault_of_cycle hg ht
  have hc := hβ.toOf.quiet (.inl hD)
  have hc' : (Backend.quiet c β.vm β.μ).Of { c with D := bubbleStall, F := { c.F with stalling := true } } :=
    ⟨hg, hβ.valid, hβ.noHalt, hβ.mem, execSpec_empty (.inr rfl) _ _ _ _⟩
  have hhold : State.hold { c with D := bubbleStall, F := { c.F with stalling := true } } = c.hold := by
    rw [State.hold, State.hold, hD]; rfl
  cases hst : c.stall with
  | true => rw [cycle_idle_stalls hc hf hst, cycle_idle_stalls hc' hf hst]; rfl
  | false => rw [cycle_idle_accepts hc hf hst, cycle_idle_accepts hc' hf hst, hhold]; rfl

/-- A commit leaves every register that is no destination (R92). -/
theorem Latch.read_commit_of_not_mem {m : Latch} (hv : ∀ r ∈ m.dests, r.toNat < 8) (x : RegFile) {q : Nibble}
    (hq : q ∉ m.dests) : RegFile.read (m.commit x) q = RegFile.read x q := by
  rw [Latch.read_commit hv]
  unfold Latch.dests at hq
  have hsp : Config.stackPointer = 4 := rfl
  cases hc : m.icode <;> simp_all

/-- What Decode reads does not change when an instruction commits whose destinations are no operands. -/
theorem decodedLatch_commit {m : Latch} (hv : ∀ r ∈ m.dests, r.toNat < 8) (hA : l.selA ∉ m.dests) (hB : l.selB ∉ m.dests)
    (hx : c.x = m.commit b.x) : c.decodedLatch l = b.decodedLatch l := by
  have hval (r : Nibble) (old : Word) (hr : r ∉ m.dests) : operandValue (m.commit b.x) r old = operandValue b.x r old := by
    rw [operandValue, operandValue, Latch.read_commit_of_not_mem hv _ hr]
  rw [State.decodedLatch, State.decodedLatch, hx, hval _ _ hA, hval _ _ hB]

/-- Locks are taken and released in either order when they are different ones. -/
theorem LockTable.putAll_comm (t : LockTable) {ds es : List Nibble} (hd : ∀ r ∈ ds, r.toNat < 8) (he : ∀ r ∈ es, r.toNat < 8)
    (h : ∀ r ∈ ds, r ∉ es) :
    LockTable.putAll (LockTable.putAll t true ds) false es = LockTable.putAll (LockTable.putAll t false es) true ds := by
  apply LockTable.ext_isLocked
  intro r _
  rw [LockTable.isLocked_putAll _ _ _ _ he, LockTable.isLocked_putAll _ _ _ _ hd, LockTable.isLocked_putAll _ _ _ _ hd,
    LockTable.isLocked_putAll _ _ _ _ he]
  by_cases hr : r ∈ ds
  · rw [if_pos hr, if_neg (h r hr), if_pos hr]
  · rw [if_neg hr, if_neg hr]

/-- Decode waits for less when fewer registers are locked. -/
theorem stall_mono (hF : c.F = a.F) (hl : ∀ r, c.lock.isLocked r = true → a.lock.isLocked r = true) (h : a.stall = false) :
    c.stall = false := by
  have hop (r : Nibble) (hr : operandLocked a.lock r = false) : operandLocked c.lock r = false := by
    rw [← Bool.not_eq_true] at hr ⊢
    simp only [operandLocked, Bool.and_eq_true, not_and] at hr ⊢
    exact fun hn hc => hr hn (hl r hc)
  simp only [State.stall, Bool.or_eq_false_iff, hF] at h ⊢
  exact ⟨hop _ h.1, hop _ h.2⟩

theorem behind_hold (h : b.Trailing) : (b.behind l p).hold = decide (l.icode = .ret) := by
  have hD := (h.plain b.D (by simp)).1
  have hE := (h.plain b.E (by simp)).1
  rw [State.hold]
  change (decide (l.icode = .ret) || decide (b.D.icode = .ret) || decide (b.E.icode = .ret)) = _
  rw [decide_eq_false hD, decide_eq_false hE, Bool.or_false, Bool.or_false]

/-- An operand Decode has found free is no destination of an instruction in flight (R22, R81). -/
theorem operand_not_dest (hi : a.PipelineInv) (hst : a.stall = false) {r : Nibble} (hr : r = a.F.selA ∨ r = a.F.selB) :
    r ∉ a.D.dests ∧ r ∉ a.E.dests ∧ r ∉ a.M.dests := by
  refine ⟨fun hm => ?_, fun hm => ?_, fun hm => ?_⟩
  · have h8 := hi.validD r hm
    have hl := (hi.locked r h8).2 (.inl hm)
    rw [operand_unlocked hst hr h8] at hl; cases hl
  · have h8 := hi.validE r hm
    have hl := (hi.locked r h8).2 (.inr (.inl hm))
    rw [operand_unlocked hst hr h8] at hl; cases hl
  · have h8 := hi.validM r hm
    have hl := (hi.locked r h8).2 (.inr (.inr hm))
    rw [operand_unlocked hst hr h8] at hl; cases hl

/-- The invariant does not speak of `F`, except that an ALU instruction in it has one of the four functions. -/
theorem behind_inv (h : b.PipelineInv) (hop : l.icode = .op → l.ifun.toNat ≤ 3) : (b.behind l p).PipelineInv :=
  { h with opF := hop }

/-- The instruction in `F` has stood still while those in front of it have moved on by one cycle. -/
def State.letPass (a : State) (β : Backend) : State := { a.advance β with D := bubble }

/-- Decode accepts after the wait what it accepts before it: the operands of the instruction in `F` are free, so no commit that
goes by changes them (R71, R81, R82). -/
theorem cycle_idle_letPass {β : Backend} {vm : Word} {μ : Memory} (hβ : β.Of a)
    (hγ : (Backend.quiet (a.letPass β) vm μ).Of (a.letPass β)) (hi : a.PipelineInv) (hf : a.F.registerFault = false)
    (hst : a.stall = false) (hhold : (a.letPass β).hold = a.hold) (hret : β.e.icode ≠ .ret) (hmb : β.mb = false) :
    cycle .idle (a.letPass β) = (cycle .idle a).retireE vm μ { (a.advance β).M with stalling := false } := by
  have hfree := fun r => operand_not_dest (r := r) hi hst
  have hdests := dests_of_no_registerFault hf
  have hstc : (a.letPass β).stall = false := by
    refine stall_mono (a := a) rfl (fun r hr => ?_) hst
    change (LockTable.putAll a.lock false a.M.dests).isLocked r = true at hr
    rw [LockTable.isLocked_putAll _ _ _ _ hβ.valid] at hr
    split at hr
    · cases hr
    · exact hr
  have hdec : (a.letPass β).decodedLatch (a.letPass β).F = a.decodedLatch a.F :=
    decodedLatch_commit (m := a.M) hβ.valid (hfree _ (.inl rfl)).2.2 (hfree _ (.inr rfl)).2.2 rfl
  have hlock := LockTable.putAll_comm (LockTable.putAll a.lock false a.M.dests) (ds := a.F.dests) (es := a.E.dests)
    (fun r hr => (hdests r hr).1) hi.validE (fun r hr => (hfree r (hdests r hr).2).2.1)
  have hpc : (if (a.letPass β).E.icode = .ret then vm else (a.letPass β).pc) = (a.advance β).pc := if_neg hret
  have hm : (a.advance β).mispred = false := hmb
  rw [cycle_idle_accepts hγ hf hstc, cycle_idle_accepts hβ hf hst, hhold, hdec]
  rw [State.retireE, State.mk.injEq]
  exact ⟨rfl, hpc, rfl, rfl, rfl, rfl, hm.symm, rfl, rfl, hlock.symm, rfl, rfl, rfl, rfl, rfl, rfl⟩

/-- An instruction may wait in `F` while those in front of it move on by one cycle. -/
theorem slide_F (h : b.Trailing) (ht : (cycle .idle b).status = .Continue) (hl : l.isEmpty = false)
    (hop : l.icode = .op → l.ifun.toNat ≤ 3) (hset : Settles (k + 4) ((cycle .idle b).behind l p))
    (hok : (drain (k + 4) ((cycle .idle b).behind l p)).faulted = false) :
    drain (k + 5) (b.behind l p) = drain (k + 4) ((cycle .idle b).behind l p) := by
  obtain ⟨β, hβ, hmb, heq, hnext⟩ := h.next ht
  obtain ⟨ve, cnd, he⟩ := hβ.shape
  have hretE := (h.plain b.E (by simp)).1
  have hret : β.e.icode ≠ .ret := by rw [he]; exact (h.plain b.D (by simp)).1
  have hc : (cycle .idle b).behind l p = (b.behind l p).letPass β := by
    rw [heq]
    simp only [State.behind, State.letPass, State.advance, hretE, ↓reduceIte]
  have hhold : ((b.behind l p).letPass β).hold = (b.behind l p).hold := by rw [← hc, behind_hold hnext, behind_hold h]
  have hgc : ((b.behind l p).letPass β).Going := by rw [← hc]; exact hnext.going
  have hcM : ((b.behind l p).letPass β).M.icode ≠ .halt := (h.plain b.E (by simp)).2.1
  have hcd : ((b.behind l p).letPass β).drained = false := not_drained_F hl
  rw [hc] at hset hok ⊢
  have htc := cycle_continues hgc.1 hgc.2.1 hcM hcd hok
  obtain ⟨γ, hγ⟩ := exists_backend hgc htc
  have hγ := hγ.toOf.quiet (.inl rfl)
  have hf : l.registerFault = false := registerFault_of_cycle hgc htc
  have hi := behind_inv (p := p) h.inv hop
  have hβa : β.Of (b.behind l p) := ⟨hβ.going, hβ.valid, hβ.noHalt, hβ.mem, hβ.exec⟩
  cases hst : (b.behind l p).stall with
  | true =>
    have ha1 : cycle .idle (b.behind l p) =
        { (b.behind l p).letPass β with D := bubbleStall, F := { l with stalling := true } } :=
      cycle_idle_stalls hβa hf hst
    rw [drain_step (behind_not_drained hl), ha1, drain_step hcd, drain_step (not_drained_F hl)]
    exact congrArg (drain (k + 3)) (cycle_idle_stalling_bits hgc rfl htc)
  | false =>
    have hc1 := cycle_idle_letPass hβa hγ hi hf hst hhold hret hmb
    have ha1 := cycle_idle_accepts hβa hf hst
    rw [← drain_of_le hset (Nat.le_succ _)] at hok ⊢
    rw [drain_step hcd, hc1] at hok ⊢
    rw [drain_step (behind_not_drained hl)]
    refine slide_D ?_ ?_ ?_ ?_ ?_ ?_ ?_ ?_ ?_ ?_ _ hok <;> rw [ha1]
    · exact ⟨h.going.1, h.going.2.1, hmb⟩
    · by_cases hh : (b.behind l p).hold = true <;> simp [hh]
    · exact decodedLatch_isEmpty _ hl
    · exact h.inv.validE
    · exact hcM
    · change ∀ r ∈ β.e.dests, _
      rw [he]; exact h.inv.validD
    · change β.e.icode ≠ .halt
      rw [he]; exact (h.plain b.D (by simp)).2.1
    · exact hret
    · exact fun r hr => (dests_of_no_registerFault hf r hr).1
    · exact hγ.mem

end Sys2Proof.Machine
end

section
/-! PROOFS. Finishing the pipeline is executing one instruction after another (spec/70_reset_and_hazards.md section 4). -/

namespace Sys2Proof.Machine

variable {s t b u q : State} {k : Nat} {l : Latch} {p : Word} {f : Fields}

/-! ### An instruction waits until those in front of it have drained away -/

/-- The instruction in `F` of an empty pipeline needs four cycles. -/
theorem settles_four_behind (h : b.Trailing) (hd : b.drained = true) (hop : l.icode = .op → l.ifun.toNat ≤ 3) :
    Settles 4 (b.behind l p) := by
  obtain ⟨-, -, hm, -, -, hD, hE, hM⟩ := h.quiescent hd
  have hst := not_stall_of_no_dests (behind_inv (p := p) h.inv hop) (congrArg Latch.dests hD) (congrArg Latch.dests hE)
    (congrArg Latch.dests hM)
  refine settles_succ (Nat.le_refl 3) fun _ _ hst' => ?_
  rw [State.squash_of_not_mispred (s := b.behind l p) hm, hst] at hst'
  cases hst'

theorem drain_retired_record (h : b.Trailing) (hl : l.isEmpty = false) :
    drain (k + 1) { b.behind l p with W := bubble } = drain (k + 1) (b.behind l p) :=
  drain_withW (s := b.behind l p) h.going.1 (behind_not_drained hl) h.inv.validM bubble

/-- What drains away keeps its form to the end, and `pc` and the capacity with it. -/
theorem State.Trailing.drain (h : b.Trailing) (hc : (drain k b).status = .Continue) :
    (drain k b).Trailing ∧ (drain k b).pc = b.pc ∧ (drain k b).mem.capacity = b.mem.capacity := by
  induction k generalizing b with
  | zero => exact ⟨h, rfl, rfl⟩
  | succ k ih =>
    cases hb : b.drained with
    | true => rw [drain_of_drained _ hb]; exact ⟨h, rfl, rfl⟩
    | false =>
      rw [drain_step hb] at hc ⊢
      have ht : (cycle .idle b).status = .Continue := by
        by_contra ht
        exact ht (drain_of_terminal k ht ▸ hc)
      obtain ⟨β, -, -, heq, hnext⟩ := h.next ht
      have hpc : (cycle .idle b).pc = b.pc := by rw [heq]; exact if_neg (h.plain b.E (by simp)).1
      obtain ⟨htr, hp, hm⟩ := ih hnext hc
      exact ⟨htr, hp.trans hpc, hm.trans (cycle_mem_capacity .idle b)⟩

/-- An instruction may wait in `F` until those in front of it have drained away. -/
theorem drain_behind (hl : l.isEmpty = false) (hop : l.icode = .op → l.ifun.toNat ≤ 3) (h : b.Trailing)
    (hd : (drain k b).drained = true) (hc : (drain k b).status = .Continue)
    (hok : (drain 4 ((drain k b).behind l p)).faulted = false) :
    drain (k + 4) (b.behind l p) = drain 4 ((drain k b).behind l p) ∧ Settles (k + 4) (b.behind l p) := by
  induction k generalizing b with
  | zero => exact ⟨rfl, settles_four_behind h hd hop⟩
  | succ k ih =>
    cases hb : b.drained with
    | true =>
      have h4 := settles_four_behind (p := p) h hb hop
      rw [drain_of_drained _ hb]
      exact ⟨drain_of_le h4 (by omega), h4.mono (by omega)⟩
    | false =>
      rw [drain_step hb] at hd hc hok ⊢
      have ht : (cycle .idle b).status = .Continue := by
        by_contra ht
        exact ht (drain_of_terminal k ht ▸ hc)
      obtain ⟨-, -, -, -, hnext⟩ := h.next ht
      obtain ⟨heq, hset⟩ := ih hnext hd hc hok
      have hslide := slide_F h ht hl hop hset (heq ▸ hok)
      rw [show k + 1 + 4 = k + 5 by omega]
      exact ⟨hslide.trans heq, by rwa [Settles, hslide]⟩

/-! ### One cycle of the pipeline -/

theorem Progress.run_congr {unit unit' : State → State → Except FaultKind State} {s0 : State} (h : unit s0 = unit' s0)
    (p : Progress) : p.run unit s0 = p.run unit' s0 := by
  simp only [Progress.run, h]

/-- Two feeds that Fetch treats alike make the same cycle. -/
theorem cycle_congr_feed {feed feed' : Feed} (h : fetchUnit feed s.squash = fetchUnit feed' s.squash) :
    cycle feed s = cycle feed' s := by
  have hrun : runUnits feed s.squash = runUnits feed' s.squash := Progress.run_congr h _
  simp only [cycle, hrun]

/-- A cycle that does not fetch is one with Fetch idle. -/
theorem cycle_of_not_fetchReady (h : s.fetchReady = false) : cycle .memory s = cycle .idle s := by
  refine cycle_congr_feed (funext fun n => ?_)
  simp only [State.fetchReady, Bool.and_eq_false_iff, Bool.not_eq_false'] at h
  rcases h with h | h <;> simp [fetchUnit, h]

theorem fetchReady_iff (s : State) : s.fetchReady = true ↔ s.squash.stall = false ∧ s.squash.hold = false := by
  simp [State.fetchReady]

/-- A fetch from memory is the presentation of the instruction read there. -/
theorem cycle_memory_eq_present (hp : parse (s.mem.fetchWindow s.fetchAddress) = .ok f) :
    cycle .memory s = cycle (.present f) s := by
  obtain ⟨-, -, hl, -⟩ := parse_ok hp
  have hpos := f.icode.length_pos
  rw [Memory.fetchWindow_length] at hl
  have hb : s.squash.pc.toNat + f.icode.length ≤ s.squash.mem.capacity := by
    rw [State.squash_mem]
    change s.fetchAddress.toNat + _ ≤ _
    omega
  rw [State.fetchAddress, ← State.squash_mem] at hp
  refine cycle_congr_feed (funext fun n => ?_)
  simp only [fetchUnit, hp, hb, ↓reduceIte]

/-- A cycle that fetches does what it does with Fetch idle, and puts the instruction in `F`. -/
theorem cycle_memory_eq_behind (hs : s.status = .Continue) (hr : s.fetchReady = true)
    (hp : parse (s.mem.fetchWindow s.fetchAddress) = .ok f) (ht : (cycle .memory s).status = .Continue) :
    (cycle .idle s).status = .Continue ∧ (cycle .idle s).F = bubble ∧
      cycle .memory s = (cycle .idle s).behind (fetchedLatch f s.fetchAddress) (predictedPc (fetchedLatch f s.fetchAddress)) := by
  obtain ⟨hst, hho⟩ := (fetchReady_iff s).1 hr
  obtain ⟨n1, n2, n3, n4, n5, h1, h2, h3, h4, h5, hh, hc⟩ := cycle_clean hs ht
  have h5' : fetchUnit .idle s.squash n4 = .ok (n4.latchF bubble) := by simp [fetchUnit, hst, hho]
  rw [State.fetchAddress, ← State.squash_mem] at hp
  have h5'' : n5 = n4.fetched (fetchedLatch f s.squash.pc) := by
    simp only [fetchUnit, hst, hho, hp, Bool.false_eq_true, ↓reduceIte, Except.ok.injEq] at h5
    exact h5.symm
  have hh4 : n4.halted = false := by rw [h5''] at hh; exact hh
  have hidle : cycle .idle s = (n4.latchF bubble).setStatus .Continue := by
    rw [cycle_of_continue .idle hs, runUnits_of_ok h1 h2 h3 h4 h5']
    exact State.takeFault_none _ hh4
  rw [hidle, hc, h5'']
  exact ⟨rfl, rfl, rfl⟩

/-- The instruction read from a memory of fewer than 2^64 bytes is no bubble: a `nop` has the address behind it. -/
theorem fetchedLatch_isEmpty (hcap : s.mem.capacity < 2 ^ 64) (hp : parse (s.mem.fetchWindow s.fetchAddress) = .ok f) :
    (fetchedLatch f s.fetchAddress).isEmpty = false := by
  by_cases hn : f.icode = .nop
  · obtain ⟨-, -, hl, -⟩ := parse_ok hp
    have hlen : f.icode.length = 1 := by rw [hn]; rfl
    rw [Memory.fetchWindow_length, hlen] at hl
    rw [← Bool.not_eq_true, Latch.isEmpty, decide_eq_true_eq]
    intro he
    have hv : s.fetchAddress + BitVec.ofNat 64 f.icode.length = 0 := congrArg Latch.valP he
    rw [hlen] at hv
    have := congrArg BitVec.toNat hv
    simp only [BitVec.toNat_add, BitVec.toNat_ofNat, BitVec.ofNat_eq_ofNat] at this
    omega
  · exact Latch.isEmpty_of_icode hn

theorem fetchReady_of_drained (hd : s.drained = true) : s.fetchReady = true := by
  obtain ⟨hF, hD, hE, -⟩ := drained_latches hd
  have hF' := Latch.icode_of_isEmpty (squash_isEmpty.1 hF)
  have hD' := Latch.icode_of_isEmpty (squash_isEmpty.2 hD)
  have hE' := Latch.icode_of_isEmpty hE
  rw [fetchReady_iff]
  exact ⟨squash_stall_of_isEmpty hF, by simp [State.hold, hF', hD', hE']⟩

/-- What a fetching cycle leaves behind Fetch drains away, unless a jump turns out mispredicted. -/
theorem trailing_of_fetch (hs : s.status = .Continue) (hi : s.PipelineInv) (hr : s.fetchReady = true)
    (hc : (drain k (cycle .idle s)).status = .Continue) (hd : (drain k (cycle .idle s)).drained = true)
    (ht : (cycle .idle s).status = .Continue) (hF : (cycle .idle s).F = bubble) (hm : (cycle .idle s).mispred = false)
    (htaken : (cycle .idle s).D.icode = .jump →
      condition (cycle .idle s).D.ifun (cycle .idle s).ZF (cycle .idle s).SF (cycle .idle s).OF = some true) :
    (cycle .idle s).Trailing := by
  obtain ⟨hst, hho⟩ := (fetchReady_iff s).1 hr
  have hinv := cycle_keeps_inv Feed.admissible_idle hs ht hi
  obtain ⟨nM, nE, nD⟩ := no_halt_of_drained hd hc
  rw [State.squash_of_not_mispred hm] at nD
  simp only [State.hold, Bool.or_eq_false_iff, decide_eq_false_iff_not, State.squash_E] at hho
  obtain ⟨⟨rF, rD⟩, rE⟩ := hho
  obtain ⟨-, -, -, -, -, -, -, ⟨v, hM⟩, ⟨e, c, hE⟩, ⟨hno, -⟩ | ⟨-, hD, -⟩, -⟩ := cycle_shape hs ht
  · rw [hst] at hno; cases hno
  · refine ⟨⟨ht, hinv.running, hm⟩, hinv, hF, fun l hl => ?_, htaken⟩
    simp only [List.mem_cons, List.not_mem_nil, or_false] at hl
    rcases hl with rfl | rfl | rfl
    · refine ⟨?_, nD, ?_⟩ <;> rw [hD]
      · exact rF
      · rfl
    · refine ⟨?_, nE, ?_⟩ <;> rw [hE]
      exact rD
    · refine ⟨?_, nM, ?_⟩ <;> rw [hM]
      exact rE

/-- A quiescent machine takes the instruction, which then stands alone in `F`. -/
theorem passThrough_of_trailing (h : q.Trailing) (hd : q.drained = true) (hop : f.icode = .op → f.ifun.toNat ≤ 3)
    (hb : q.pc.toNat + f.icode.length ≤ q.mem.capacity) (hl : (fetchedLatch f q.pc).isEmpty = false) :
    passThrough f q = drain 4 (q.behind (fetchedLatch f q.pc) (predictedPc (fetchedLatch f q.pc))) := by
  have h4 := settles_four_behind (l := fetchedLatch f q.pc) (p := predictedPc (fetchedLatch f q.pc)) h hd hop
  have hq := h.quiescent hd
  rw [passThrough_of_ready (quiescent_fetchReady hq), cycle_present hq f hb, ← drain_of_le h4 (show 4 ≤ 7 by decide)]
  exact drain_retired_record h hl

/-- A settled run that has not ended is drained. -/
theorem drained_of_settles (h : Settles k s) (hc : (drain k s).status = .Continue) : (drain k s).drained = true :=
  h.resolve_right (not_not_intro hc)

/-- The first half of the agreement: the fetched instruction waits until those in front of it have drained away, and is then
executed alone. -/
theorem drain_eq_passThrough (hs : s.status = .Continue) (hi : s.PipelineInv) (hcap : s.mem.capacity < 2 ^ 64)
    (hr : s.fetchReady = true) (hp : parse (s.mem.fetchWindow s.fetchAddress) = .ok f)
    (ht : (cycle .memory s).status = .Continue) (hc : (drain 7 s).status = .Continue)
    (hm : (cycle .memory s).mispred = false)
    (htaken : (cycle .memory s).D.icode = .jump →
      condition (cycle .memory s).D.ifun (cycle .memory s).ZF (cycle .memory s).SF (cycle .memory s).OF = some true)
    (hok : (passThrough f (drain 7 s)).faulted = false) :
    drain 7 (cycle .memory s) = passThrough f (drain 7 s) := by
  cases hd : s.drained with
  | true => rw [drain_of_drained _ hd, passThrough_of_ready hr, cycle_memory_eq_present hp]
  | false =>
    obtain ⟨ht1, hF, heq⟩ := cycle_memory_eq_behind hs hr hp ht
    have hset := settles_three (s := cycle .idle s) (by rw [hF]; rfl)
    have h7 : drain 7 s = drain 3 (cycle .idle s) := (drain_step hd).trans (drain_of_le hset (by decide))
    rw [h7] at hc hok ⊢
    rw [heq] at hm htaken ⊢
    have hd3 := drained_of_settles hset hc
    have hret : s.E.icode ≠ .ret := by
      have hho := ((fetchReady_iff s).1 hr).2
      intro h
      rw [s.squash.hold_iff.2 (.inr (.inr (by rwa [State.squash_E])))] at hho
      cases hho
    obtain ⟨htr, hpc, hmc⟩ := (trailing_of_fetch hs hi hr hc hd3 ht1 hF hm htaken).drain hc
    have hpc : (drain 3 (cycle .idle s)).pc = s.fetchAddress := hpc.trans (cycle_pc_of_no_fetch hs hret (.inl rfl))
    have hmc := hmc.trans (cycle_mem_capacity .idle s)
    have hl := fetchedLatch_isEmpty hcap hp
    have hpass := passThrough_of_trailing htr hd3 (parse_op hp) (by
      obtain ⟨-, -, hlen, -⟩ := parse_ok hp
      have := f.icode.length_pos
      rw [Memory.fetchWindow_length] at hlen
      rw [hpc, hmc]
      omega) (by rw [hpc]; exact hl)
    rw [hpc] at hpass
    rw [hpass] at hok ⊢
    exact (drain_behind hl (parse_op hp) (trailing_of_fetch hs hi hr hc hd3 ht1 hF hm htaken) hd3 hc hok).1

/-! ### Nothing is fetched, or on the wrong path -/

/-- Once a misprediction is signalled, what stands on the wrong path does not matter to what is drained. -/
theorem drain_wrong_path (hs : s.PipelineInv) (hu : u.PipelineInv) (hsc : s.status = .Continue) (huc : u.status = .Continue)
    (hm : s.mispred = true) (h : { u with F := s.F, D := s.D, pc := s.pc, lock := s.lock } = s) :
    drain (k + 1) u = drain (k + 1) s := by
  have nonempty {v : State} (hv : v.PipelineInv) (hvm : v.mispred = true) : v.E.isEmpty = false :=
    Latch.isEmpty_of_icode (by rw [(hv.mispredicted hvm).1]; nofun)
  have hum : u.mispred = true := (congrArg State.mispred h).trans hm
  rw [← drain_squash hsc (nonempty hs hm), ← drain_squash huc (nonempty hu hum), squash_eq_of_wrong_path hs hu hm h]

/-- A jump on whose mispredicted path Fetch is already. -/
theorem drain_eq_of_signalled (hs : s.status = .Continue) (hi : s.PipelineInv)
    (ht : (cycle .memory s).status = .Continue) (hm : (cycle .memory s).mispred = true)
    (hd : s.drained = false) (heq : ∃ l p, cycle .memory s = (cycle .idle s).behind l p)
    (ht1 : (cycle .idle s).status = .Continue) : drain 7 (cycle .memory s) = drain 7 s := by
  obtain ⟨l, p, heq⟩ := heq
  have hset := settles_of_inv hi
  rw [Settles, drain_step hd] at hset
  have hi1 := cycle_keeps_inv Feed.admissible_idle hs ht1 hi
  have hi2 := cycle_keeps_inv Feed.admissible_memory hs ht hi
  have hpath := fun k => drain_wrong_path (k := k) hi1 hi2 ht1 ht (by rw [heq] at hm; exact hm) (by rw [heq]; rfl)
  rw [hpath 6, drain_step hd]
  exact drain_of_le hset (by decide)

end Sys2Proof.Machine
end

section
/-! PROOFS. The agreement of the pipeline with sequential execution (spec/70_reset_and_hazards.md section 4). -/

namespace Sys2Proof.Machine

variable {s t b : State} {k : Nat} {l : Latch} {p : Word} {f : Fields}

theorem continue_of_drain {u : State} (hd : u.drained = false) (hc : (drain (k + 1) u).status = .Continue) :
    (cycle .idle u).status = .Continue := by
  by_contra ht
  rw [drain_step hd, drain_of_terminal k ht] at hc
  exact ht hc

/-- What a cycle with Fetch idle makes of the stages behind Decode, whatever stands in `F`. -/
theorem cycle_idle_front {β : Backend} (h : β.Of b) (hf : b.F.registerFault = false) :
    ∃ F' D' lock', cycle .idle b = { b.advance β with F := F', D := D', lock := lock' } := by
  cases hst : b.stall with
  | true => exact ⟨_, _, _, cycle_idle_stalls h hf hst⟩
  | false => exact ⟨_, _, _, cycle_idle_accepts h hf hst⟩

/-- A mispredicted jump in `D` with an instruction of the wrong path behind it comes to what it comes to alone. -/
theorem drain_behind_mispredicted (hg : b.Going) (hi : b.PipelineInv)
    (hop : l.icode = .op → l.ifun.toNat ≤ 3) (hl : l.isEmpty = false) (hj : b.D.icode = .jump)
    (hcond : condition b.D.ifun b.ZF b.SF b.OF = some false) (hset : Settles 6 b) (hc : (drain 6 b).status = .Continue)
    (hok : (drain 7 (b.behind l p)).faulted = false) : drain 7 (b.behind l p) = drain 6 b := by
  have hbd : b.drained = false := not_drained_D (Latch.isEmpty_of_icode (by rw [hj]; nofun))
  have hb1 := continue_of_drain hbd hc
  obtain ⟨β, hβ⟩ := exists_backend hg hb1
  have hβa : β.Of (b.behind l p) := ⟨hβ.going, hβ.valid, hβ.noHalt, hβ.mem, hβ.exec⟩
  have hmb : β.mb = true := by
    have h := hβ.jump hj
    rw [hcond] at h
    simpa using h
  have hia := behind_inv (p := p) hi hop
  have ha1 : (cycle .idle (b.behind l p)).status = .Continue :=
    cycle_continues (s := b.behind l p) hg.1 hg.2.1 hβ.noHalt (behind_not_drained hl) hok
  obtain ⟨F', D', L', hb⟩ := cycle_idle_front hβ.toOf (registerFault_of_cycle hg hb1)
  obtain ⟨F'', D'', L'', ha⟩ := cycle_idle_front hβa (registerFault_of_cycle (a := b.behind l p) hg ha1)
  have hpath := drain_wrong_path (k := 4) (cycle_keeps_inv Feed.admissible_idle hg.1 hb1 hi)
    (cycle_keeps_inv Feed.admissible_idle (s := b.behind l p) hg.1 ha1 hia) hb1 ha1 (by rw [hb]; exact hmb) (by rw [ha, hb]; rfl)
  rw [Settles, drain_step hbd] at hset
  rw [drain_step (behind_not_drained hl), drain_step hbd, ← hpath]
  refine drain_of_le ?_ (by decide)
  rwa [Settles, hpath]

/-- The second half of the agreement: nothing was fetched, or what was fetched is on a wrong path. -/
theorem drain_eq_drain (hs : s.status = .Continue) (hi : s.PipelineInv) (hcap : s.mem.capacity < 2 ^ 64)
    (ht : (cycle .memory s).status = .Continue) (hc : (drain 7 s).status = .Continue)
    (hwrong : s.fetchReady = false ∨ (cycle .memory s).mispred = true ∨ ((cycle .memory s).D.icode = .jump ∧
      condition (cycle .memory s).D.ifun (cycle .memory s).ZF (cycle .memory s).SF (cycle .memory s).OF = some false))
    (hok : (drain 7 (cycle .memory s)).faulted = false) : drain 7 (cycle .memory s) = drain 7 s := by
  have hset := settles_of_inv hi
  cases hr : s.fetchReady with
  | false =>
    have hd : s.drained = false := by
      rw [← Bool.not_eq_true]
      intro hd
      rw [fetchReady_of_drained hd] at hr; cases hr
    rw [Settles, drain_step hd] at hset
    rw [cycle_of_not_fetchReady hr, drain_step hd]
    exact drain_of_le hset (by decide)
  | true =>
    obtain ⟨hst, hho⟩ := (fetchReady_iff s).1 hr
    obtain ⟨f, hp⟩ : ∃ f, parse (s.mem.fetchWindow s.fetchAddress) = .ok f := by
      obtain ⟨f, hp, -⟩ := cycle_fetches hs ht (by simp [← State.stall_iff, hst]) (by simp [← State.hold_iff, hho])
      rw [State.squash_mem] at hp
      exact ⟨f, hp⟩
    obtain ⟨ht1, -, heq⟩ := cycle_memory_eq_behind hs hr hp ht
    have hi1 := cycle_keeps_inv Feed.admissible_idle hs ht1 hi
    have hdrained : s.drained = true → (cycle .idle s).D.icode = .nop ∧ s.squash.D.icode = .nop := by
      intro hd
      obtain ⟨hF, hD, -, -⟩ := drained_latches hd
      exact ⟨Latch.icode_of_isEmpty ((cycle_idle_empties hs ht1 hst).2 (squash_isEmpty.1 hF)),
        Latch.icode_of_isEmpty (squash_isEmpty.2 hD)⟩
    cases hm : (cycle .memory s).mispred with
    | true =>
      have hd : s.drained = false := by
        rw [← Bool.not_eq_true]
        intro hd
        obtain ⟨-, -, -, -, -, -, -, -, -, -, -, -, hno | ⟨-, hj, -⟩⟩ := cycle_shape hs ht
        · rw [hm] at hno; cases hno
        · rw [(hdrained hd).2] at hj; cases hj
      exact drain_eq_of_signalled hs hi ht hm hd ⟨_, _, heq⟩ ht1
    | false =>
      obtain ⟨hj, hcond⟩ : (cycle .memory s).D.icode = .jump ∧ condition (cycle .memory s).D.ifun (cycle .memory s).ZF
          (cycle .memory s).SF (cycle .memory s).OF = some false := by
        rcases hwrong with h | h | h
        · rw [hr] at h; cases h
        · rw [hm] at h; cases h
        · exact h
      rw [heq] at hm hj hcond hok ⊢
      have hd : s.drained = false := by
        rw [← Bool.not_eq_true]
        intro hd
        exact absurd ((hdrained hd).1.symm.trans hj) nofun
      rw [Settles, drain_step hd] at hset
      rw [drain_step hd] at hc ⊢
      exact drain_behind_mispredicted ⟨ht1, hi1.running, hm⟩ hi1 (parse_op hp) (fetchedLatch_isEmpty hcap hp) hj hcond
        hset hc hok

/-- Settles O41: the fetched instruction may wait until those in front of it have drained away, which is executing it on what
they come to; and an instruction of a wrong path is gone without a trace. -/
theorem pipelineAgreesWithSequentialExecution : Obligations.PipelineAgreesWithSequentialExecution := by
  intro s t hsound hs hcap ht hcont hc
  obtain rfl := cycle_eq_of_step ht
  have hi := hsound hs
  exact ⟨fun f hr hp hm htaken hok => drain_eq_passThrough hs hi hcap hr hp hcont hc hm htaken hok,
    fun hwrong hok => drain_eq_drain hs hi hcap hcont hc hwrong hok⟩

end Sys2Proof.Machine
end

section
/-! PROOFS. Memory seen byte by byte, its canonical form, and the host surface (spec/20_memory.md sections 1 and 8,
spec/60_exceptions.md section 4, spec/70_reset_and_hazards.md section 1). -/

namespace Sys2Proof.Machine

/-! ### Memory -/

/-- Settles O9: byte `k` of the load is the byte at its address, which the store has written exactly if it is one of its 8. -/
theorem loadSeesEarlierStore : Obligations.LoadSeesEarlierStore := by
  intro m a b v k ha hk
  change byteOfWord _ k = if _ then byteOfWord v _ else byteOfWord _ k
  rw [Memory.byteOfWord_read64 _ _ hk, Memory.byteOfWord_read64 _ _ hk]
  split
  · rename_i hin
    rw [← Memory.readByte_write64_inside m a v (b.toNat + k - a.toNat) (by omega) ((m.dataInBounds_iff a).2 ha),
      Nat.add_sub_of_le hin.1]
  · exact Memory.readByte_write64_outside m a v _ (by omega)

/-- Cells in canonical form: rising addresses, and no cell says what an unlisted address reads as. -/
def CanonicalCells (cells : List Host.Cell) : Prop :=
  (cells.Pairwise fun c d => c.1 < d.1) ∧ ∀ c ∈ cells, c.2 ≠ Config.memInit

theorem canonicalCells_cons {c : Host.Cell} {rest : List Host.Cell} (h : CanonicalCells (c :: rest)) :
    CanonicalCells rest ∧ (∀ d ∈ rest, c.1 < d.1) ∧ c.2 ≠ Config.memInit := by
  obtain ⟨hp, hv⟩ := h
  obtain ⟨hc, hr⟩ := List.pairwise_cons.1 hp
  exact ⟨⟨hr, fun d hd => hv d (by simp [hd])⟩, hc, hv c (by simp)⟩

theorem lookup_cons_self (c : Host.Cell) (rest : List Host.Cell) : Memory.lookup (c :: rest) c.1 = c.2 := if_pos rfl

/-- The first cell is the lowest address that reads as something else than an unlisted one. -/
theorem head_le_of_lookup_eq {c d : Host.Cell} {cs ds : List Host.Cell} (hc : CanonicalCells (c :: cs))
    (hd : CanonicalCells (d :: ds)) (h : ∀ a, Memory.lookup (c :: cs) a = Memory.lookup (d :: ds) a) : d.1 ≤ c.1 := by
  by_contra hlt
  obtain ⟨-, hds, -⟩ := canonicalCells_cons hd
  have habove : ∀ e ∈ d :: ds, c.1 < e.1 := fun e he => by
    rcases List.mem_cons.1 he with rfl | he
    · omega
    · have := hds e he; omega
  have := h c.1
  rw [lookup_cons_self, Memory.lookup_of_lt hd.1 habove] at this
  exact hc.2 c (by simp) this

theorem cells_eq_of_lookup_eq {cs ds : List Host.Cell} (hc : CanonicalCells cs) (hd : CanonicalCells ds)
    (h : ∀ a, Memory.lookup cs a = Memory.lookup ds a) : cs = ds := by
  induction cs generalizing ds with
  | nil =>
    cases ds with
    | nil => rfl
    | cons d ds => exact absurd ((lookup_cons_self d ds).symm.trans (h d.1).symm) (hd.2 d (by simp))
  | cons c cs ih =>
    cases ds with
    | nil => exact absurd ((lookup_cons_self c cs).symm.trans (h c.1)) (hc.2 c (by simp))
    | cons d ds =>
      have haddr : c.1 = d.1 :=
        Nat.le_antisymm (head_le_of_lookup_eq hd hc fun a => (h a).symm) (head_le_of_lookup_eq hc hd h)
      have hval : c.2 = d.2 := by
        have := h c.1
        rwa [lookup_cons_self, haddr, lookup_cons_self] at this
      obtain ⟨hcr, hca, -⟩ := canonicalCells_cons hc
      obtain ⟨hdr, hda, -⟩ := canonicalCells_cons hd
      rw [Prod.ext haddr hval, ih hcr hdr fun a => ?_]
      by_cases ha : c.1 = a
      · rw [← ha, Memory.lookup_of_lt hcr.1 hca, haddr, Memory.lookup_of_lt hdr.1 hda]
      · simpa only [Memory.lookup, if_neg ha, if_neg (haddr ▸ ha)] using h a

/-- Settles O10: the cells of a canonical memory are determined by what they say of each address. -/
theorem canonicalMemoriesAreEqual : Obligations.CanonicalMemoriesAreEqual := by
  intro m n hm hn hcap h
  have canonical {m : Memory} (h : m.wf) : CanonicalCells m.cells := ⟨h.1, fun c hc => (h.2 c hc).2⟩
  have hcells := cells_eq_of_lookup_eq (canonical hm) (canonical hn) h
  cases m; cases n
  simp only at hcap hcells
  rw [hcap, hcells]

/-! ### The host surface -/

theorem RegFile.read_replicate (v : Word) (r : Nibble) :
    RegFile.read (Vector.replicate 8 v) r = if r.toNat < 8 then v else 0 := by
  unfold RegFile.read
  split <;> simp

/-- Settles O11: these are the fields of the reset state, over the memory of the state itself. -/
theorem initResetsAllButMemory : Obligations.InitResetsAllButMemory := by
  intro s
  refine ⟨fun r => ?_, rfl, rfl, rfl, rfl, rfl, rfl, rfl, rfl, fun r => LockTable.isLocked_none r, rfl, rfl, rfl, rfl, rfl, rfl⟩
  exact (RegFile.read_replicate 0 r).trans (ite_self 0)

/-- Settles O12: the image is written from address 0 on, and nothing else is written. -/
theorem loaderPlacesTheImage : Obligations.LoaderPlacesTheImage := by
  intro s image hlen
  refine ⟨fun i hi => ?_, fun a ha => ?_, rfl, Memory.writeBytes_capacity _ _ _⟩
  · have := Memory.readByte_writeBytes_inside s.mem 0 i image hi (by omega)
    rwa [Nat.zero_add] at this
  · exact Memory.readByte_writeBytes_outside s.mem 0 a image (by omega)

/-- Settles O13: a step is one cycle, which leaves a terminal state as it is. -/
theorem stepIsTotalAndTerminalStatesStay : Obligations.StepIsTotalAndTerminalStatesStay :=
  fun _ => ⟨⟨_, rfl⟩, fun h => ⟨congrArg Host.Outcome.next (cycle_of_terminal .memory h), rfl⟩⟩

end Sys2Proof.Machine
end

section
/-! PROOFS. Fetch and Decode (spec/40_pipeline_cycle.md sections 3 and 4, spec/70_reset_and_hazards.md section 4). -/

namespace Sys2Proof.Machine

variable {s t : State} {r : Nibble}

/-! ### The fields Fetch reads -/

theorem hasRegisters_iff (c : IClass) : c.hasRegisters = true ↔ c.length = 2 ∨ c.length = 10 := by
  cases c <;> decide

theorem hasConstant_iff (c : IClass) : c.hasConstant = true ↔ c.length = 9 ∨ c.length = 10 := by
  cases c <;> decide

theorem byteOfWord_constantAt (bs : List Byte) (j : Nat) {k : Nat} (hk : k < 8) :
    byteOfWord (constantAt bs j) k = bs.getD (j + k) 0 := by
  have h : bytesOfWord (constantAt bs j) = (List.range 8).map fun k => bs.getD (j + k) 0 := bytesOfWord_wordOfBytes ..
  rw [bytesOfWord_eq_map] at h
  exact List.map_inj_left.1 h k (List.mem_range.2 hk)

/-- The constant Fetch reads is made of the 8 bytes behind the opcode byte and the register byte (R53). -/
theorem byteOfWord_valC {c : IClass} (hc : c.hasConstant = true) (hl : s.pc.toNat + c.length ≤ s.mem.capacity) {k : Nat}
    (hk : k < 8) : byteOfWord (fieldsOf c (s.mem.fetchWindow s.pc)).valC k =
      s.mem.readByte (s.pc.toNat + (c.length - 8) + k) := by
  simp only [fieldsOf, hc, ↓reduceIte]
  have hlen : c.length = (if c.hasRegisters then 2 else 1) + 8 := by
    rw [IClass.length, hc]; cases c.hasRegisters <;> rfl
  have hle := c.length_le
  rw [byteOfWord_constantAt _ _ hk, s.mem.fetchWindow_getD (by omega) (by omega), hlen, Nat.add_sub_cancel, ← Nat.add_assoc]

/-- Settles O16: the fields are those of the bytes at `pc`, format by format. -/
theorem fetchReadsTheFields : Obligations.FetchReadsTheFields := by
  intro s t hs ht hcont hst hho
  obtain rfl := cycle_eq_of_step ht
  obtain ⟨f, hp, hF, -⟩ := cycle_fetches hs hcont hst hho
  have hcode := code_of_parse_fetchWindow hp
  obtain ⟨-, hf, hl, -⟩ := parse_ok hp
  have hpos := f.icode.length_pos
  rw [Memory.fetchWindow_length] at hl
  have hb : s.squash.pc.toNat + f.icode.length ≤ s.squash.mem.capacity := by omega
  have h0 := s.squash.mem.fetchWindow_getD (k := 0) (by decide) (show s.squash.pc.toNat + 0 < _ by omega)
  rw [← hcode, ← f.icode.length_eq_lengthOfCode, hF]
  have hregs := hasRegisters_iff f.icode
  have hconst := hasConstant_iff f.icode
  have henc := parse_encodable hp
  refine ⟨rfl, ?_, fun h2 => ?_, fun h1 => ?_, fun h9 k hk => ?_, fun h10 k hk => ?_, fun h1 => ?_, rfl, rfl, rfl, rfl, rfl, rfl⟩
  · change f.ifun.toNat = _
    rw [hf]
    simp only [fieldsOf, h0, lowNibble_toNat, Nat.add_zero]
    rfl
  · have := fieldsOf_fetchWindow_registers (hregs.2 h2) (s := s.squash) (by omega)
    rwa [← hf] at this
  · exact henc.noRegs (by rw [← Bool.not_eq_true, hregs]; omega)
  · have := byteOfWord_valC (hconst.2 (.inl h9)) hb hk
    rw [← hf, h9, State.squash_mem] at this
    exact this
  · have := byteOfWord_valC (hconst.2 (.inr h10)) hb hk
    rw [← hf, h10, State.squash_mem] at this
    exact this
  · exact henc.noConst (by rw [← Bool.not_eq_true, hconst]; omega)

/-! ### Bubbles and the fetch hold -/

theorem cycle_F_of_hold (hs : s.status = .Continue) (ht : (cycle .memory s).status = .Continue) (hst : s.squash.stall = false)
    (hho : s.squash.hold = true) : (cycle .memory s).F = bubbleStall := by
  obtain ⟨-, -, -, -, -, -, -, -, -, -, hhold, -⟩ := cycle_shape hs ht
  exact hhold hst hho

/-- Settles O17: a stall puts the bubble into `D`, a hold puts it into `F`, and where Fetch is held only a return in `E` writes
`pc`. -/
theorem holdAndStallInsertBubbles : Obligations.HoldAndStallInsertBubbles := by
  intro s t hs ht hcont
  obtain rfl := cycle_eq_of_step ht
  simp only [← State.stall_iff, ← State.hold_iff]
  exact ⟨cycle_D_of_stall hs hcont, fun hho hst => cycle_F_of_hold hs hcont (by simpa using hst) hho,
    fun hho hret => cycle_pc_of_no_fetch hs hret (.inr (.inr hho))⟩

/-- What Decode hands on when it does not stall (R82). -/
theorem cycle_D_of_accept (hs : s.status = .Continue) (ht : (cycle .memory s).status = .Continue)
    (hst : s.squash.stall = false) : (cycle .memory s).D = s.squash.decodedLatch s.squash.F := by
  obtain ⟨-, -, -, -, -, -, -, -, -, ⟨hno, -⟩ | ⟨-, hD, -⟩, -⟩ := cycle_shape hs ht
  · rw [hst] at hno; cases hno
  · exact hD

/-- Only a jump in `D` signals a misprediction. -/
theorem cycle_mispred_of_not_jump (hs : s.status = .Continue) (ht : (cycle .memory s).status = .Continue)
    (hD : s.squash.D.icode ≠ .jump) : (cycle .memory s).mispred = false := by
  obtain ⟨-, -, -, -, -, -, -, -, -, -, -, -, hm | ⟨-, hj, -⟩⟩ := cycle_shape hs ht
  · exact hm
  · exact absurd hj hD

/-- What Memory makes of a return: the next fetch is at the address it has loaded (R90). -/
theorem cycle_pc_of_ret (hs : s.status = .Continue) (ht : (cycle .memory s).status = .Continue) (hE : s.E.icode = .ret) :
    (cycle .memory s).pc = s.mem.read64 s.E.valA := by
  obtain ⟨n1, n2, -, -, -, -, h2, -⟩ := cycle_clean hs ht
  have hb : ¬ s.E.BadAddress s.mem.capacity := by simpa using not_of_ok (fun _ => memoryUnit_error_iff) h2
  obtain ⟨n, hn, hk⟩ := cycle_memoryDone .memory hs ((s.M.not_badDestination_iff).2 (cycle_shape hs ht).1) hb
  have hpc := hn.pc
  rw [State.squash_E, if_pos hE, State.squash_mem] at hpc
  exact (hk.pc (by rwa [State.squash_E])).trans hpc

/-- Settles O18: the return stands in `F`, `D` and `E` in the three cycles, with a bubble behind it in each, and Memory has
written `pc` in the third. -/
theorem returnHoldsFetchThreeCycles : Obligations.ReturnHoldsFetchThreeCycles := by
  intro s t u v hret hst h1 h2 h3 hs ht hu hv hm
  obtain rfl := cycle_eq_of_step h1
  obtain rfl := cycle_eq_of_step h2
  obtain rfl := cycle_eq_of_step h3
  rw [← State.stall_iff, Bool.not_eq_true] at hst
  have hFt := cycle_F_of_hold hs ht hst (s.squash.hold_iff.2 (.inl hret))
  have hDt := cycle_D_of_accept hs ht hst
  have hDtc : (cycle .memory s).D.icode = .ret := by rw [hDt]; exact hret
  have hsqt := State.squash_of_not_mispred hm
  have hstt : (cycle .memory s).squash.stall = false := by rw [hsqt]; exact stall_of_empty (.inr hFt)
  have hFu := cycle_F_of_hold ht hu hstt (State.hold_iff _ |>.2 (.inr (.inl (by rw [hsqt]; exact hDtc))))
  have hDu := cycle_D_of_accept ht hu hstt
  rw [hsqt, hFt] at hDu
  have hEu := (cycle_executeDone ht hu).fields
  rw [hsqt] at hEu
  have hEuc : (cycle .memory (cycle .memory s)).E.icode = .ret := (congrArg Latch.icode hEu).trans hDtc
  have hmu := cycle_mispred_of_not_jump ht hu (by rw [hsqt, hDtc]; nofun)
  have hsqu := State.squash_of_not_mispred hmu
  have hstu : (cycle .memory (cycle .memory s)).squash.stall = false := by rw [hsqu]; exact stall_of_empty (.inr hFu)
  have hFv := cycle_F_of_hold hu hv hstu (State.hold_iff _ |>.2 (.inr (.inr (by rw [hsqu]; exact hEuc))))
  have hDv := cycle_D_of_accept hu hv hstu
  rw [hsqu, hFu] at hDv
  have hEv := (cycle_executeDone hu hv).fields
  rw [hsqu, hDu] at hEv
  have hmv := cycle_mispred_of_not_jump hu hv (by rw [hsqu, hDu]; nofun)
  refine ⟨hFt, hFu, hFv, ?_, ?_⟩
  · rw [State.squash_of_not_mispred hmv]
    have hEvc := congrArg Latch.icode hEv
    simp only [State.MustHold, hFv, hDv, not_or]
    exact ⟨nofun, nofun, fun h => absurd (hEvc.symm.trans h) nofun⟩
  · have hvalA : (cycle .memory (cycle .memory s)).E.valA = RegFile.read s.x 4 := by
      refine (congrArg Latch.valA hEu).trans ?_
      simp only [hDt, State.decodedLatch, operandValue, Latch.selA, hret, State.squash_x]
      rfl
    rw [cycle_pc_of_ret hu hv hEuc, hvalA]

/-! ### Decode -/

theorem Latch.mem_dests_iff (l : Latch) (r : Nibble) : r ∈ l.dests ↔ l.Destination r := by
  have hsp : r = Config.stackPointer ↔ r.toNat = 4 := by revert r; decide
  unfold Latch.dests Latch.Destination
  cases l.icode <;> simp [hsp]

theorem State.decodedLatch_eq (s : State) : s.decodedLatch s.F = s.acceptedLatch := by
  simp only [State.decodedLatch, State.acceptedLatch, operandValue, ite_not]
  rfl

/-- Settles O20: the accepted latch is that of R82, and the locks after the cycle are those of its destinations and what
Writeback leaves. -/
theorem decodeReadsAndLocks : Obligations.DecodeReadsAndLocks := by
  refine ⟨Latch.mem_dests_iff, fun s t hs ht hcont hst => ?_⟩
  obtain rfl := cycle_eq_of_step ht
  rw [← State.stall_iff, Bool.not_eq_true] at hst
  have hD := cycle_D_of_accept hs hcont hst
  have hds : (cycle .memory s).D.dests = s.squash.F.dests := by rw [hD]; rfl
  have hlock := cycle_isLocked_iff hs hcont
  rw [hds] at hlock
  refine ⟨?_, fun r hr => (hlock r).2 (.inl hr), fun r _ => ?_⟩
  · rw [hD, State.decodedLatch_eq, State.acceptedLatch, State.squash_x]
  · rw [hlock r, s.M.mem_dests_iff, s.squash.F.mem_dests_iff]
    generalize (s.squash.lock.isLocked r = true ∧ ¬ s.M.Destination r) = kept
    unfold Latch.Destination
    cases s.squash.F.icode <;> simp

/-! ### The step and the meaning of an instruction -/

/-- Settles O43: presenting the instruction is fetching it, and its passage goes on with Fetch idle. -/
theorem stepRunsTheDecodedInstruction : Obligations.StepRunsTheDecodedInstruction := by
  intro s i hs hr h
  unfold decode at h
  cases hp : parse (s.mem.fetchWindow s.fetchAddress) with
  | error r => simp [hp] at h
  | ok f =>
    rw [hp] at h
    obtain ⟨rfl, -⟩ := toInstr_fields (parse_encodable hp) h
    refine ⟨cycle .memory s, rfl, ?_, fun ht => ?_⟩
    · rw [exec_eq, passThrough_of_ready hr, cycle_memory_eq_present hp]
      rfl
    · obtain ⟨-, -, heq⟩ := cycle_memory_eq_behind hs hr hp ht
      rw [heq]
      exact ⟨rfl, rfl⟩

end Sys2Proof.Machine
end

section
/-! PROOFS. Who writes what in a cycle, and what a faulting cycle leaves (spec/10_state.md section 8, spec/60_exceptions.md
section 2). -/

namespace Sys2Proof.Machine

variable {s s0 t n n' : State} {feed : Feed} {r : Nibble} {k : FaultKind}

/-! ### Who writes what -/

/-- The writers of 10_state.md section 8 behind the squash phase: what a cycle may have changed in the snapshot `s0`. The flags
and the halted flag have lemmas of their own. -/
structure State.Written (s0 n : State) : Prop where
  x : n.x = s0.x ∨ ((∀ r ∈ s0.M.dests, r.toNat < 8) ∧ n.x = s0.M.commit s0.x)
  pc : n.pc = s0.pc ∨ s0.E.icode = .ret ∨ (s0.stall = false ∧ s0.hold = false)
  mem : n.mem = s0.mem ∨ ∃ addr v, s0.E.access = .store addr v
  mispredPC : n.mispredPC = s0.mispredPC ∨ s0.D.icode = .jump
  mispred : n.mispred = s0.mispred ∨ s0.D.icode = .jump
  lock : ∀ r : Nibble, n.lock.isLocked r ≠ s0.lock.isLocked r → r ∈ s0.F.dests ∨ r ∈ s0.M.dests
  F : n.F = s0.F ∨ (s0.stall = true ∧ n.F = { s0.F with stalling := true }) ∨
    (s0.stall = false ∧ s0.hold = true ∧ n.F = bubbleStall) ∨ (s0.stall = false ∧ s0.hold = false)
  D : n.D = s0.D ∨ (s0.stall = true ∧ n.D = bubbleStall) ∨ (s0.stall = false ∧ n.D = s0.decodedLatch s0.F)
  E : n.E = s0.E ∨ ∃ e c, n.E = { s0.D with valE := e, cnd := c, stalling := false }
  M : n.M = s0.M ∨ ∃ v, n.M = { s0.E with valM := v, stalling := false }
  W : n.W = s0.W ∨ n.W = { s0.M with stalling := false }

theorem State.Written.refl (s0 : State) : s0.Written s0 :=
  ⟨.inl rfl, .inl rfl, .inl rfl, .inl rfl, .inl rfl, fun _ h => absurd rfl h, .inl rfl, .inl rfl, .inl rfl, .inl rfl, .inl rfl⟩

/-- Locks written for some registers are the only ones that may have changed. -/
theorem LockTable.isLocked_putAll_of_not_mem {t : LockTable} {b : Bool} {ds : List Nibble} (hv : ∀ r ∈ ds, r.toNat < 8)
    (hr : r ∉ ds) : (LockTable.putAll t b ds).isLocked r = t.isLocked r := by
  rw [LockTable.isLocked_putAll _ _ _ _ hv, if_neg hr]

theorem writebackUnit_written (h : writebackUnit s0 n = .ok n') (hn : s0.Written n) : s0.Written n' := by
  obtain ⟨hv, rfl⟩ := writebackUnit_ok h
  refine { hn with x := .inr ⟨hv, rfl⟩, lock := fun r hr => ?_, W := .inr rfl }
  by_cases hm : r ∈ s0.M.dests
  · exact .inr hm
  · exact hn.lock r (by rwa [State.retire_lock, LockTable.isLocked_putAll_of_not_mem hv hm] at hr)

theorem memoryUnit_written (h : memoryUnit s0 n = .ok n') (hn : s0.Written n) : s0.Written n' := by
  obtain ⟨v, a, m, rfl, hm, ha⟩ := memoryUnit_ok h
  refine { hn with pc := ?_, mem := ?_, M := .inr ⟨v, rfl⟩ }
  · rcases ha with rfl | ha
    · exact hn.pc
    · exact .inr (.inl ha)
  · rcases hm with hm | ⟨addr, w, hacc, -, -⟩
    · exact hn.mem.imp_left hm.trans
    · exact .inr ⟨addr, w, hacc⟩

theorem executeUnit_written (h : executeUnit s0 n = .ok n') (hn : s0.Written n) : s0.Written n' := by
  obtain ⟨e, c, z, g, o, b, a, rfl, -, ⟨rfl, rfl⟩ | ⟨hj, -⟩⟩ := executeUnit_ok h
  · exact { hn with E := .inr ⟨e, c, rfl⟩ }
  · exact { hn with E := .inr ⟨e, c, rfl⟩, mispred := .inr hj, mispredPC := .inr hj }

theorem decodeUnit_written (h : decodeUnit s0 n = .ok n') (hn : s0.Written n) : s0.Written n' := by
  obtain ⟨hf, ⟨hst, rfl⟩ | ⟨hst, rfl⟩⟩ := decodeUnit_ok h
  · exact { hn with F := .inr (.inl ⟨hst, rfl⟩), D := .inr (.inl ⟨hst, rfl⟩) }
  · refine { hn with D := .inr (.inr ⟨hst, rfl⟩), lock := fun r hr => ?_ }
    by_cases hm : r ∈ s0.F.dests
    · exact .inl hm
    · have hv := fun q hq => (dests_of_no_registerFault hf q hq).1
      exact hn.lock r (by rwa [State.accept_lock, LockTable.isLocked_putAll_of_not_mem hv hm] at hr)

theorem fetchUnit_written (h : fetchUnit feed s0 n = .ok n') (hn : s0.Written n) : s0.Written n' := by
  obtain ⟨-, rfl⟩ | ⟨hst, hho, rfl⟩ | ⟨hst, hho, ⟨-, rfl⟩ | ⟨f, -, -, rfl⟩ | ⟨f, -, -, rfl⟩⟩ := fetchUnit_ok h
  · exact hn
  · exact { hn with F := .inr (.inr (.inl ⟨hst, hho, rfl⟩)) }
  · exact { hn with F := .inr (.inr (.inr ⟨hst, hho⟩)) }
  · exact { hn with F := .inr (.inr (.inr ⟨hst, hho⟩)), pc := .inr (.inr ⟨hst, hho⟩) }
  · exact { hn with F := .inr (.inr (.inr ⟨hst, hho⟩)), pc := .inr (.inr ⟨hst, hho⟩) }

/-- Every cycle keeps to the writers, whatever fault it may raise. -/
theorem cycle_written (feed : Feed) (hs : s.status = .Continue) : s.squash.Written (cycle feed s) := by
  have h : s.squash.Written (runUnits feed s.squash).next :=
    runUnits_keeps_after_writeback (Progress.run_keeps (State.Written.refl _) writebackUnit_written) memoryUnit_written
      executeUnit_written decodeUnit_written fetchUnit_written
  rw [cycle_of_continue feed hs, State.takeFault_eq]
  exact { h with }

theorem Latch.store_icode {e : Latch} {addr v : Word} (h : e.access = .store addr v) :
    e.icode = .rmmov ∨ e.icode = .call ∨ e.icode = .push := by
  unfold Latch.access at h
  cases hc : e.icode <;> simp_all

/-- The locks a squash changes are those of the instruction it throws away. -/
theorem squash_lock_changed (hv : ∀ r ∈ s.D.dests, r.toNat < 8) (h : s.squash.lock.isLocked r ≠ s.lock.isLocked r) :
    s.mispred = true ∧ r ∈ s.D.dests := by
  unfold State.squash at h
  split at h
  · refine ⟨‹_›, ?_⟩
    by_contra hr
    exact h (LockTable.isLocked_putAll_of_not_mem hv hr)
  · exact absurd rfl h

/-- Settles O31: each row is one of the writers of the cycle, or the squash phase. -/
theorem writersOfEachElement : Obligations.WritersOfEachElement := by
  intro s t ht
  obtain rfl := cycle_eq_of_step ht
  by_cases hs : s.status = .Continue
  · have hw := cycle_written .memory hs
    obtain ⟨hx, hpc, hmem, hmp, hm, hlock, hF, hD, hE, hM, hW⟩ := hw
    simp only [State.squash_x, State.squash_E, State.squash_M, State.squash_W, State.squash_mem, State.squash_mispred,
      State.squash_mispredPC] at hx hpc hmem hmp hm hlock hE hM hW
    have hflags := mt (cycle_flags_of_not_op .memory (s := s))
    have hhalt := cycle_halted .memory hs
    generalize cycle .memory s = t at *
    simp only [← State.stall_iff, ← State.hold_iff, Bool.not_eq_true]
    refine ⟨fun r _ hr => ?_, fun h => ?_, fun h => ?_, fun h => ?_, fun h => hmp.resolve_left h, fun h _ => ?_, fun h => ?_,
      fun _ hv r _ h => ?_, fun _ => ⟨hF, ?_, ?_, ?_, hW⟩, fun h => absurd hs h⟩
    · rcases hx with hx | ⟨hv, hx⟩ <;> rw [hx] at hr
      · exact absurd rfl hr
      · by_contra hn
        exact hr (Latch.read_commit_of_not_mem hv _ hn)
    · cases hmis : s.mispred with
      | true => exact .inl rfl
      | false =>
        refine .inr (hpc.resolve_left fun heq => h ?_)
        rw [heq, State.squash_of_not_mispred hmis]
    · obtain ⟨addr, v, hacc⟩ := hmem.resolve_left h
      exact Latch.store_icode hacc
    · refine not_not.1 (hflags fun heq => ?_)
      obtain ⟨hz, hg, ho⟩ := State.flags_eq_iff.1 heq
      exact h.elim (· hz) (Or.rec (· hg) (· ho))
    · exact hm.resolve_left (by rw [h]; nofun)
    · by_contra hM
      exact h (by rw [hhalt, decide_eq_false hM, Bool.or_false])
    · by_cases hch : t.lock.isLocked r = s.squash.lock.isLocked r
      · exact .inr (.inr (squash_lock_changed hv (by rwa [hch] at h)))
      · exact (hlock r hch).imp_right .inl
    · refine hD.imp_right (Or.imp_right fun ⟨hst, hD⟩ => ⟨hst, ?_⟩)
      rw [hD]; rfl
    · refine hE.imp_right fun ⟨e, c, hE⟩ => ?_
      rw [hE]
    · refine hM.imp_right fun ⟨v, hM⟩ => ?_
      rw [hM]
  · rw [cycle_of_terminal .memory hs]
    simp [hs]

/-! ### What a faulting cycle leaves -/

/-- Writeback has released the locks of its instruction. -/
theorem onlyReleased_of_lock (hv : ∀ r ∈ s0.M.dests, r.toNat < 8) (h : n.lock = LockTable.putAll s0.lock false s0.M.dests) :
    s0.OnlyReleased n := by
  intro r _
  rw [h, LockTable.isLocked_putAll _ _ _ _ hv, ← s0.M.mem_dests_iff]
  by_cases hr : r ∈ s0.M.dests <;> simp [hr]

/-- Writeback has released the locks of its instruction and Decode has taken those of its own. -/
theorem releasedAndTaken_of_lock (hv : ∀ r ∈ s0.M.dests, r.toNat < 8) (hF : ∀ r ∈ s0.F.dests, r.toNat < 8)
    (h : n.lock = LockTable.putAll (LockTable.putAll s0.lock false s0.M.dests) true s0.F.dests) : s0.ReleasedAndTaken n := by
  intro r _
  rw [h, LockTable.isLocked_putAll _ _ _ _ hF, LockTable.isLocked_putAll _ _ _ _ hv, ← s0.M.mem_dests_iff, ← s0.F.mem_dests_iff]
  by_cases hr : r ∈ s0.F.dests <;> by_cases hr' : r ∈ s0.M.dests <;> simp [hr, hr']

/-- What the three stages behind Decode leave of the rest of the state: the locks Writeback has released, and `F` and `D` as in
the snapshot. -/
theorem executeUnit_rest {n1 n2 n3 : State} (h1 : writebackUnit s0 s0 = .ok n1) (h2 : memoryUnit s0 n1 = .ok n2)
    (h3 : executeUnit s0 n2 = .ok n3) :
    n3.lock = LockTable.putAll s0.lock false s0.M.dests ∧ n3.F = s0.F ∧ n3.D = s0.D := by
  obtain ⟨-, rfl⟩ := writebackUnit_ok h1
  obtain ⟨v, a, m, rfl, -, -⟩ := memoryUnit_ok h2
  obtain ⟨e, c, z, g, o, b, a', rfl, -, -⟩ := executeUnit_ok h3
  exact ⟨rfl, rfl, rfl⟩

/-- Settles O33: the units down to the faulting one have written, and no other; each clause ends the chain of units at another
stage. -/
theorem whatAFaultLeaves : Obligations.WhatAFaultLeaves := by
  intro s t hs ht
  obtain rfl := cycle_eq_of_step ht
  have hc := cycle_of_continue .memory hs
  rw [State.takeFault_eq] at hc
  rw [← State.squash_M s, ← State.squash_E s, ← State.squash_mem s]
  refine ⟨fun hb => ?_, fun hv hb => ?_, fun hv hE hb => ?_, fun hv hE hD hb => ?_, fun hv hE hD hF hst hho hb => ?_⟩
  · rw [hc, runUnits_of_writeback_error (writebackUnit_error_iff.2 ⟨rfl, hb⟩)]
    rfl
  all_goals
    have hvalid := s.squash.M.not_badDestination_iff.1 hv
    have hW := cycle_writebackDone .memory hs (by rwa [State.squash_M] at hvalid)
    obtain ⟨n1, h1⟩ := exists_ok_of_not (fun _ => writebackUnit_error_iff (n := s.squash)) hv
  · refine ⟨?_, hW, ?_⟩ <;> rw [hc, runUnits_of_memory_error h1 (memoryUnit_error_iff.2 ⟨rfl, hb⟩)] <;>
      obtain ⟨-, rfl⟩ := writebackUnit_ok h1
    · rfl
    · exact onlyReleased_of_lock hvalid rfl
  all_goals
    obtain ⟨n2, h2⟩ := exists_ok_of_not (fun _ => memoryUnit_error_iff (n := n1)) hE
    have hmem := memoryUnit_after_writeback h1 h2
  · rw [runUnits_of_execute_error h1 h2 (executeUnit_error_iff.2 ⟨rfl, hb⟩)] at hc
    refine ⟨?_, hW, ?_, ?_⟩ <;> rw [hc]
    · obtain ⟨-, rfl⟩ := writebackUnit_ok h1
      obtain ⟨v, a, m, rfl, -, -⟩ := memoryUnit_ok h2
      rfl
    · obtain ⟨-, rfl⟩ := writebackUnit_ok h1
      obtain ⟨v, a, m, rfl, -, -⟩ := memoryUnit_ok h2
      exact onlyReleased_of_lock hvalid rfl
    · exact hmem.of_fields rfl rfl rfl
  all_goals
    obtain ⟨n3, h3⟩ := exists_ok_of_not (fun _ => executeUnit_error_iff (n := n2)) hD
    obtain ⟨hex, hmem⟩ := executeUnit_after_memory s.squash_mispred h1 h2 h3
    obtain ⟨hlock, hF3, hD3⟩ := executeUnit_rest h1 h2 h3
  · rw [runUnits_of_decode_error h1 h2 h3 (decodeUnit_error_iff.2 ⟨rfl, hb⟩)] at hc
    refine ⟨?_, ?_, hW, ?_, ?_, ?_⟩ <;> rw [hc]
    · exact hD3
    · exact hF3
    · exact onlyReleased_of_lock hvalid hlock
    · exact hmem.of_fields rfl rfl rfl
    · exact hex.of_fields rfl rfl rfl rfl
  · have hstall : s.squash.stall = false := by simpa [← State.stall_iff] using hst
    have hreg : s.squash.F.registerFault = false := by rwa [← Bool.not_eq_true, Latch.registerFault_iff]
    have h4 := decodeUnit_accepts hreg hstall n3
    obtain ⟨k, hk⟩ := Option.ne_none_iff_exists'.1 hb
    rw [runUnits_of_fetch_error h1 h2 h3 h4 (fetchUnit_memory_error_iff.2 ⟨not_or.2 ⟨hst, hho⟩, hk⟩)] at hc
    refine ⟨?_, ?_, ?_, hW, ?_, ?_, ?_⟩ <;> rw [hc]
    · exact hF3
    · exact hmem.pc.trans (if_neg fun h => hho (.inr (.inr h)))
    · exact s.squash.decodedLatch_eq
    · exact releasedAndTaken_of_lock hvalid (fun r hr => (dests_of_no_registerFault hreg r hr).1) (by rw [← hlock]; rfl)
    · exact hmem.of_fields rfl rfl rfl
    · exact hex.of_fields rfl rfl rfl rfl

end Sys2Proof.Machine
end

section
/-! PROOFS. The passage of one instruction through an empty pipeline, in one equation per ending (spec/00_scope.md R8,
spec/60_exceptions.md section 1). -/

namespace Sys2Proof.Machine

variable {s : State} {f : Fields} {d e : Latch} {m : Memory} {z g o c : Bool} {p : Word}

/-! ### What Execute and Memory make of one instruction, as functions -/

/-- `valE` after Execute (R86). -/
def Latch.result (d : Latch) : Word :=
  match d.icode with
  | .cmov => d.valA
  | .irmov => d.valC
  | .rmmov | .mrmov => d.valB + d.valC
  | .op => (aluResult d.ifun d.valA d.valB).getD d.valE
  | .call | .push => d.valB - 8
  | .ret | .pop => d.valB + 8
  | .halt | .nop | .jump => d.valE

/-- The class has a condition to evaluate (R102). -/
abbrev Conditional (c : IClass) : Prop := c = .cmov ∨ c = .jump

/-- The latch Execute makes of `d` when the condition has the value `c`. -/
def Latch.executed (d : Latch) (c : Bool) : Latch :=
  { d with valE := d.result, cnd := if Conditional d.icode then c else d.cnd, stalling := false }

/-- The flags after Execute (R87). -/
def Latch.flagsAfter (d : Latch) (flags : Bool × Bool × Bool) : Bool × Bool × Bool :=
  if d.icode = .op then
    (aluResult d.ifun d.valA d.valB).elim flags fun v => (zeroFlag v, signFlag v, overflowFlag d.ifun d.valA d.valB v)
  else flags

/-- The jump is not taken, against the prediction (R88). -/
def Latch.mispredicts (d : Latch) (c : Bool) : Bool := decide (d.icode = .jump) && !c

/-- `valM` after Memory (R91). -/
def Latch.loaded (e : Latch) (m : Memory) : Word :=
  match e.access with
  | .load a => m.read64 a
  | .none | .store _ _ => e.valM

/-- The memory after Memory (R91). -/
def Latch.stored (e : Latch) (m : Memory) : Memory :=
  match e.access with
  | .store a v => m.write64 a v
  | .none | .load _ => m

theorem execSpec_executed (h : Conditional d.icode → condition d.ifun z g o = some c) :
    ExecSpec d z g o p (d.executed c) (d.flagsAfter (z, g, o)).1 (d.flagsAfter (z, g, o)).2.1 (d.flagsAfter (z, g, o)).2.2
      (d.mispredicts c) (if d.mispredicts c then d.valP else p) := by
  intro s0 n h1 h2 h3 h4 h5 h6 h7 h8 h9
  cases n
  simp only at h5 h6 h7 h8 h9
  subst h1 h2 h3 h4 h5 h6 h7 h8 h9
  cases hd : s0.D.icode
  case cmov =>
    simp [executeUnit, Latch.executed, Latch.result, Latch.flagsAfter, Latch.mispredicts, hd, h (.inl hd), State.latchE]
  case jump =>
    cases c <;> simp [executeUnit, Latch.executed, Latch.result, Latch.flagsAfter, Latch.mispredicts, hd, h (.inr hd),
      State.latchE, State.signalMispredict]
  case op =>
    cases ha : aluResult s0.D.ifun s0.D.valA s0.D.valB <;> simp [executeUnit, Latch.executed, Latch.result, Latch.flagsAfter,
      Latch.mispredicts, hd, ha, State.latchE, State.setFlags]
  all_goals simp [executeUnit, Latch.executed, Latch.result, Latch.flagsAfter, Latch.mispredicts, hd, State.latchE]

/-- Only a return, among the instructions that do not load, would write `pc`: it loads. -/
theorem Latch.icode_ne_ret_of_access (h : ∀ a, e.access ≠ .load a) : e.icode ≠ .ret := by
  intro hc
  exact h e.valA (by rw [Latch.access, hc])

theorem memSpec_accessed (h : ¬ e.BadAddress m.capacity) : MemSpec e m (e.loaded m) (e.stored m) := by
  intro s0 n h1 h2 h3
  cases n
  simp only at h3
  subst h1 h2 h3
  obtain ⟨n', hn⟩ := exists_ok_of_not (fun _ => memoryUnit_error_iff (s0 := s0) (n := { s0 with M := bubble })) h
  cases ha : s0.E.access with
  | none =>
    have hr := Latch.icode_ne_ret_of_access (e := s0.E) (by simp [ha])
    simp [memoryUnit, Latch.loaded, Latch.stored, ha, hr, State.latchM]
  | store a v =>
    have hr := Latch.icode_ne_ret_of_access (e := s0.E) (by simp [ha])
    by_cases hb : s0.mem.dataInBounds a = true
    · simp [memoryUnit, Latch.loaded, Latch.stored, ha, hr, hb, State.latchM, State.storeMem]
    · simp [memoryUnit, ha, hb] at hn
  | load a =>
    by_cases hb : s0.mem.dataInBounds a = true
    · by_cases hr : s0.E.icode = .ret <;>
        simp [memoryUnit, Latch.loaded, Latch.stored, ha, hr, hb, State.latchM, State.setPc]
    · simp [memoryUnit, ha, hb] at hn

/-! ### The state after an instruction that completes -/

/-- The value of the instruction's condition. -/
def State.conditionOf (s : State) (f : Fields) : Bool := (condition f.ifun s.ZF s.SF s.OF).getD false

/-- The instruction as Decode leaves it in `D`. -/
def State.operands (s : State) (f : Fields) : Latch := s.decodedLatch (fetchedLatch f s.pc)

/-- The instruction as Execute leaves it in `E`. -/
def State.executed (s : State) (f : Fields) : Latch := (s.operands f).executed (s.conditionOf f)

/-- The instruction as Memory leaves it in `M`. -/
def State.retired (s : State) (f : Fields) : Latch := { s.executed f with valM := (s.executed f).loaded s.mem }

/-- The jump is not taken. -/
def State.mispredicts (s : State) (f : Fields) : Bool := (s.operands f).mispredicts (s.conditionOf f)

/-- The flags the instruction leaves. -/
def State.flagsAfter (s : State) (f : Fields) : Bool × Bool × Bool := (s.operands f).flagsAfter s.flags

/-- The address the instruction goes on at. -/
def State.pcAfter (s : State) (f : Fields) : Word :=
  if f.icode = .ret then (s.executed f).loaded s.mem
  else if s.mispredicts f then (fetchedLatch f s.pc).valP
  else predictedPc (fetchedLatch f s.pc)

/-- The state an instruction leaves that no stage turns away. -/
def State.completed (s : State) (f : Fields) : State :=
  { s with
    x := (s.retired f).commit s.x
    pc := s.pcAfter f
    ZF := (s.flagsAfter f).1, SF := (s.flagsAfter f).2.1, OF := (s.flagsAfter f).2.2
    halted := decide (f.icode = .halt)
    status := if f.icode = .halt then .Halted else .Continue
    mispredPC := if s.mispredicts f then (fetchedLatch f s.pc).valP else s.mispredPC
    W := s.retired f
    mem := (s.executed f).stored s.mem }

@[simp] theorem State.operands_icode (s : State) (f : Fields) : (s.operands f).icode = f.icode := rfl
@[simp] theorem State.executed_icode (s : State) (f : Fields) : (s.executed f).icode = f.icode := rfl

theorem Latch.executed_of_nop (h : d.icode = .nop) (c : Bool) : d.executed c = { d with stalling := false } := by
  cases d
  obtain rfl := h
  rfl

/-! ### The cycles of the passage -/

/-- The state with the instruction in `D`, its locks taken. -/
def State.inDecode (s : State) (f : Fields) : State :=
  { s with
    F := if f.icode = .ret then bubbleStall else bubble
    pc := predictedPc (fetchedLatch f s.pc)
    D := s.operands f
    lock := LockTable.putAll s.lock true (fetchedLatch f s.pc).dests
    W := bubble }

/-- What the stages behind Decode come to with the instruction in `D`. -/
def State.execution (s : State) (f : Fields) : Backend :=
  { e := s.executed f, z := (s.flagsAfter f).1, g := (s.flagsAfter f).2.1, o := (s.flagsAfter f).2.2, mb := s.mispredicts f,
    ma := if s.mispredicts f then (fetchedLatch f s.pc).valP else s.mispredPC, vm := 0, μ := s.mem }

theorem condition_conditionOf (h : ¬ (s.operands f).BadCondition) (hc : Conditional f.icode) :
    condition f.ifun s.ZF s.SF s.OF = some (s.conditionOf f) := by
  cases hx : condition f.ifun s.ZF s.SF s.OF with
  | none => exact absurd ⟨hc, (condition_eq_none_iff _ _ _ _).1 hx⟩ h
  | some c => rw [State.conditionOf, hx, Option.getD_some]

theorem execution_of (hq : s.Quiescent) (h : ¬ (s.operands f).BadCondition) : (s.execution f).Of (s.inDecode f) := by
  obtain ⟨hs, hh, hm, hl, hF, hD, hE, hM⟩ := hq
  have hE' : (s.inDecode f).E = bubble := hE
  have hM' : (s.inDecode f).M = bubble := hM
  exact ⟨⟨hs, hh, hm⟩, by simp [hM'], by simp [hM'], hE' ▸ memSpec_bubble s.mem,
    execSpec_executed fun hc => condition_conditionOf h hc⟩

/-- The state with the instruction in `E`, a misprediction acted on. -/
def State.inExecute (s : State) (f : Fields) : State :=
  { s with
    F := if f.icode = .ret then bubbleStall else bubble
    pc := if s.mispredicts f then (fetchedLatch f s.pc).valP else predictedPc (fetchedLatch f s.pc)
    ZF := (s.flagsAfter f).1, SF := (s.flagsAfter f).2.1, OF := (s.flagsAfter f).2.2
    mispredPC := if s.mispredicts f then (fetchedLatch f s.pc).valP else s.mispredPC
    E := s.executed f
    lock := LockTable.putAll s.lock true (fetchedLatch f s.pc).dests
    W := bubble }

theorem inDecode_F (s : State) (f : Fields) : (s.inDecode f).F = bubble ∨ (s.inDecode f).F = bubbleStall := by
  by_cases h : f.icode = .ret <;> simp [State.inDecode, h]

theorem inDecode_hold (hq : s.Quiescent) (f : Fields) : (s.inDecode f).hold = decide (f.icode = .ret) := by
  obtain ⟨-, -, -, -, -, -, hE, -⟩ := hq
  by_cases h : f.icode = .ret <;> simp [State.hold, State.inDecode, h, hE]

theorem mispredicts_icode (h : s.mispredicts f = true) : f.icode = .jump := by
  simp only [State.mispredicts, Latch.mispredicts, Bool.and_eq_true, decide_eq_true_eq] at h
  exact h.1

theorem cycle_inDecode (hq : s.Quiescent) (h : ¬ (s.operands f).BadCondition) :
    (cycle .idle (s.inDecode f)).squash = s.inExecute f := by
  rw [cycle_idle_empty (execution_of hq h) (inDecode_F s f), inDecode_hold hq]
  obtain ⟨hs, hh, hm, hl, hF, hD, hE, hM⟩ := hq
  cases hmis : s.mispredicts f with
  | false =>
    rw [State.squash_of_not_mispred hmis]
    simp [State.inExecute, State.inDecode, State.advance, State.execution, hmis, hE, hM, hD, hm]
    exact ⟨rfl, rfl, rfl, rfl⟩
  | true =>
    rw [State.squash_of_mispred hmis]
    simp [State.inExecute, State.inDecode, State.advance, State.execution, hmis, hE, hM, hD, hm, mispredicts_icode hmis]
    rfl

/-- The state with the instruction in `M`. -/
def State.inMemory (s : State) (f : Fields) : State :=
  { s with
    F := if f.icode = .ret then bubbleStall else bubble
    pc := s.pcAfter f
    ZF := (s.flagsAfter f).1, SF := (s.flagsAfter f).2.1, OF := (s.flagsAfter f).2.2
    mispredPC := if s.mispredicts f then (fetchedLatch f s.pc).valP else s.mispredPC
    M := s.retired f
    lock := LockTable.putAll s.lock true (fetchedLatch f s.pc).dests
    W := bubble
    mem := (s.executed f).stored s.mem }

theorem cycle_inExecute (hq : s.Quiescent) (h : ¬ (s.executed f).BadAddress s.mem.capacity) :
    cycle .idle (s.inExecute f) = s.inMemory f := by
  have hF := inDecode_F s f
  obtain ⟨hs, hh, hm, hl, hF', hD, hE, hM⟩ := hq
  rw [cycle_memory (s := s.inExecute f) ⟨hs, hh, hm⟩ hF hD hM (memSpec_accessed h _ _ rfl rfl rfl)]
  simp only [State.inMemory, State.inExecute, State.pcAfter, State.executed_icode, hD, hE]
  rfl

theorem cycle_inMemory (hq : s.Quiescent) (hr : (fetchedLatch f s.pc).registerFault = false) :
    cycle .idle (s.inMemory f) = s.completed f := by
  have hF := inDecode_F s f
  have hv := fun r hm => (dests_of_no_registerFault hr r hm).1
  obtain ⟨hs, hh, hm, hl, hF', hD, hE, hM⟩ := hq
  have hput : LockTable.putAll (LockTable.putAll s.lock true (fetchedLatch f s.pc).dests) false (fetchedLatch f s.pc).dests =
      s.lock := LockTable.putAll_release _ _ hv fun r _ => by rw [hl, LockTable.isLocked_none]
  rw [cycle_writeback (s := s.inMemory f) ⟨hs, hh, hm⟩ hF hD hE hv]
  change ({ s.inMemory f with
    x := (s.retired f).commit s.x
    lock := LockTable.putAll (LockTable.putAll s.lock true (fetchedLatch f s.pc).dests) false (fetchedLatch f s.pc).dests
    halted := decide (f.icode = .halt)
    status := if f.icode = .halt then .Halted else .Continue
    F := bubble, D := bubble, E := bubble, M := bubble
    W := s.retired f } : State) = _
  rw [hput]
  simp only [State.completed, State.inMemory, hF', hD, hE, hM]

/-! ### The endings -/

theorem issued (hq : s.Quiescent) (f : Fields) : passThrough f s = drain 7 (cycle (.present f) s) :=
  passThrough_of_ready (quiescent_fetchReady hq) f

theorem completed_drained (hq : s.Quiescent) (f : Fields) : (s.completed f).drained = true := by
  obtain ⟨-, -, -, -, hF, hD, hE, hM⟩ := hq
  simp [State.drained, State.completed, hF, hD, hE, hM]

/-- An empty latch is fetched only as the `nop` whose next address is 0, and it completes as it stands. -/
theorem completed_of_isEmpty (hq : s.Quiescent) (h : (fetchedLatch f s.pc).isEmpty = true) :
    { s with F := fetchedLatch f s.pc, pc := predictedPc (fetchedLatch f s.pc), W := bubble } = s.completed f := by
  have hl : fetchedLatch f s.pc = bubble := Latch.eq_bubble h rfl
  have hc : f.icode = .nop := Latch.icode_of_isEmpty h
  have hop : s.operands f = bubble := by rw [State.operands, hl]; rfl
  have hex : s.executed f = bubble := by rw [State.executed, hop]; rfl
  have hret : s.retired f = bubble := by rw [State.retired, hex]; rfl
  have hmis : s.mispredicts f = false := by rw [State.mispredicts, hop]; rfl
  have hfl : s.flagsAfter f = s.flags := by rw [State.flagsAfter, hop]; rfl
  obtain ⟨hs, hh, hm, -, hF, -⟩ := hq
  simp only [State.completed, State.pcAfter, hc, hl, hex, hret, hmis, hfl, hs, hh, hF]
  rfl

/-- An instruction that no stage turns away completes. -/
theorem passThrough_completed (hq : s.Quiescent) (hb : s.pc.toNat + f.icode.length ≤ s.mem.capacity)
    (hr : (fetchedLatch f s.pc).registerFault = false) (hc : ¬ (s.operands f).BadCondition)
    (ha : ¬ (s.executed f).BadAddress s.mem.capacity) : passThrough f s = s.completed f := by
  cases hl : (fetchedLatch f s.pc).isEmpty with
  | true =>
    rw [issued hq, cycle_present hq f hb, completed_of_isEmpty hq hl]
    exact drain_of_drained _ (completed_drained hq f)
  | false =>
    have hD : (s.operands f).isEmpty = false := decodedLatch_isEmpty s hl
    have hE : (s.executed f).isEmpty = false := by
      by_cases hn : f.icode = .nop
      · rw [State.executed, Latch.executed_of_nop hn]; exact hD
      · exact Latch.isEmpty_of_icode hn
    have hM : (s.retired f).isEmpty = false := Latch.isEmpty_withValM hE fun hn => by rw [Latch.loaded, Latch.access, hn]
    have hsq := cycle_inDecode hq hc
    have hrun : (cycle .idle (s.inDecode f)).status = .Continue := by
      rw [← State.squash_status, hsq]; exact hq.1
    have hE' : (cycle .idle (s.inDecode f)).E.isEmpty = false := by
      rw [← State.squash_E, hsq]; exact hE
    rw [passThrough_decoded hq hb hr hl]
    change drain 6 (s.inDecode f) = _
    rw [drain_step (not_drained_D hD), ← drain_squash hrun hE', hsq, drain_step (not_drained_E hE), cycle_inExecute hq ha,
      drain_step (not_drained_M hM), cycle_inMemory hq hr, drain_of_drained _ (completed_drained hq f)]

/-- The instruction's bytes do not fit below the capacity. -/
theorem passThrough_bounds (hq : s.Quiescent) (hb : s.mem.capacity < s.pc.toNat + f.icode.length) :
    passThrough f s = { s with W := bubble, status := .FaultMemoryBounds } := by
  have hready := (fetchReady_iff s).1 (quiescent_fetchReady hq)
  rw [s.squash_of_not_mispred hq.2.2.1] at hready
  have h5 (n : State) : fetchUnit (.present f) s n = .error .memoryBounds := by
    simp [fetchUnit, hready, Nat.not_le.2 hb]
  have hrun : cycle (.present f) s = { s with W := bubble, status := .FaultMemoryBounds } := by
    obtain ⟨hs, hh, hm, -, hF, hD, hE, hM⟩ := hq
    rw [cycle_of_continue _ hs, s.squash_of_not_mispred hm, runUnits_of_fetch_error (writebackUnit_bubble _ hM)
      (memoryUnit_bubble _ hE) (executeUnit_bubble _ hD) (decodeUnit_empty _ (.inl hF)) (h5 _), State.takeFault_some _ _ (by exact hh)]
    simp only [State.setStatus, FaultKind.code, hD, hE, hM]
  rw [issued hq, hrun]
  exact drain_of_terminal _ nofun

/-- Decode turns the instruction away. -/
theorem passThrough_register (hq : s.Quiescent) (hb : s.pc.toNat + f.icode.length ≤ s.mem.capacity)
    (hr : (fetchedLatch f s.pc).registerFault = true) :
    passThrough f s = { s with
      F := fetchedLatch f s.pc, pc := predictedPc (fetchedLatch f s.pc), W := bubble, status := .FaultInvalidRegister } := by
  have hl : (fetchedLatch f s.pc).isEmpty = false := by
    rw [← Bool.not_eq_true]
    intro h
    rw [Latch.eq_bubble h rfl] at hr
    cases hr
  have h1 := cycle_present hq f hb
  rw [issued hq, h1, drain_step (not_drained_F hl)]
  obtain ⟨hs, hh, hm, -, -, hD, hE, hM⟩ := hq
  rw [cycle_decode_fault (s := { s with
    F := fetchedLatch f s.pc, pc := predictedPc (fetchedLatch f s.pc), W := bubble }) ⟨hs, hh, hm⟩ hD hE hM hr]
  exact drain_of_terminal _ nofun

/-- Execute turns the instruction away. -/
theorem passThrough_condition (hq : s.Quiescent) (hb : s.pc.toNat + f.icode.length ≤ s.mem.capacity)
    (hr : (fetchedLatch f s.pc).registerFault = false) (hc : (s.operands f).BadCondition) :
    passThrough f s = { s.inDecode f with status := .FaultInvalidCondition } := by
  have hl : (fetchedLatch f s.pc).isEmpty = false :=
    Latch.isEmpty_of_icode fun hn => by
      have hn' : f.icode = .nop := hn
      rcases hc.1 with h | h <;> rw [State.operands_icode, hn'] at h <;> cases h
  rw [passThrough_decoded hq hb hr hl]
  change drain 6 (s.inDecode f) = _
  rw [drain_step (not_drained_D (decodedLatch_isEmpty s hl))]
  obtain ⟨hs, hh, hm, -, -, hD, hE, hM⟩ := hq
  rw [cycle_of_continue _ (s := s.inDecode f) hs, State.squash_of_not_mispred (s := s.inDecode f) hm,
    runUnits_of_execute_error (s0 := s.inDecode f) (writebackUnit_bubble _ hM) (memoryUnit_bubble _ hE)
      (executeUnit_error_iff.2 ⟨rfl, hc⟩), State.takeFault_some _ _ (by exact hh), drain_of_terminal _ (by nofun)]
  simp only [State.inDecode, State.setStatus, FaultKind.code, hM]

/-- Memory turns the instruction away. -/
theorem passThrough_address (hq : s.Quiescent) (hb : s.pc.toNat + f.icode.length ≤ s.mem.capacity)
    (hr : (fetchedLatch f s.pc).registerFault = false) (hc : ¬ (s.operands f).BadCondition)
    (ha : (s.executed f).BadAddress s.mem.capacity) :
    passThrough f s = { s.inExecute f with status := .FaultMemoryBounds } := by
  have hn : f.icode ≠ .nop := by
    intro hn
    simp [Latch.BadAddress, hn] at ha
  have hsq := cycle_inDecode hq hc
  have hrun : (cycle .idle (s.inDecode f)).status = .Continue := by
    rw [← State.squash_status, hsq]; exact hq.1
  have hE' : (cycle .idle (s.inDecode f)).E.isEmpty = false := by
    rw [← State.squash_E, hsq]; exact Latch.isEmpty_of_icode hn
  rw [passThrough_decoded hq hb hr (Latch.isEmpty_of_icode hn)]
  change drain 6 (s.inDecode f) = _
  rw [drain_step (not_drained_D (Latch.isEmpty_of_icode hn)), ← drain_squash hrun hE', hsq,
    drain_step (not_drained_E (Latch.isEmpty_of_icode hn))]
  obtain ⟨hs, hh, hm, -, -, hD, hE, hM⟩ := hq
  rw [cycle_of_continue _ (s := s.inExecute f) hs, State.squash_of_not_mispred (s := s.inExecute f) hm,
    runUnits_of_memory_error (s0 := s.inExecute f) (writebackUnit_bubble _ hM) (memoryUnit_error_iff.2 ⟨rfl, ha⟩),
    State.takeFault_some _ _ (by exact hh), drain_of_terminal _ (by nofun)]
  rfl

/-- The five ways the passage of an instruction ends, each with what excludes the ones before it. -/
inductive Ends (s : State) (f : Fields) : State → Prop
  | bounds (h : s.mem.capacity < s.pc.toNat + f.icode.length) :
      Ends s f { s with W := bubble, status := .FaultMemoryBounds }
  | register (hb : s.pc.toNat + f.icode.length ≤ s.mem.capacity) (h : (fetchedLatch f s.pc).registerFault = true) :
      Ends s f { s with
        F := fetchedLatch f s.pc, pc := predictedPc (fetchedLatch f s.pc), W := bubble, status := .FaultInvalidRegister }
  | condition (hb : s.pc.toNat + f.icode.length ≤ s.mem.capacity) (hr : (fetchedLatch f s.pc).registerFault = false)
      (h : (s.operands f).BadCondition) : Ends s f { s.inDecode f with status := .FaultInvalidCondition }
  | address (hb : s.pc.toNat + f.icode.length ≤ s.mem.capacity) (hr : (fetchedLatch f s.pc).registerFault = false)
      (hc : ¬ (s.operands f).BadCondition) (h : (s.executed f).BadAddress s.mem.capacity) :
      Ends s f { s.inExecute f with status := .FaultMemoryBounds }
  | completed (hb : s.pc.toNat + f.icode.length ≤ s.mem.capacity) (hr : (fetchedLatch f s.pc).registerFault = false)
      (hc : ¬ (s.operands f).BadCondition) (ha : ¬ (s.executed f).BadAddress s.mem.capacity) : Ends s f (s.completed f)

theorem passThrough_ends (hq : s.Quiescent) (f : Fields) : Ends s f (passThrough f s) := by
  by_cases hb : s.mem.capacity < s.pc.toNat + f.icode.length
  · rw [passThrough_bounds hq hb]
    exact .bounds hb
  replace hb := Nat.not_lt.1 hb
  cases hr : (fetchedLatch f s.pc).registerFault with
  | true =>
    rw [passThrough_register hq hb hr]
    exact .register hb hr
  | false =>
    by_cases hc : (s.operands f).BadCondition
    · rw [passThrough_condition hq hb hr hc]
      exact .condition hb hr hc
    · by_cases ha : (s.executed f).BadAddress s.mem.capacity
      · rw [passThrough_address hq hb hr hc ha]
        exact .address hb hr hc ha
      · rw [passThrough_completed hq hb hr hc ha]
        exact .completed hb hr hc ha

theorem exec_ends {i : Instr} {t : State} (hq : s.Quiescent) (h : exec i s = .next t) : Ends s i.fields t := by
  rw [exec_eq, Host.Outcome.next.injEq] at h
  exact h ▸ passThrough_ends hq i.fields

/-- Four of the five endings are faults. -/
theorem Ends.eq_completed {t : State} (h : Ends s f t) (hf : t.faulted = false) :
    (fetchedLatch f s.pc).registerFault = false ∧ t = s.completed f := by
  cases h with
  | completed _ hr => exact ⟨hr, rfl⟩
  | bounds | register | condition | address => cases hf

/-- Two cycles take the instruction to `D`. -/
theorem cycle_decoded (hq : s.Quiescent) (hb : s.pc.toNat + f.icode.length ≤ s.mem.capacity)
    (hr : (fetchedLatch f s.pc).registerFault = false) : cycle .idle (cycle (.present f) s) = s.inDecode f := by
  rw [cycle_present hq f hb]
  obtain ⟨hs, hh, hm, hl, -, hD, hE, hM⟩ := hq
  rw [cycle_decode (s := { s with F := fetchedLatch f s.pc, pc := predictedPc (fetchedLatch f s.pc), W := bubble })
    ⟨hs, hh, hm⟩ hD hE hM hr (stall_of_unlocked hl)]
  rfl

/-- Settles O5: Decode accepts the instruction and Execute turns it away. -/
theorem invalidConditionFaultsInExecute : Obligations.InvalidConditionFaultsInExecute := by
  intro s f hq hb hfn hf
  have hc : Conditional f.icode := hf.elim (fun h => .inr h.1) (fun h => .inl h.1)
  have hr : (fetchedLatch f s.pc).registerFault = false := by
    rw [← Bool.not_eq_true, Latch.registerFault_iff]
    rcases hf with ⟨hi, hA, hB⟩ | ⟨hi, hA, hB⟩
    · simp [Latch.BadRegister, fetchedLatch, hi, hA, hB]
    · simp [Latch.BadRegister, fetchedLatch, hi]
      omega
  rw [cycle_decoded hq hb hr, passThrough_condition hq hb hr ⟨hc, hfn⟩]
  refine ⟨hq.1, fun hcm => ?_, rfl, rfl, rfl, rfl, rfl, rfl⟩
  have hv := fun r hm => (dests_of_no_registerFault hr r hm).1
  change (LockTable.putAll s.lock true (fetchedLatch f s.pc).dests).isLocked f.regB = true
  rw [LockTable.isLocked_putAll _ _ _ _ hv, if_pos]
  simp [Latch.dests, fetchedLatch, hcm]

/-- Settles O57: an ending that is neither a fault nor a halt puts every latch and the locks back as they were. -/
theorem instructionEndsBetweenInstructions : Obligations.InstructionEndsBetweenInstructions := by
  intro i s t hq he hc
  obtain ⟨-, rfl⟩ := (exec_ends hq he).eq_completed (by simp [State.faulted, hc])
  have hi : i.fields.icode ≠ .halt := fun h => by simp [State.completed, h] at hc
  obtain ⟨hs, hh, hm, hl, hF, hD, hE, hM⟩ := hq
  exact ⟨hc, decide_eq_false hi, hm, hl, hF, hD, hE, hM⟩

end Sys2Proof.Machine
end

section
/-! PROOFS. What each instruction does, from the equation of the instruction that completes (spec files 41_halt_nop.md to
47_stack.md). -/

namespace Sys2Proof.Machine

variable {s : State} {f : Fields} {i : Instr} {r : Nibble}

/-! ### The fields of an instruction, and the conditions of its endings -/

theorem operandValue_of_lt (h : r.toNat < 8) (x : RegFile) (v : Word) : operandValue x r v = RegFile.read x r :=
  if_neg fun hr => by simp [hr, Config.noRegister] at h

theorem registerOk_eq_false_iff (r : Nibble) : registerOk r = false ↔ 8 ≤ r.toNat := by
  rw [← Bool.not_eq_true, registerOk_iff, Nat.not_lt]

/-- Decode turns away exactly the instructions that are not well formed (R79, R80). -/
theorem registerFault_fields (i : Instr) (p : Word) : (fetchedLatch i.fields p).registerFault = !i.WellFormed := by
  rw [Bool.eq_iff_iff, Latch.registerFault_iff]
  cases i <;> simp [Latch.BadRegister, fetchedLatch, Instr.fields, Fields.opcode, Fields.registers, Fields.constant, Fields.full,
    Instr.WellFormed, registerOk_eq_false_iff, Config.noRegister] <;> omega

/-- No instruction has a condition outside 0 to 6 (R58). -/
theorem not_badCondition_fields (i : Instr) (s : State) : ¬ (s.operands i.fields).BadCondition := by
  cases i <;> simp [Latch.BadCondition, State.operands, State.decodedLatch, fetchedLatch, Instr.fields, Fields.opcode,
    Fields.registers, Fields.constant, Fields.full]

/-- Memory turns away exactly the accesses that are out of bounds (R40, R90). -/
theorem badAddress_fields (hw : i.WellFormed = true) (s : State) :
    (s.executed i.fields).BadAddress s.mem.capacity ↔ Instr.outOfBounds i s = true := by
  have h4 (v : Word) : operandValue s.x 4#4 v = RegFile.read s.x 4#4 := operandValue_of_lt (by decide) _ _
  cases i <;> simp [Latch.BadAddress, State.executed, Latch.executed, Latch.result, State.operands, State.decodedLatch, fetchedLatch,
    Instr.fields, Fields.opcode, Fields.registers, Fields.constant, Fields.full, Instr.outOfBounds, Instr.storeAddress,
    Instr.loadAddress, Latch.selA, Latch.selB, Config.stackPointer, h4]
  case rmmovq fn rA rB d | mrmovq fn rA rB d =>
    rw [Instr.WellFormed, Bool.and_eq_true, registerOk_iff, registerOk_iff] at hw
    rw [operandValue_of_lt hw.2]

theorem Ready.fits (h : s.Ready i) : s.pc.toNat + i.fields.icode.length ≤ s.mem.capacity := by
  rw [← Instr.length, ← (Laws.EncodeLength.all i).1]
  exact h.2

/-- A well-formed instruction whose bytes fit and whose access is in bounds completes. -/
theorem exec_completed (h : s.Ready i) (hw : i.WellFormed = true) (ha : Instr.outOfBounds i s = false) :
    exec i s = .next (s.completed i.fields) := by
  rw [exec_eq, passThrough_completed h.1 (Ready.fits h) (by rw [registerFault_fields, hw]; rfl) (not_badCondition_fields i s)
    (by rw [badAddress_fields hw, ha]; exact Bool.false_ne_true)]

/-! ### The completed state of the classes that write neither flags nor the misprediction registers -/

/-- The class leaves the flags, the misprediction registers and the status alone. -/
def isPlain (c : IClass) : Bool := decide (c ≠ .halt ∧ c ≠ .op ∧ c ≠ .jump)

theorem flagsAfter_of_not_op (h : f.icode ≠ .op) : s.flagsAfter f = s.flags := if_neg h

theorem mispredicts_of_not_jump (h : f.icode ≠ .jump) : s.mispredicts f = false := by
  rw [← Bool.not_eq_true]
  exact mt mispredicts_icode h

theorem running_of_not_halt (hq : s.Quiescent) (h : f.icode ≠ .halt) :
    (if f.icode = .halt then Status.Halted else .Continue) = s.status ∧ decide (f.icode = .halt) = s.halted :=
  ⟨(if_neg h).trans hq.1.symm, (decide_eq_false h).trans hq.2.1.symm⟩

/-- The two operands of an instruction that reads registers. -/
theorem operands_eq (s : State) (f : Fields) {a b : Word} (ha : operandValue s.x (fetchedLatch f s.pc).selA 0 = a)
    (hb : operandValue s.x (fetchedLatch f s.pc).selB 0 = b) :
    s.operands f = { fetchedLatch f s.pc with valA := a, valB := b } := by
  rw [← ha, ← hb]
  rfl

/-- The completed state in terms of the latch `e` that Execute leaves. -/
def State.plainOutcome (s : State) (f : Fields) (e : Latch) : State :=
  { s with
    x := Latch.commit { e with valM := e.loaded s.mem } s.x
    pc := if f.icode = .ret then e.loaded s.mem else predictedPc (fetchedLatch f s.pc)
    W := { e with valM := e.loaded s.mem }
    mem := e.stored s.mem }

theorem completed_of_plain (hq : s.Quiescent) (h : isPlain f.icode = true) {a b : Word}
    (ha : operandValue s.x (fetchedLatch f s.pc).selA 0 = a) (hb : operandValue s.x (fetchedLatch f s.pc).selB 0 = b) :
    s.completed f =
      s.plainOutcome f (Latch.executed { fetchedLatch f s.pc with valA := a, valB := b } (s.conditionOf f)) := by
  obtain ⟨hh, ho, hj⟩ := of_decide_eq_true h
  obtain ⟨hstatus, hhalted⟩ := running_of_not_halt hq hh
  rw [← operands_eq s f ha hb, State.completed, State.pcAfter, flagsAfter_of_not_op ho, mispredicts_of_not_jump hj, hstatus,
    hhalted]
  rfl

/-- A well-formed instruction of a plain class. -/
theorem exec_of_plain (h : s.Ready i) (hw : i.WellFormed = true) (ho : Instr.outOfBounds i s = false)
    (hp : isPlain i.fields.icode = true) {a b : Word} (ha : operandValue s.x (fetchedLatch i.fields s.pc).selA 0 = a)
    (hb : operandValue s.x (fetchedLatch i.fields s.pc).selB 0 = b) :
    exec i s = .next (s.plainOutcome i.fields
      (Latch.executed { fetchedLatch i.fields s.pc with valA := a, valB := b } (s.conditionOf i.fields))) :=
  (exec_completed h hw ho).trans (congrArg _ (completed_of_plain h.1 hp ha hb))

/-- An instruction that only stores is out of bounds where its store is. -/
theorem outOfBounds_of_store {a : Word} (hs : Instr.storeAddress s.x i = some a) (hl : Instr.loadAddress s.x i = none)
    (hb : a.toNat + 8 ≤ s.mem.capacity) : Instr.outOfBounds i s = false := by
  simpa [Instr.outOfBounds, hs, hl] using hb

/-- An instruction that only loads is out of bounds where its load is. -/
theorem outOfBounds_of_load {a : Word} (hs : Instr.storeAddress s.x i = none) (hl : Instr.loadAddress s.x i = some a)
    (hb : a.toNat + 8 ≤ s.mem.capacity) : Instr.outOfBounds i s = false := by
  simpa [Instr.outOfBounds, hs, hl] using hb

theorem registerOk_and {rA rB : Nibble} (hA : rA.toNat < 8) (hB : rB.toNat < 8) : (registerOk rA && registerOk rB) = true := by
  simp [registerOk_iff, hA, hB]

theorem stackPointer_lt : Config.stackPointer.toNat < 8 := by decide

/-- Settles O44: a `nop` is a plain class; a `halt` differs from one in the status and the halted flag. -/
theorem haltAndNopComplete : Obligations.HaltAndNopComplete := by
  refine fun s fn => ⟨fun h => ?_, fun h => ?_⟩
  · exact exec_of_plain h rfl rfl rfl rfl rfl
  · have ho : (Instr.halt fn).fields.icode ≠ .op := nofun
    have hj : (Instr.halt fn).fields.icode ≠ .jump := nofun
    rw [exec_completed h rfl rfl, State.completed, State.pcAfter, flagsAfter_of_not_op ho, mispredicts_of_not_jump hj]
    rfl

/-- Settles O46, as an instruction of a plain class. -/
theorem irmovqCompletes : Obligations.IrmovqCompletes := by
  intro s fn rB v hB h
  exact exec_of_plain h ((registerOk_iff _).2 hB) rfl rfl rfl (operandValue_of_lt hB _ _)

theorem conditionOf_eq {c : Bool} (h : condition f.ifun s.ZF s.SF s.OF = some c) : s.conditionOf f = c := by
  rw [State.conditionOf, h, Option.getD_some]

/-- The seven register moves, by the number of their condition. -/
theorem completed_move {fn rA rB : Nibble} {c : Bool} (hq : s.Quiescent) (hA : rA.toNat < 8) (hB : rB.toNat < 8)
    (hc : condition fn s.ZF s.SF s.OF = some c) : s.completed (.registers .cmov fn rA rB) = { s with
      x := if c then RegFile.write s.x rB (RegFile.read s.x rA) else s.x
      pc := s.pc + 2
      W := { fetchedLatch (.registers .cmov fn rA rB) s.pc with
        valA := RegFile.read s.x rA, valB := RegFile.read s.x rB, valE := RegFile.read s.x rA, cnd := c } } := by
  rw [completed_of_plain hq rfl (operandValue_of_lt hA _ _) (operandValue_of_lt hB _ _), conditionOf_eq hc]
  rfl

/-- Settles O45, one lemma for all seven conditions. -/
theorem movesComplete : Obligations.MovesComplete := by
  intro s rA rB p hA hB hp h
  simp only [List.mem_cons, List.not_mem_nil, or_false] at hp
  have hw := registerOk_and hA hB
  rcases hp with rfl | rfl | rfl | rfl | rfl | rfl | rfl <;>
    exact (exec_completed h hw rfl).trans (congrArg _ (completed_move h.1 hA hB rfl))

/-- Settles O47, as an instruction of a plain class that stores. -/
theorem rmmovqCompletes : Obligations.RmmovqCompletes := by
  intro s fn rA rB d hA hB h hb
  exact exec_of_plain h (registerOk_and hA hB) (outOfBounds_of_store rfl rfl hb) rfl (operandValue_of_lt hA _ _)
    (operandValue_of_lt hB _ _)

/-- Settles O48, as an instruction of a plain class that loads. -/
theorem mrmovqCompletes : Obligations.MrmovqCompletes := by
  intro s fn rA rB d hA hB h hb
  exact exec_of_plain h (registerOk_and hA hB) (outOfBounds_of_load rfl rfl hb) rfl (operandValue_of_lt hA _ _)
    (operandValue_of_lt hB _ _)

/-- Settles O51, as an instruction of a plain class that stores. -/
theorem callCompletes : Obligations.CallCompletes := by
  intro s fn dest h hb
  exact exec_of_plain h rfl (outOfBounds_of_store rfl rfl hb) rfl rfl
    (operandValue_of_lt stackPointer_lt _ _)

/-- Settles O52, as an instruction of a plain class that loads. -/
theorem retCompletes : Obligations.RetCompletes := by
  intro s fn h hb
  exact exec_of_plain h rfl (outOfBounds_of_load rfl rfl hb) rfl (operandValue_of_lt stackPointer_lt _ _)
    (operandValue_of_lt stackPointer_lt _ _)

/-- Settles O53, as an instruction of a plain class that stores. -/
theorem pushqCompletes : Obligations.PushqCompletes := by
  intro s fn rA hA h hb
  exact exec_of_plain h ((registerOk_iff _).2 hA) (outOfBounds_of_store rfl rfl hb) rfl (operandValue_of_lt hA _ _)
    (operandValue_of_lt stackPointer_lt _ _)

/-- Settles O54, as an instruction of a plain class that loads. -/
theorem popqCompletes : Obligations.PopqCompletes := by
  intro s fn rA hA h hb
  exact exec_of_plain h ((registerOk_iff _).2 hA) (outOfBounds_of_load rfl rfl hb) rfl (operandValue_of_lt hA _ _)
    (operandValue_of_lt stackPointer_lt _ _)

/-- The seven jumps, by the number of their condition. -/
theorem completed_jump {fn : Nibble} {dest : Word} {c : Bool} (hq : s.Quiescent)
    (hc : condition fn s.ZF s.SF s.OF = some c) : s.completed (.constant .jump fn dest) = { s with
      pc := if c then dest else s.pc + 9
      mispredPC := if c then s.mispredPC else s.pc + 9
      W := { fetchedLatch (.constant .jump fn dest) s.pc with cnd := c } } := by
  have hv : s.conditionOf (.constant .jump fn dest) = c := conditionOf_eq hc
  have hmis : s.mispredicts (.constant .jump fn dest) = !c := by
    rw [State.mispredicts, hv]
    rfl
  have ho : (Fields.constant .jump fn dest).icode ≠ .op := nofun
  rw [State.completed, State.pcAfter, flagsAfter_of_not_op ho, State.retired, State.executed, hmis, hv]
  obtain ⟨hstatus, hhalted⟩ := running_of_not_halt hq (f := .constant .jump fn dest) fun h => IClass.noConfusion h
  rw [hstatus, hhalted]
  cases c <;> rfl

/-- Settles O50, one lemma for all seven conditions. -/
theorem jumpsComplete : Obligations.JumpsComplete := by
  intro s dest p hp h
  simp only [List.mem_cons, List.not_mem_nil, or_false] at hp
  rcases hp with rfl | rfl | rfl | rfl | rfl | rfl | rfl <;>
    exact (exec_completed h rfl rfl).trans (congrArg _ (completed_jump h.1 rfl))

/-- The four operations of the ALU. -/
theorem completed_op {fn rA rB : Nibble} {v : Word} (hq : s.Quiescent) (hA : rA.toNat < 8) (hB : rB.toNat < 8)
    (hv : aluResult fn (RegFile.read s.x rA) (RegFile.read s.x rB) = some v) :
    s.completed (.registers .op fn rA rB) = { s with
      x := RegFile.write s.x rB v
      pc := s.pc + 2
      ZF := decide (v = 0)
      SF := v.getLsbD 63
      OF := overflowFlag fn (RegFile.read s.x rA) (RegFile.read s.x rB) v
      W := { fetchedLatch (.registers .op fn rA rB) s.pc with
        valA := RegFile.read s.x rA, valB := RegFile.read s.x rB, valE := v } } := by
  have hop : s.operands (.registers .op fn rA rB) = { fetchedLatch (.registers .op fn rA rB) s.pc with
      valA := RegFile.read s.x rA, valB := RegFile.read s.x rB } :=
    operands_eq s _ (operandValue_of_lt hA _ _) (operandValue_of_lt hB _ _)
  have hj : (Fields.registers .op fn rA rB).icode ≠ .jump := fun h => IClass.noConfusion h
  have hfl : s.flagsAfter (.registers .op fn rA rB) =
      (decide (v = 0), v.getLsbD 63, overflowFlag fn (RegFile.read s.x rA) (RegFile.read s.x rB) v) := by
    rw [State.flagsAfter, hop]
    change (aluResult fn (RegFile.read s.x rA) (RegFile.read s.x rB)).elim _ _ = _
    rw [hv]
    rfl
  have hex : s.executed (.registers .op fn rA rB) = { fetchedLatch (.registers .op fn rA rB) s.pc with
      valA := RegFile.read s.x rA, valB := RegFile.read s.x rB, valE := v } := by
    have hres : Latch.result { fetchedLatch (.registers .op fn rA rB) s.pc with
        valA := RegFile.read s.x rA, valB := RegFile.read s.x rB } = v := by
      change (aluResult fn (RegFile.read s.x rA) (RegFile.read s.x rB)).getD _ = v
      rw [hv]
      rfl
    rw [State.executed, hop, Latch.executed, hres]
    rfl
  obtain ⟨hstatus, hhalted⟩ := running_of_not_halt hq (f := .registers .op fn rA rB) fun h => IClass.noConfusion h
  rw [State.completed, State.pcAfter, hfl, mispredicts_of_not_jump hj, State.retired, hex, hstatus, hhalted]
  rfl

/-- Settles O49: `OF` by the two lemmas on signed overflow. -/
theorem aluCompletes : Obligations.AluCompletes := by
  intro s rA rB p hA hB hp h
  simp only [List.mem_cons, List.not_mem_nil, or_false] at hp
  have hw := registerOk_and hA hB
  rcases hp with rfl | rfl | rfl | rfl <;> refine (exec_completed h hw rfl).trans (congrArg _ ?_)
  · rw [← overflowFlag_add]
    exact completed_op h.1 hA hB rfl
  · rw [← overflowFlag_sub]
    exact completed_op h.1 hA hB rfl
  · exact completed_op h.1 hA hB rfl
  · exact completed_op h.1 hA hB rfl

end Sys2Proof.Machine
end

section
/-! PROOFS. What holds of every instruction (spec/60_exceptions.md section 1, spec/10_state.md section 8, spec/30_encoding.md R59), and
of two of them in a row (spec/42_moves.md section 1, 46_call_ret.md, 47_stack.md). -/

namespace Sys2Proof.Machine

variable {s t : State} {f : Fields} {i : Instr} {r : Nibble}

/-! ### Conditions after a subtraction -/

/-- After `b - a` the sign differs from the overflow exactly if `b` is less than `a`. -/
theorem sign_ne_overflow_iff (a b : Word) :
    ((b - a).getLsbD 63 != outsideSigned64 (b.toInt - a.toInt)) = decide (b.toInt < a.toInt) := by
  have hs : (b - a).getLsbD 63 = decide ((b - a).toInt < 0) := by
    rw [← BitVec.msb_eq_toInt, BitVec.msb_eq_getLsbD_last]
  have hb := b.toInt_lt
  have hb' := b.le_toInt
  have ha := a.toInt_lt
  have ha' := a.le_toInt
  have hsub := BitVec.toInt_sub (x := b) (y := a)
  rw [hs, outsideSigned64, Bool.eq_iff_iff, bne_iff_ne, Ne, decide_eq_decide, decide_eq_true_iff]
  rw [hsub, Int.bmod_def]
  omega

theorem sub_eq_zero_iff_toInt (a b : Word) : b - a = 0 ↔ b.toInt = a.toInt := by
  rw [sub_eq_zero, BitVec.toInt_inj]

/-- Settles O24, from the flags `AluCompletes` gives. -/
theorem conditionsCompareAfterSub : Obligations.ConditionsCompareAfterSub := by
  intro s t rA rB h hA hB he
  have ht := aluCompletes s rA rB _ hA hB (.tail _ (.head _)) h
  rw [ht, Host.Outcome.next.injEq] at he
  subst he
  generalize RegFile.read s.x rA = a
  generalize RegFile.read s.x rB = b
  have hlt := sign_ne_overflow_iff a b
  have hge : ((b - a).getLsbD 63 == outsideSigned64 (b.toInt - a.toInt)) = decide (a.toInt ≤ b.toInt) := by
    rw [← Bool.not_inj_iff, ← bne, hlt, ← decide_not, decide_eq_decide, Int.not_le]
  have hz : decide (b - a = 0) = decide (b.toInt = a.toInt) := decide_eq_decide.2 (sub_eq_zero_iff_toInt a b)
  have hne : decide (b ≠ a) = !decide (b.toInt = a.toInt) := by simp [BitVec.toInt_inj]
  refine ⟨congrArg some ?_, congrArg some ?_, congrArg some ?_, congrArg some ?_, congrArg some ?_, congrArg some ?_⟩ <;>
    dsimp only
  · rw [hz, hlt, ← Bool.decide_or, decide_eq_decide]
    omega
  · rw [hz, hlt, ← decide_not, ← Bool.decide_and, decide_eq_decide]
    omega
  · rw [hz, decide_eq_decide, BitVec.toInt_inj]
  · rw [hz, hne]
  · rw [hz, hge, ← Bool.decide_or, decide_eq_decide]
    omega
  · rw [hz, hge, ← decide_not, ← Bool.decide_and, decide_eq_decide]
    omega

/-! ### Every instruction -/

theorem encode_length_eq (i : Instr) : (encode i).length = i.fields.icode.length := (Laws.EncodeLength.all i).1

theorem wellFormed_of_registerFault {p : Word} (h : (fetchedLatch i.fields p).registerFault = false) : i.WellFormed = true := by
  rw [registerFault_fields, Bool.not_eq_false'] at h
  exact h

theorem completed_not_faulted (s : State) (f : Fields) : (s.completed f).faulted = false := by
  by_cases h : f.icode = .halt <;> simp [State.faulted, State.completed, h]

/-- Only an access can be out of bounds, so the flags are as they were. -/
theorem sameArchitecture_inExecute {c : Nat} (h : (s.executed f).BadAddress c) : s.SameArchitecture (s.inExecute f) := by
  have ho : f.icode ≠ .op := fun ho => by simp [Latch.BadAddress, ho] at h
  have hfl := flagsAfter_of_not_op (s := s) ho
  refine ⟨rfl, ?_, ?_, ?_, rfl⟩ <;> rw [State.inExecute, hfl] <;> rfl

/-- Settles O56: each of the five endings is one row of the statement's status. -/
theorem whenAnInstructionFaults : Obligations.WhenAnInstructionFaults := by
  intro i s t hq he
  rw [encode_length_eq]
  cases exec_ends hq he with
  | bounds h => exact ⟨(if_pos h).symm, fun _ => ⟨rfl, rfl, rfl, rfl, rfl⟩⟩
  | register hb h =>
    have hw : i.WellFormed = false := by rwa [registerFault_fields, Bool.not_eq_true'] at h
    rw [if_neg (Nat.not_lt.2 hb), if_pos hw]
    exact ⟨rfl, fun _ => ⟨rfl, rfl, rfl, rfl, rfl⟩⟩
  | condition _ _ h => exact absurd h (not_badCondition_fields i s)
  | address hb hr _ h =>
    have hw := wellFormed_of_registerFault hr
    rw [if_neg (Nat.not_lt.2 hb), if_neg (by simp [hw]), if_pos ((badAddress_fields hw s).1 h)]
    exact ⟨rfl, fun _ => sameArchitecture_inExecute h⟩
  | completed hb hr _ ha =>
    have hw := wellFormed_of_registerFault hr
    rw [if_neg (Nat.not_lt.2 hb), if_neg (by simp [hw]), if_neg (mt (badAddress_fields hw s).2 ha)]
    exact ⟨rfl, fun hf => absurd hf (by rw [completed_not_faulted]; exact Bool.false_ne_true)⟩

theorem writes_eq_dests (i : Instr) (p : Word) : Instr.writes i = (fetchedLatch i.fields p).dests := by cases i <;> rfl

/-- What an instruction leaves of the memory: its store, at the address its registers name. -/
theorem stored_fields (hw : i.WellFormed = true) (s : State) :
    (∃ a v, Instr.storeAddress s.x i = some a ∧ (s.executed i.fields).stored s.mem = s.mem.write64 a v) ∨
    (Instr.storeAddress s.x i = none ∧ (s.executed i.fields).stored s.mem = s.mem) := by
  cases i
  case rmmovq fn rA rB d =>
    rw [Instr.WellFormed, Bool.and_eq_true, registerOk_iff, registerOk_iff] at hw
    rw [State.executed, operands_eq s _ (operandValue_of_lt hw.1 _ _) (operandValue_of_lt hw.2 _ _)]
    exact .inl ⟨_, _, rfl, rfl⟩
  case call | pushq => exact .inl ⟨_, _, rfl, rfl⟩
  all_goals exact .inr ⟨rfl, rfl⟩

/-- Settles O55: the completed state writes the destinations, the flags of the ALU, the jump's address and the bytes stored. -/
theorem instructionFrame : Obligations.InstructionFrame := by
  intro i s t hq he hf
  obtain ⟨hr, rfl⟩ := (exec_ends hq he).eq_completed hf
  have hv := fun r hm => (dests_of_no_registerFault hr r hm).1
  have hmem := stored_fields (wellFormed_of_registerFault hr) s
  refine ⟨fun r _ hn => ?_, fun h => ?_, fun h => ?_, fun h => ?_, rfl, rfl, rfl, rfl, rfl, rfl, ?_, fun a ha b hb => ?_,
    fun hn b => ?_⟩
  · rw [writes_eq_dests i s.pc] at hn
    exact Latch.read_commit_of_not_mem (m := s.retired i.fields) hv _ hn
  · have hfl := flagsAfter_of_not_op (s := s) h
    rw [State.completed, hfl]
    exact ⟨rfl, rfl, rfl⟩
  · rw [State.completed, mispredicts_of_not_jump h]
    rfl
  · exact (running_of_not_halt hq h).symm
  all_goals simp only [State.completed]
  · obtain ⟨a, v, -, hm⟩ | ⟨-, hm⟩ := hmem <;> rw [hm]
    exact Memory.write64_capacity ..
  · obtain ⟨a', v, ha', hm⟩ | ⟨ha', -⟩ := hmem
    · obtain rfl := Option.some.inj (ha'.symm.trans ha)
      rw [hm]
      exact Memory.readByte_write64_outside _ _ _ _ hb
    · simp [ha] at ha'
  · obtain ⟨a, v, ha, -⟩ | ⟨-, hm⟩ := hmem
    · simp [hn] at ha
    · rw [hm]

/-! ### The ignored function field -/

/-- The two states differ at most in the function field the `W` record shows (and in what the statement says nothing of). -/
def State.AgreesButFunction (t u : State) : Prop :=
  t.SameArchitecture u ∧ t.pc = u.pc ∧ t.status = u.status ∧ t.halted = u.halted ∧ t.lock = u.lock ∧
  { t.W with ifun := 0 } = { u.W with ifun := 0 }

theorem State.AgreesButFunction.refl (t : State) : t.AgreesButFunction t :=
  ⟨⟨rfl, rfl, rfl, rfl, rfl⟩, rfl, rfl, rfl, rfl, rfl⟩

/-- The class ignores its function field (R59). -/
abbrev IgnoresFunction (c : IClass) : Prop := c ≠ .cmov ∧ c ≠ .op ∧ c ≠ .jump

theorem executed_ifun (hc : IgnoresFunction f.icode) (s : State) (n : Nibble) :
    s.executed { f with ifun := n } = { s.executed f with ifun := n } := by
  obtain ⟨c, fn, rA, rB, v⟩ := f
  cases c
  case cmov | op | jump => simp [IgnoresFunction] at hc
  all_goals rfl

theorem passThrough_ifun (hq : s.Quiescent) (hc : IgnoresFunction f.icode) (n : Nibble) :
    (passThrough f s).AgreesButFunction (passThrough { f with ifun := n } s) := by
  have hbc (g : Fields) (hg : g.icode = f.icode) : ¬ (s.operands g).BadCondition := by
    rintro ⟨h | h, -⟩
    · exact hc.1 (hg.symm.trans h)
    · exact hc.2.2 (hg.symm.trans h)
  have hmis (g : Fields) (hg : g.icode = f.icode) : s.mispredicts g = false := mispredicts_of_not_jump (hg ▸ hc.2.2)
  have hfl (g : Fields) (hg : g.icode = f.icode) : s.flagsAfter g = s.flags := flagsAfter_of_not_op (hg ▸ hc.2.1)
  have hex := executed_ifun hc s n
  by_cases hb : s.mem.capacity < s.pc.toNat + f.icode.length
  · rw [passThrough_bounds hq hb, passThrough_bounds (f := { f with ifun := n }) hq hb]
    exact .refl _
  replace hb := Nat.not_lt.1 hb
  cases hr : (fetchedLatch f s.pc).registerFault with
  | true =>
    rw [passThrough_register hq hb hr, passThrough_register (f := { f with ifun := n }) hq hb hr]
    exact ⟨⟨rfl, rfl, rfl, rfl, rfl⟩, rfl, rfl, rfl, rfl, rfl⟩
  | false =>
    by_cases ha : (s.executed f).BadAddress s.mem.capacity
    · have ha' : (s.executed { f with ifun := n }).BadAddress s.mem.capacity := by rwa [hex]
      rw [passThrough_address hq hb hr (hbc _ rfl) ha, passThrough_address (f := { f with ifun := n }) hq hb hr (hbc _ rfl) ha',
        State.inExecute, State.inExecute, hfl f rfl, hfl { f with ifun := n } rfl, hmis f rfl, hmis { f with ifun := n } rfl]
      exact ⟨⟨rfl, rfl, rfl, rfl, rfl⟩, rfl, rfl, rfl, rfl, rfl⟩
    · have ha' : ¬ (s.executed { f with ifun := n }).BadAddress s.mem.capacity := by rwa [hex]
      rw [passThrough_completed hq hb hr (hbc _ rfl) ha,
        passThrough_completed (f := { f with ifun := n }) hq hb hr (hbc _ rfl) ha', State.completed, State.completed, State.pcAfter,
        State.pcAfter, hfl f rfl, hfl { f with ifun := n } rfl, hmis f rfl, hmis { f with ifun := n } rfl, State.retired,
        State.retired, hex]
      exact ⟨⟨rfl, rfl, rfl, rfl, rfl⟩, rfl, rfl, rfl, rfl, rfl⟩

/-- Settles O6: nine classes ignore the function field, the instructions of the others are their own canonical spelling. -/
theorem ignoredFunctionIsIgnored : Obligations.IgnoredFunctionIsIgnored := by
  intro i s t u hq ht hu
  rw [exec_eq, Host.Outcome.next.injEq] at ht hu
  subst ht hu
  change (passThrough i.fields s).AgreesButFunction (passThrough i.canonical.fields s)
  cases i
  case halt | nop | irmovq | rmmovq | mrmovq | call | ret | pushq | popq =>
    exact passThrough_ifun hq ⟨fun h => IClass.noConfusion h, fun h => IClass.noConfusion h, fun h => IClass.noConfusion h⟩ 0
  all_goals exact .refl _

/-! ### Two instructions in a row -/

theorem ready_of_fits (hq : s.Quiescent) (h : s.pc.toNat + i.fields.icode.length ≤ s.mem.capacity) : s.Ready i :=
  ⟨hq, by rwa [encode_length_eq]⟩

theorem RegFile.read_write_same (x : RegFile) (v : Word) (h : r.toNat < 8) : RegFile.read (RegFile.write x r v) r = v := by
  rw [RegFile.read_write x r v h, if_pos rfl]

theorem RegFile.write_write_same (x : RegFile) (v w : Word) (h : r.toNat < 8) :
    RegFile.write (RegFile.write x r v) r w = RegFile.write x r w := by
  refine RegFile.ext_read fun q _ => ?_
  rw [RegFile.read_write _ _ _ h, RegFile.read_write _ _ _ h, RegFile.read_write _ _ _ h]
  split <;> rfl

/-- Moving the stack pointer down and up again restores it. -/
theorem RegFile.write_down_up (x : RegFile) (h : r.toNat < 8) :
    RegFile.write (RegFile.write x r (RegFile.read x r - 8)) r (RegFile.read x r - 8 + 8) = x := by
  rw [RegFile.write_write_same _ _ _ h, BitVec.sub_add_cancel, RegFile.write_read_self _ _ h]

/-- Settles O58: the return reads back the slot the call stored. -/
theorem callThenRetRestores : Obligations.CallThenRetRestores := by
  intro s t u fn fn' dest h hdest hb ht hu
  have ht' := Host.Outcome.next.inj (ht.symm.trans (callCompletes s fn dest h hb))
  have hx : t.x = RegFile.write s.x 4 (RegFile.read s.x 4 - 8) := by rw [ht']
  have hm : t.mem = s.mem.write64 (RegFile.read s.x 4 - 8) (s.pc + 9) := by rw [ht']
  have hpc : t.pc = dest := by rw [ht']
  have hs : t.status = .Continue := by rw [ht']; exact h.1.1
  have hflags : t.flags = s.flags := by rw [ht']; rfl
  have hsp : RegFile.read t.x 4 = RegFile.read s.x 4 - 8 := by rw [hx, RegFile.read_write_same _ _ (by decide)]
  have hready : t.Ready (.ret fn') := ready_of_fits (instructionEndsBetweenInstructions _ s t h.1 ht hs)
    (by rw [hm, hpc, Memory.write64_capacity]; exact hdest)
  have hu' := Host.Outcome.next.inj (hu.symm.trans (retCompletes t fn' hready (by rwa [hsp, hm, Memory.write64_capacity])))
  have hux : u.x = RegFile.write t.x 4 (RegFile.read t.x 4 + 8) := by rw [hu']
  have hum : u.mem = t.mem := by rw [hu']
  have hupc : u.pc = t.mem.read64 (RegFile.read t.x 4) := by rw [hu']
  obtain ⟨hz, hg, ho⟩ : u.ZF = s.ZF ∧ u.SF = s.SF ∧ u.OF = s.OF := by
    rw [← State.flags_eq_iff, ← hflags, hu']
    rfl
  refine ⟨by rw [hu']; exact hs, ?_, ?_, hz, hg, ho, fun b hout => ?_⟩
  · rw [hupc, hsp, hm, Memory.read64_write64_same _ _ _ ((Memory.dataInBounds_iff _ _).2 hb)]
  · rw [hux, hsp, hx, RegFile.write_down_up _ (by decide)]
  · rw [hum, hm, Memory.readByte_write64_outside _ _ _ _ hout]

/-- Settles O59: the pop reads back the slot the push stored. -/
theorem pushThenPopCopies : Obligations.PushThenPopCopies := by
  intro s t u fn fn' rA rB hA hB h hfits hb ht hu
  have ht' := Host.Outcome.next.inj (ht.symm.trans (pushqCompletes s fn rA hA h hb))
  have hx : t.x = RegFile.write s.x 4 (RegFile.read s.x 4 - 8) := by rw [ht']
  have hm : t.mem = s.mem.write64 (RegFile.read s.x 4 - 8) (RegFile.read s.x rA) := by rw [ht']
  have hpc : t.pc = s.pc + 2 := by rw [ht']
  have hs : t.status = .Continue := by rw [ht']; exact h.1.1
  have hsp : RegFile.read t.x 4 = RegFile.read s.x 4 - 8 := by rw [hx, RegFile.read_write_same _ _ (by decide)]
  have hready : t.Ready (.popq fn' rB) := ready_of_fits (instructionEndsBetweenInstructions _ s t h.1 ht hs)
    (by rw [hm, hpc, Memory.write64_capacity]; exact hfits)
  have hu' := Host.Outcome.next.inj
    (hu.symm.trans (popqCompletes t fn' rB hB hready (by rwa [hsp, hm, Memory.write64_capacity])))
  have hux : u.x = RegFile.write (RegFile.write t.x 4 (RegFile.read t.x 4 + 8)) rB (t.mem.read64 (RegFile.read t.x 4)) := by
    rw [hu']
  have hupc : u.pc = t.pc + 2 := by rw [hu']
  refine ⟨by rw [hu']; exact hs, ?_, ?_⟩
  · rw [hupc, hpc, BitVec.add_assoc]
    rfl
  · rw [hux, hsp, hx, RegFile.write_down_up _ (by decide), hm,
      Memory.read64_write64_same _ _ _ ((Memory.dataInBounds_iff _ _).2 hb)]

end Sys2Proof.Machine
end

section
/-! PROOFS. A halt takes five cycles from Fetch to Writeback (spec/70_reset_and_hazards.md section 1, spec/41_halt_nop.md). -/

namespace Sys2Proof.Machine

variable {s t : State} {l : Latch} {n : Nat}

/-! ### No halt comes to Writeback before the fifth cycle -/

/-- The run has not halted, and the `n` oldest latches hold no halt. -/
structure State.HaltFree (s : State) (n : Nat) : Prop where
  status : s.status ≠ .Halted
  halted : s.status = .Continue → s.halted = false
  latches : s.status = .Continue → ∀ l ∈ [s.M, s.E, s.D, s.F].take n, l.icode ≠ .halt

theorem haltFree_of_quiescent (hq : s.Quiescent) : s.HaltFree 4 := by
  obtain ⟨hs, hh, -, -, hF, hD, hE, hM⟩ := hq
  exact ⟨by simp [hs], fun _ => hh, fun _ => by simp [hF, hD, hE, hM]⟩

/-- The squash phase brings no halt. -/
theorem squash_no_halt :
    (s.D.icode ≠ .halt → s.squash.D.icode ≠ .halt) ∧ (s.F.icode ≠ .halt → s.squash.F.icode ≠ .halt) := by
  unfold State.squash
  split
  · exact ⟨fun _ => IClass.noConfusion, fun _ => IClass.noConfusion⟩
  · exact ⟨id, id⟩

/-- The instructions move up by one latch, so one latch fewer is known to hold no halt. -/
theorem haltFree_cycle (h : s.HaltFree (n + 1)) (hn : n ≤ 3) : (cycle .memory s).HaltFree n := by
  by_cases hs : s.status = .Continue
  · have hl := h.latches hs
    have hM : s.M.icode ≠ .halt := hl _ (by simp)
    refine ⟨mt (cycle_status_halted_iff hs (h.halted hs)).1 hM, fun ht => ?_, fun ht => ?_⟩
    · obtain ⟨-, -, -, -, hh, -⟩ := cycle_shape hs ht
      exact hh
    · obtain ⟨-, -, -, -, -, -, -, ⟨v, hM'⟩, ⟨e, c, hE'⟩, hD', -⟩ := cycle_shape hs ht
      have hD : s.squash.F.icode ≠ .halt → (cycle .memory s).D.icode ≠ .halt := by
        intro hF
        rcases hD' with ⟨-, hD', -⟩ | ⟨-, hD', -⟩ <;> rw [hD']
        · decide
        · exact hF
      obtain ⟨hsD, hsF⟩ := squash_no_halt (s := s)
      have hE : s.D.icode ≠ .halt → (cycle .memory s).E.icode ≠ .halt := fun h => by rw [hE']; exact hsD h
      have hM : s.E.icode ≠ .halt → (cycle .memory s).M.icode ≠ .halt := fun h => by rw [hM']; exact h
      obtain rfl | rfl | rfl | rfl : n = 0 ∨ n = 1 ∨ n = 2 ∨ n = 3 := by omega
      all_goals
        simp only [List.take_succ_cons, List.take_zero, List.forall_mem_cons, List.not_mem_nil, false_implies, implies_true,
          and_true] at hl ⊢
      · obtain ⟨-, h1⟩ := hl
        exact hM h1
      · obtain ⟨-, h1, h2⟩ := hl
        exact ⟨hM h1, hE h2⟩
      · obtain ⟨-, h1, h2, h3⟩ := hl
        exact ⟨hM h1, hE h2, hD (hsF h3)⟩
  · rw [cycle_of_terminal .memory hs]
    exact ⟨h.status, fun hc => absurd hc hs, fun hc => absurd hc hs⟩

/-! ### A pipeline that fills with halts -/

/-- A halt or a bubble: nothing it does shows before it commits. -/
structure Latch.Inert (l : Latch) : Prop where
  icode : l.icode = .halt ∨ l.icode = .nop
  regA : l.regA = Config.noRegister
  regB : l.regB = Config.noRegister

/-- The cycle that fetches a halt behind inert instructions. -/
def State.fetchHalt (t : State) : State :=
  { t with
    pc := t.pc + 1
    halted := decide (t.M.icode = .halt)
    status := if t.M.icode = .halt then .Halted else .Continue
    F := fetchedLatch (.opcode .halt 0) t.pc
    D := { t.F with stalling := false }
    E := { t.D with stalling := false }
    M := { t.E with stalling := false }
    W := { t.M with stalling := false } }

theorem Latch.Inert.dests (h : l.Inert) : l.dests = [] := by
  rcases h.icode with hc | hc <;> simp [Latch.dests, hc]

theorem Latch.Inert.commit (h : l.Inert) (x : RegFile) : l.commit x = x := by
  rcases h.icode with hc | hc <;> simp [Latch.commit, hc]

theorem Latch.Inert.access (h : l.Inert) : l.access = .none := by
  rcases h.icode with hc | hc <;> simp [Latch.access, hc]

theorem Latch.Inert.icode_ne (h : l.Inert) {c : IClass} (h1 : c ≠ .halt) (h2 : c ≠ .nop) : l.icode ≠ c := by
  rcases h.icode with hc | hc <;> rw [hc]
  · exact h1.symm
  · exact h2.symm

theorem Latch.Inert.sel (h : l.Inert) : l.selA = Config.noRegister ∧ l.selB = Config.noRegister := by
  rcases h.icode with hc | hc <;> simp [Latch.selA, Latch.selB, hc, h.regA, h.regB]

theorem Latch.Inert.registerFault (h : l.Inert) : l.registerFault = false := by
  obtain ⟨hA, hB⟩ := h.sel
  rcases h.icode with hc | hc <;>
    simp [Latch.registerFault, Latch.missingRegister, hA, hB, hc, IClass.requiresA, IClass.requiresB, badIndex]

theorem Latch.Inert.decodedLatch (h : l.Inert) (t : State) : t.decodedLatch l = { l with stalling := false } := by
  obtain ⟨hA, hB⟩ := h.sel
  rw [State.decodedLatch, hA, hB]
  rfl

theorem parse_halt (rest : List Byte) : parse (0 :: rest) = .ok (.opcode .halt 0) := by
  have hc : IClass.ofCode (highNibble 0) = some .halt := by decide
  have hlen : ¬ (0 :: rest).length < IClass.halt.length := Nat.not_lt.2 (Nat.succ_le_succ (Nat.zero_le _))
  simp only [parse, hc]
  rw [if_neg (by simp), if_neg hlen]
  rfl

theorem cycle_fetchHalt (hg : t.Going) (hF : t.F.Inert) (hD : t.D.Inert) (hE : t.E.Inert) (hM : t.M.Inert)
    (hpc : t.pc.toNat < t.mem.capacity) (hbyte : t.mem.readByte t.pc.toNat = 0) : cycle .memory t = t.fetchHalt := by
  obtain ⟨hA, hB⟩ := hF.sel
  have hst : t.stall = false := by simp [State.stall, operandLocked, hA, hB]
  have hho : t.hold = false := by simp [State.hold, hF.icode_ne, hD.icode_ne, hE.icode_ne]
  have h1 := writebackUnit_of_valid t t (by simp [hM.dests])
  have h2 (m : State) : memoryUnit t m = .ok (m.latchM { t.E with stalling := false }) := by simp [memoryUnit, hE.access]
  have h3 (m : State) : executeUnit t m = .ok (m.latchE { t.D with stalling := false }) := by
    rcases hD.icode with hc | hc <;> simp [executeUnit, hc]
  have hparse : parse (t.mem.fetchWindow t.pc) = .ok (.opcode .halt 0) := by
    rw [t.mem.fetchWindow_of_lt hpc, hbyte, parse_halt]
  have h5 (m : State) : fetchUnit .memory t m = .ok (m.fetched (fetchedLatch (.opcode .halt 0) t.pc)) := by
    simp [fetchUnit, hst, hho, hparse]
  rw [cycle_of_units hg h1 (h2 _) (h3 _) (decodeUnit_accepts hF.registerFault hst _) (h5 _)]
  obtain ⟨hs, hh, hm⟩ := hg
  by_cases hc : t.M.icode = .halt <;>
    simp [State.takeFault, State.fetched, State.accept, State.retire, State.latchM, State.latchE, State.setStatus, hc, hh,
      State.fetchHalt, hM.commit, hM.dests, hF.dests, hF.decodedLatch, LockTable.putAll]
  all_goals rfl

/-- After `n` cycles of a pipeline that fills with halts: they stand in the first `n` latches. -/
structure State.Fills (s : State) (n : Nat) (t : State) : Prop where
  going : t.Going
  same : s.SameArchitecture t
  pc : t.pc = s.pc + BitVec.ofNat 64 n
  F : t.F.Inert ∧ (t.F.icode = .halt ↔ 1 ≤ n)
  D : t.D.Inert ∧ (t.D.icode = .halt ↔ 2 ≤ n)
  E : t.E.Inert ∧ (t.E.icode = .halt ↔ 3 ≤ n)
  M : t.M.Inert ∧ (t.M.icode = .halt ↔ 4 ≤ n)

theorem inert_bubble : bubble.Inert := ⟨.inr rfl, rfl, rfl⟩

theorem Latch.Inert.withStalling (h : l.Inert) (b : Bool) : Latch.Inert { l with stalling := b } := ⟨h.icode, h.regA, h.regB⟩

theorem fills_zero (hq : s.Quiescent) : s.Fills 0 s := by
  obtain ⟨hs, hh, hm, -, hF, hD, hE, hM⟩ := hq
  refine ⟨⟨hs, hh, hm⟩, ⟨rfl, rfl, rfl, rfl, rfl⟩, (BitVec.add_zero _).symm, ?_, ?_, ?_, ?_⟩
  · rw [hF]; exact ⟨inert_bubble, by decide⟩
  · rw [hD]; exact ⟨inert_bubble, by decide⟩
  · rw [hE]; exact ⟨inert_bubble, by decide⟩
  · rw [hM]; exact ⟨inert_bubble, by decide⟩

/-- The cycle `n` of such a run, which finds the bytes of `s` all zero. -/
theorem cycle_of_fills (h : s.Fills n t) (hcap : s.pc.toNat + 5 ≤ s.mem.capacity) (hpc : s.pc.toNat + 5 < 2 ^ 64)
    (hzero : ∀ k < 5, s.mem.readByte (s.pc.toNat + k) = 0) (hn : n < 5) : cycle .memory t = t.fetchHalt := by
  obtain ⟨-, -, -, -, hmem⟩ := h.same
  have ht : t.pc.toNat = s.pc.toNat + n := by
    rw [h.pc, BitVec.toNat_add, BitVec.toNat_ofNat]
    omega
  exact cycle_fetchHalt h.going h.F.1 h.D.1 h.E.1 h.M.1 (by rw [ht, ← hmem]; omega) (by rw [ht, ← hmem]; exact hzero n hn)

theorem fills_succ (h : s.Fills n t) (hn : n < 4) : s.Fills (n + 1) t.fetchHalt := by
  have hM : t.M.icode ≠ .halt := fun hc => Nat.not_le.2 hn (h.M.2.1 hc)
  obtain ⟨⟨hs, hh, hm⟩, hsame, hpc, hF, hD, hE, -⟩ := h
  have hfetched : t.fetchHalt.F.Inert ∧ (t.fetchHalt.F.icode = .halt ↔ 1 ≤ n + 1) :=
    ⟨⟨.inl rfl, rfl, rfl⟩, iff_of_true rfl (Nat.le_add_left 1 n)⟩
  refine ⟨⟨if_neg hM, decide_eq_false hM, hm⟩, hsame, ?_, hfetched,
    ⟨hF.1.withStalling _, hF.2.trans (by omega)⟩, ⟨hD.1.withStalling _, hD.2.trans (by omega)⟩,
    ⟨hE.1.withStalling _, hE.2.trans (by omega)⟩⟩
  change t.pc + 1 = _
  rw [hpc, BitVec.add_assoc, BitVec.ofNat_add]
  rfl

theorem fills_cycle (h : s.Fills n t) (hcap : s.pc.toNat + 5 ≤ s.mem.capacity) (hpc : s.pc.toNat + 5 < 2 ^ 64)
    (hzero : ∀ k < 5, s.mem.readByte (s.pc.toNat + k) = 0) (hn : n < 4) : s.Fills (n + 1) (cycle .memory t) := by
  rw [cycle_of_fills h hcap hpc hzero (by omega)]
  exact fills_succ h hn

/-- Settles O42: a halt needs five cycles to reach Writeback, and five halts in a row fill the pipeline without a fault. -/
theorem haltTakesFiveCycles : Obligations.HaltTakesFiveCycles := by
  intro s t u v w z hq h1 h2 h3 h4 h5
  obtain rfl := cycle_eq_of_step h1
  obtain rfl := cycle_eq_of_step h2
  obtain rfl := cycle_eq_of_step h3
  obtain rfl := cycle_eq_of_step h4
  obtain rfl := cycle_eq_of_step h5
  have f1 := haltFree_cycle (haltFree_of_quiescent hq) (by decide)
  have f2 := haltFree_cycle f1 (by decide)
  have f3 := haltFree_cycle f2 (by decide)
  have f4 := haltFree_cycle f3 (by decide)
  refine ⟨f1.status, f2.status, f3.status, f4.status, fun hcap hpc hzero => ?_⟩
  have g1 := fills_cycle (fills_zero hq) hcap hpc hzero (by decide)
  have g2 := fills_cycle g1 hcap hpc hzero (by decide)
  have g3 := fills_cycle g2 hcap hpc hzero (by decide)
  have g4 := fills_cycle g3 hcap hpc hzero (by decide)
  have hM := g4.M.2.2 (by decide)
  refine ⟨g4.going.1, ?_⟩
  rw [cycle_of_fills g4 hcap hpc hzero (by decide)]
  refine ⟨if_pos hM, decide_eq_true hM, ?_, g4.same⟩
  change _ + 1 = _
  rw [g4.pc, BitVec.add_assoc]
  rfl

end Sys2Proof.Machine
end
